-- ==== Sys2Proof/Word.lean ====
section
/-! DEFINITION. The two widths the spec names for stored values: the 8-bit byte (`00_scope.md` R8) and the
32-bit register (`00_scope.md` R7, `REG_W`). Everything the spec counts rather than addresses bit by bit is a natural
number (R10), and is carried as `Nat`. -/

namespace Sys2Proof

/-- A byte, 8 bits, bit 0 the least significant (R8). -/
abbrev Byte := BitVec 8

/-- A register, 32 bits (`REG_W`, R7); registers are read and written whole (R36). -/
abbrev Word := BitVec 32

end Sys2Proof
end

