-- ==== Sys2Proof/Config.lean ====
section
/-! DEFINITION. What an instance fixes for its life: the constants of `00_scope.md` R6, the decided values of R7, the
OPEN parameters of R7 and R76 (a structure of plain data, carried by the state so that a claim holds for every value of
it), and the free values, which the spec calls unspecified (opaque constants: nothing evaluates them). -/

namespace Sys2Proof

/-- The OPEN parameters (`00_scope.md` R7, `20_memory.md` R76, `92_eei_decisions.md` section C). They are configuration
(`10_state.md` R47): no step of the machine changes them. -/
structure Config where
  /-- `LIT_BIT`: the command bit value that selects a literal step (R101, D9). -/
  litBit : Bool
  /-- `VARINT_W`, the width of a varint result in bits (R7, D10): `none` is unbounded. -/
  varintW : Option Nat
  /-- `SRC_CAP`, bytes. -/
  srcCap : Nat
  /-- `TILE_CAP`, tiles. -/
  tileCap : Nat
  /-- `PAL_CAP`, entries. -/
  palCap : Nat
  /-- `NT_CAP`, entries. -/
  ntCap : Nat
  /-- `FB_CAP`, bytes. -/
  fbCap : Nat
  /-- The eight window bases of R76. -/
  regBase : Word
  srcBase : Word
  litBase : Word
  outBase : Word
  tileBase : Word
  palBase : Word
  ntBase : Word
  fbBase : Word
deriving DecidableEq, Repr

/-- The defaults the spec gives the OPEN parameters (R7, R76). DESIGN CHOICE (log entry 1): the reset state carries them;
no claim rests on them. -/
def Config.standard : Config where
  litBit := false
  varintW := none
  srcCap := 262144
  tileCap := 16384
  palCap := 131072
  ntCap := 131072
  fbCap := 16777216
  regBase := 0x00000000#32
  srcBase := 0x00100000#32
  litBase := 0x00200000#32
  outBase := 0x00300000#32
  tileBase := 0x00400000#32
  palBase := 0x00800000#32
  ntBase := 0x00C00000#32
  fbBase := 0x01000000#32

/-- What R28 asks of `SRC_CAP` (`8·SRC_CAP < 2^32`), and R10 of the other capacities (a count fits its register). -/
def Config.Sound (c : Config) : Prop :=
  8 * c.srcCap < 2 ^ 32 ∧ c.tileCap < 2 ^ 32 ∧ c.palCap < 2 ^ 32 ∧ c.ntCap < 2 ^ 32 ∧ c.fbCap < 2 ^ 32

/-! ## `VARINT_W` (R7, D10, `93_implementation_defined.md` U8; log entry 18)

A value is never wrapped: in `DECOMP` it saturates where that does not show, at `RDVARINT` the model refuses. -/

/-- A varint's value as `DECOMP` uses it: an accumulator of `VARINT_W` bits saturates, and never below 65535 (U8). -/
def Config.saturated (c : Config) (v : Nat) : Nat :=
  match c.varintW with
  | none => v
  | some w => min v (2 ^ max w 16 - 1)

/-- A value that `RESULT` would hold (R126) and an accumulator of `VARINT_W` bits does not: the spec gives `RDVARINT` no
meaning on it (`00_scope.md` R11). -/
def Config.varintTooWide (c : Config) (v : Nat) : Bool :=
  match c.varintW with
  | none => false
  | some w => decide (2 ^ w ≤ v) && decide (v < 2 ^ 32)

/-! Constants (R6) and decided parameters (R7). -/

/-- `TILE_DIM`: a tile is 8 pixels wide and high. -/
def tileDim : Nat := 8
/-- `TILE_PIXELS`: elements of a tile. -/
def tilePixels : Nat := 64
/-- `PLANE_CHUNK`: bytes of a chunk of two bitplanes. -/
def planeChunk : Nat := 16
/-- `VARINT_INIT`: the varint accumulator's start value. -/
def varintInit : Nat := 1
/-- `REF_BIAS`: added to the varint for a back-reference's length. -/
def refBias : Nat := 2
/-- `HDR_SELF`: the header's second field counts its own two bytes. -/
def hdrSelf : Nat := 2
/-- `PAD_ROWS`: extra pixel rows of the image. -/
def padRows : Nat := 8
/-- `ALPHA_CLEAR`. -/
def alphaClear : Byte := 0#8
/-- `ALPHA_OPAQUE`. -/
def alphaOpaque : Byte := 255#8
/-- `FILL`: each of the four bytes of a pixel no entry writes (D23). -/
def fillByte : Byte := 0#8
/-- `RDBITS_MAX` (D11). -/
def rdbitsMax : Nat := 32
/-- `LIT_CAP`, bytes (D4). -/
def litCap : Nat := 65533
/-- `OUT_CAP`, bytes (D4). -/
def outCap : Nat := 65535

/-! Free values (`93_implementation_defined.md` U2, U3, U4). No body: a claim that mentions one holds for every value. -/

/-- The unspecified value of element `idx` of a memory whose contents were last left unspecified at `gen` (U2). -/
opaque Config.freeElem (w gen idx : Nat) : BitVec w

/-- The `n`-th unspecified register value the machine meets (U3, U4, U5). -/
opaque Config.freeReg (n : Nat) : Word

end Sys2Proof
end

