-- ==== Sys2Proof/Machine/Memory.lean ====
section
/-! DEFINITION. A memory of `10_state.md` R37 to R43: an array of elements addressed by index (R60). It is held as the
list of the elements that have a specified value, their indices strictly rising. Every other element is unspecified
(`93_implementation_defined.md` U2): reading it gives a free value, which depends on the index and on `gen`, the moment
the memory's contents were last left unspecified. -/

namespace Sys2Proof.Machine

/-- A memory of `w`-bit elements. -/
structure Memory (w : Nat) where
  /-- The model's own: which unspecified contents stand under the listed elements. -/
  gen : Nat
  /-- The specified elements, indices strictly rising. For the byte memories this is a list of `Host.Cell`. -/
  cells : List (Nat × BitVec w)
deriving DecidableEq, Repr

/-- The value listed for index `a`, if any. -/
def cellsLookup {w : Nat} : List (Nat × BitVec w) → Nat → Option (BitVec w)
  | [], _ => none
  | (k, v) :: t, a => if k = a then some v else cellsLookup t a

/-- `a` listed with value `v`, the order of the indices kept. -/
def cellsInsert {w : Nat} (a : Nat) (v : BitVec w) : List (Nat × BitVec w) → List (Nat × BitVec w)
  | [] => [(a, v)]
  | (k, x) :: t =>
    if a < k then (a, v) :: (k, x) :: t
    else if a = k then (a, v) :: t
    else (k, x) :: cellsInsert a v t

/-- The elements of `l` at the indices from `i` on. -/
def cellsFrom {w : Nat} (i : Nat) : List (BitVec w) → List (Nat × BitVec w)
  | [] => []
  | v :: t => (i, v) :: cellsFrom (i + 1) t

/-- The value of element `a`, if it is specified. -/
def Memory.lookup {w : Nat} (m : Memory w) (a : Nat) : Option (BitVec w) := cellsLookup m.cells a

/-- `M[a]`, read (R9). What an unlisted element reads as is said here and nowhere else: a free value (U2). -/
def Memory.read {w : Nat} (m : Memory w) (a : Nat) : BitVec w := (m.lookup a).getD (Config.freeElem w m.gen a)

/-- `M[a] <- v` (R9). -/
def Memory.write {w : Nat} (m : Memory w) (a : Nat) (v : BitVec w) : Memory w :=
  { m with cells := cellsInsert a v m.cells }

/-- A memory no element of which is specified (U2). -/
def Memory.unspecified {w : Nat} (gen : Nat) : Memory w := { gen := gen, cells := [] }

/-- A memory whose elements `0 … l.length - 1` are `l`; the rest is unspecified. -/
def Memory.ofList {w : Nat} (gen : Nat) (l : List (BitVec w)) : Memory w := { gen := gen, cells := cellsFrom 0 l }

/-- `MemRead(M, a, n)` (R9). -/
def Memory.readList {w : Nat} (m : Memory w) (a : Nat) : Nat → List (BitVec w)
  | 0 => []
  | n + 1 => m.read a :: Memory.readList m (a + 1) n

/-- `dst[d + i] <- src[a + i]` for i = 0 … n-1, in this order (the literal copy, R143). -/
def copyAcross (src : Memory 8) : (n a d : Nat) → Memory 8 → Memory 8
  | 0, _, _, m => m
  | n + 1, a, d, m => copyAcross src n (a + 1) (d + 1) (m.write d (src.read a))

/-- `m[d + i] <- m[a + i]` for i = 0 … n-1, each byte read after all earlier ones were written (R146). -/
def copyWithin : (n a d : Nat) → Memory 8 → Memory 8
  | 0, _, _, m => m
  | n + 1, a, d, m => copyWithin n (a + 1) (d + 1) (m.write d (m.read a))

/-- The canonical form: the listed indices rise strictly. An unlisted element reads as no fixed value, so no listed one
can equal it. -/
abbrev Memory.wf {w : Nat} (m : Memory w) : Prop := m.cells.Pairwise (fun x y => x.1 < y.1)

/-- Elements `0 … n-1` are all specified. -/
def Memory.Covers {w : Nat} (m : Memory w) (n : Nat) : Prop := ∀ i, i < n → (m.lookup i).isSome = true

end Sys2Proof.Machine
end

