-- ==== Sys2Proof/Syntax.lean ====
section
/-! DEFINITION. The instructions: one constructor for each of the twenty rows of `spec/opcode_table.json`. The thirteen
host commands (`30_encoding.md` R93) carry their operand fields as the command word does; the stream tokens (R96, R99,
R148) carry their decoded operands; the three data words (R104, R105, R95) carry their fields. -/

namespace Sys2Proof

/-- `sel`: the input buffer of a bulk decoder, 0 = SRC, 1 = OUT (R92, D30). -/
inductive Sel where
  | src
  | out
deriving DecidableEq, Repr

/-- One constructor per opcode-table row. -/
inductive Instr where
  /-- `NOP` (R230). -/
  | nop
  /-- `RDBITS n` (R124), n = `c[31:8]`. -/
  | rdbits (n : BitVec 24)
  /-- `RDBYTES n` (R125), n = `c[31:8]`. -/
  | rdbytes (n : BitVec 24)
  /-- `RDVARINT` (R126). -/
  | rdvarint
  /-- `DECOMP` (R152). -/
  | decomp
  /-- `TILEDEC sel, bpp` (R177). -/
  | tiledec (sel : Sel) (bpp : BitVec 4)
  /-- `PALLOAD sel` (R192). -/
  | palload (sel : Sel)
  /-- `GETCOLOR sp, ci, bpp` (R193). -/
  | getcolor (sp ci : BitVec 8) (bpp : BitVec 4)
  /-- `SUBPALCNT bpp` (R194). -/
  | subpalcnt (bpp : BitVec 4)
  /-- `NTPARSE sel` (R202). -/
  | ntparse (sel : Sel)
  /-- `COMPOSE tw, bpp` (R220). -/
  | compose (tw : BitVec 16) (bpp : BitVec 4)
  /-- `CLRERR` (R231). -/
  | clrerr
  /-- `SRESET` (R232). -/
  | sreset
  /-- The literal step with its varint `n` (R143). -/
  | lit (n : Nat)
  /-- The back-reference step with its source field and its varint `m` (R144). -/
  | ref (source m : Nat)
  /-- The command bit (R148). -/
  | cmdbit (c : Bool)
  /-- A varint of value `v`, the body of `RDVARINT` (R123, R126). -/
  | varint (v : Nat)
  /-- The block header, U and V (R95, R141). -/
  | blockhdr (u v : BitVec 16)
  /-- A colour word: bit 15, blue, green, red (R104). -/
  | colorword (x : Bool) (b g r : BitVec 5)
  /-- A nametable entry word: flip_v, flip_h, priority, sub_palette_index, tile_index (R105). -/
  | ntword (v h p : Bool) (sp : BitVec 3) (tile : BitVec 10)
deriving DecidableEq, Repr

end Sys2Proof
end

