-- ==== Sys2Proof/Machine/State.lean ====
section
/-! DEFINITION. The state: the engine state, the registers and the seven memories of `10_state.md` R21, the configuration
(R47), and the model's own fields, named as such. -/

namespace Sys2Proof.Machine

open Sys2Proof

/-- `ST` (R45). -/
inductive EngineState where
  | idle
  | busy
  | fault
deriving DecidableEq, Repr

/-- The model's own: what the ENGINE does next inside a command (the working state of R46). `none` between commands. -/
inductive Phase where
  /-- No command in progress. -/
  | none
  /-- `DECOMP`: the block header is next (R141). -/
  | header
  /-- `DECOMP`: a literal step is next (R143). -/
  | lit
  /-- `DECOMP`: a back-reference step is next (R144). -/
  | ref
  /-- `DECOMP`: the command bit is next (R148). -/
  | cmdbit
  /-- `RDVARINT`: its varint is next; `start` is `BITPOS` as the command found it (R126). -/
  | varint (start : Word)
  /-- `PALLOAD`: the next colour word of the input (R192). -/
  | colour (sel : Sel)
  /-- `NTPARSE`: the next entry word of the input (R202). -/
  | entry (sel : Sel)
deriving DecidableEq, Repr

/-- What the HOST does to SRCORE (R20, R76): a write or a read of one element of a window (R60, R68: elements and
registers are transferred whole), or the hardware reset (R270, U12). -/
inductive HostOp where
  | write (addr data : Word)
  | read (addr : Word)
  | reset
deriving DecidableEq, Repr

/-- The fault kinds of `60_exceptions.md` R241. -/
inductive FaultKind where
  | streamUnderrun
  | corruptStream
  | lengthMismatch
  | indexOutOfRange
  | illegalCommand
deriving DecidableEq, Repr

/-- The info codes of R247. -/
inductive Info where
  | underrun
  | badHeader
  | literalOverrun
  | backrefUnwritten
  | partialTile
  | paletteIndex
  | tileIndex
  | badOpcode
  | reservedBits
  | badParam
  | misaligned
  | noInput
  | capacity
  | resultRange
deriving DecidableEq, Repr

/-- The machine. Registers: R36; `STATUS` is not a field: its bits are `st`, `done`, the six valid bits, and `EOS`, which
is computed (R25). -/
structure State where
  /-- The parameters (R47): no step changes them. -/
  cfg : Config
  /-- `ST` (R45). -/
  st : EngineState
  /-- `STATUS.DONE` (R25). -/
  done : Bool
  /-- `STATUS.LIT_V`. -/
  litV : Bool
  /-- `STATUS.OUT_V`. -/
  outV : Bool
  /-- `STATUS.TILE_V`. -/
  tileV : Bool
  /-- `STATUS.PAL_V`. -/
  palV : Bool
  /-- `STATUS.NT_V`. -/
  ntV : Bool
  /-- `STATUS.FB_V`. -/
  fbV : Bool
  /-- `ERR` (R26). -/
  err : Word
  /-- `RESULT` (R23). -/
  result : Word
  /-- `SRC_LEN` (R27). -/
  srcLen : Word
  /-- `BITPOS` (R28). -/
  bitPos : Word
  /-- `LIT_LEN` (R29). -/
  litLen : Word
  /-- `DATA_POS` (R29). -/
  dataPos : Word
  /-- `OUT_LEN` (R30). -/
  outLen : Word
  /-- `DECOMP_POS` (R30). -/
  decompPos : Word
  /-- `NEXT_CMD` (R31): 0 literal, 1 back-reference. -/
  nextCmd : Word
  /-- `TILE_CNT` (R32). -/
  tileCnt : Word
  /-- `TILE_BPP` (R32). -/
  tileBpp : Word
  /-- `PAL_CNT` (R33). -/
  palCnt : Word
  /-- `NT_CNT` (R34). -/
  ntCnt : Word
  /-- `IMG_W` (R35). -/
  imgW : Word
  /-- `IMG_H` (R35). -/
  imgH : Word
  /-- `SRC` (R37). -/
  src : Memory 8
  /-- `LIT` (R38). -/
  lit : Memory 8
  /-- `OUT` (R39). -/
  out : Memory 8
  /-- `TILE` (R40). -/
  tile : Memory 8
  /-- `PAL` (R41): 24-bit entries `0xRRGGBB`. -/
  pal : Memory 24
  /-- `NT` (R42): 16-bit words. -/
  nt : Memory 16
  /-- `FB` (R43). -/
  fb : Memory 8
  /-- The model's own: where inside a command the ENGINE is. -/
  phase : Phase
  /-- The model's own: what the HOST does next, in order (the input of the step, R21). -/
  hostq : List HostOp
  /-- The model's own: the value the HOST's last read returned. -/
  rdata : Word
  /-- The model's own: the next free value's number. -/
  freeCtr : Nat
deriving DecidableEq, Repr

/-- The faults of a step: there are none. A fault of an SRCORE command is a next state with `ERR` written (R250), and the
spec has the machine stop nowhere else (R279). -/
inductive Fault where
deriving DecidableEq, Repr

/-- The refusals of a step. -/
inductive Refusal where
  /-- Raised by an arm of `exec` that has no meaning yet. Safe. -/
  | notModelled (mnemonic : String)
  /-- Raised by a HOST write, other than to `CMD`, while `ST` = BUSY: its result is unspecified (R274), and
  `93_implementation_defined.md` U5 has a model stop with this refusal. Safe. -/
  | hostTouchedBusy
  /-- Raised by `RDVARINT` and its varint in an instance whose `VARINT_W` is below 32, on a value below 2^32 that so many
  bits do not hold: R11 has a model stop here with a named refusal. Safe. -/
  | varintTooWide
deriving DecidableEq, Repr

/-- The state after reset (R49, R270): IDLE, every register 0, every valid bit 0, no memory element specified. The
configuration is the standard one (log entry 1); the model's own fields start at no phase, no HOST action, a read value
of 0, and the counter past the seven memories' generations (log entry 2). -/
def State.reset : State where
  cfg := Config.standard
  st := .idle
  done := false
  litV := false
  outV := false
  tileV := false
  palV := false
  ntV := false
  fbV := false
  err := 0#32
  result := 0#32
  srcLen := 0#32
  bitPos := 0#32
  litLen := 0#32
  dataPos := 0#32
  outLen := 0#32
  decompPos := 0#32
  nextCmd := 0#32
  tileCnt := 0#32
  tileBpp := 0#32
  palCnt := 0#32
  ntCnt := 0#32
  imgW := 0#32
  imgH := 0#32
  src := { gen := 0, cells := [] }
  lit := { gen := 1, cells := [] }
  out := { gen := 2, cells := [] }
  tile := { gen := 3, cells := [] }
  pal := { gen := 4, cells := [] }
  nt := { gen := 5, cells := [] }
  fb := { gen := 6, cells := [] }
  phase := .none
  hostq := []
  rdata := 0#32
  freeCtr := 7

end Sys2Proof.Machine
end

