-- ==== Sys2Proof/Machine/Flags.lean ====
section
/-! DEFINITION. The flags: `STATUS` (`10_state.md` R25), the layout of `ERR` (R26) with the codes of
`60_exceptions.md` R241 and R247. There are no arithmetic flags (R25). -/

namespace Sys2Proof.Machine

open Sys2Proof

/-- `ERR.CODE` of a kind (R241). -/
def FaultKind.code : FaultKind → BitVec 4
  | .streamUnderrun => 1#4
  | .corruptStream => 2#4
  | .lengthMismatch => 3#4
  | .indexOutOfRange => 4#4
  | .illegalCommand => 5#4

/-- `ERR.INFO` of a sub-cause (R247). -/
def Info.code : Info → BitVec 8
  | .underrun => 0x01#8
  | .badHeader => 0x02#8
  | .literalOverrun => 0x03#8
  | .backrefUnwritten => 0x04#8
  | .partialTile => 0x05#8
  | .paletteIndex => 0x06#8
  | .tileIndex => 0x07#8
  | .badOpcode => 0x10#8
  | .reservedBits => 0x11#8
  | .badParam => 0x12#8
  | .misaligned => 0x13#8
  | .noInput => 0x14#8
  | .capacity => 0x15#8
  | .resultRange => 0x16#8

/-- The word of `ERR` (R26): `OP` in bits 23..16, `INFO` in bits 15..8, `CODE` in bits 3..0, the rest 0. -/
def errWord (k : FaultKind) (info : Info) (op : BitVec 8) : Word := 0#8 ++ op ++ info.code ++ 0#4 ++ k.code

/-- `ERR.CODE`. -/
def State.errCode (s : State) : BitVec 4 := s.err.extractLsb' 0 4

/-- `ERR.INFO`. -/
def State.errInfo (s : State) : BitVec 8 := s.err.extractLsb' 8 8

/-- `ERR.OP`. -/
def State.errOp (s : State) : BitVec 8 := s.err.extractLsb' 16 8

/-- The number of bits in SRC's valid extent, `8·SRC_LEN`. -/
def State.srcBits (s : State) : Nat := 8 * s.srcLen.toNat

/-- `STATUS.EOS`: `BITPOS ≥ 8·SRC_LEN`, computed at every read (R25). -/
def State.eos (s : State) : Bool := decide (s.srcBits ≤ s.bitPos.toNat)

/-- A word with bit `i` equal to `b` and the rest 0. -/
def flagAt (i : Nat) (b : Bool) : Word := if b then 1#32 <<< i else 0#32

/-- `STATUS` (R25); every bit not listed reads 0. -/
def State.status (s : State) : Word :=
  flagAt 0 (s.st == .busy) ||| flagAt 1 (s.st == .fault) ||| flagAt 2 s.done ||| flagAt 3 s.eos
    ||| flagAt 8 s.litV ||| flagAt 9 s.outV ||| flagAt 10 s.tileV ||| flagAt 11 s.palV
    ||| flagAt 12 s.ntV ||| flagAt 13 s.fbV

end Sys2Proof.Machine
end

