-- ==== Sys2Proof/WellFormed.lean ====
section
/-! DEFINITION. The operand ranges of `30_encoding.md` R94 step 3 (`BAD_PARAM`), and what a stream token's operands can
be: a varint is at least 1 (R97), a source field has at most 16 bits (R99). The data words have no illegal value
(R104, R105; a header with V < 2 is a legal encoding that `DECOMP` faults on, R141). -/

namespace Sys2Proof

/-- A legal `bpp` field: the number 2, 4 or 8 (R92, R94). -/
def bppLegal (b : BitVec 4) : Bool := b == 2#4 || b == 4#4 || b == 8#4

/-- The check of an instruction's operands. -/
def Instr.wellFormed : Instr → Bool
  | .nop | .rdvarint | .decomp | .clrerr | .sreset => true
  | .rdbits n => n.toNat ≤ rdbitsMax
  | .rdbytes _ => true
  | .tiledec _ b => bppLegal b
  | .palload _ | .ntparse _ => true
  | .getcolor _ _ b => bppLegal b
  | .subpalcnt b => bppLegal b
  | .compose tw b => tw != 0#16 && bppLegal b
  | .lit n => 1 ≤ n
  | .ref source m => decide (source < 2 ^ 16) && decide (1 ≤ m)
  | .cmdbit _ => true
  | .varint v => 1 ≤ v
  | .blockhdr _ _ | .colorword _ _ _ _ | .ntword _ _ _ _ _ => true

end Sys2Proof
end

