-- ==== Sys2Proof/Decode.lean ====
section
/-! DEFINITION. Decoding and encoding, from `30_encoding.md`: the command word (R91 to R94), the stream tokens (R96 to R100),
the header, colour and nametable words (R95, R104, R105). A decoder answers an instruction or rejects by name. A
bitstream is given as the function from a stream position to its bit (R61), so that the same decoder reads SRC and a
list of bits. -/

namespace Sys2Proof

/-- Why a decoder rejects. The first three are R94's infos, in its order; `underrun` is a fixed-width stream field past
the end of the stream (R121). -/
inductive DecodeError where
  | badOpcode
  | reservedBits
  | badParam
  | underrun
deriving DecidableEq, Repr

/-! ## Numbers in the bitstream -/

/-- `bitlen(x)` (R9): 0 for 0, else the number of bits without leading zeros. -/
def bitlen (x : Nat) : Nat := if x = 0 then 0 else Nat.log2 x + 1

/-- The unsigned value of the `n` stream bits from `pos`, the first bit most significant (R62, R121). -/
def bitsValue (bit : Nat → Bool) (pos : Nat) : Nat → Nat
  | 0 => 0
  | n + 1 => 2 * bitsValue bit pos n + (bit (pos + n)).toNat

/-- `ReadVarint` (R123) on the `rem` bits from `pos` with the accumulator at `acc`: the value, and how many bits were
consumed. A trailing control bit with no data bit after it is consumed and adds nothing (R98). -/
def varintFrom (bit : Nat → Bool) : (rem pos acc : Nat) → Nat × Nat
  | 0, _, acc => (acc, 0)
  | 1, _, acc => (acc, 1)
  | rem + 2, pos, acc =>
    if bit pos then (acc, 1)
    else
      let r := varintFrom bit rem (pos + 2) (2 * acc + (bit (pos + 1)).toNat)
      (r.1, r.2 + 2)

/-- The groups of a varint's code for the digits `k - 1 … 0` of `v`, then the stop bit (R96). -/
def varintGroups (v : Nat) : Nat → List Bool
  | 0 => [true]
  | k + 1 => false :: v.testBit k :: varintGroups v k

/-- The code of `v ≥ 1` (R97): one group for each binary digit below the leading 1. -/
def encodeVarint (v : Nat) : List Bool := varintGroups v (bitlen v - 1)

/-- `v` in `w` bits, most significant first (R62). -/
def encodeField (v : Nat) : Nat → List Bool
  | 0 => []
  | w + 1 => v.testBit w :: encodeField v w

/-! ## Command words (R91 to R94) -/

/-- R94 steps 2 and 3: the reserved bits of the format, then the operand ranges. -/
def checkedCommand (c reserved : Word) (i : Instr) : Except DecodeError Instr :=
  if c &&& reserved = 0#32 then (if i.wellFormed then .ok i else .error .badParam) else .error .reservedBits

/-- `sel` = `c[8]` (R92). -/
def selOfBit (b : Bool) : Sel := if b then .out else .src

/-- The command a word stands for (R93), or R94's first failing check. -/
def decodeCommand (c : Word) : Except DecodeError Instr :=
  let sel := selOfBit (c.getLsbD 8)
  let bpp := c.extractLsb' 24 4
  match (c.extractLsb' 0 8).toNat with
  | 0x00 => checkedCommand c 0xFFFFFF00#32 .nop
  | 0x01 => checkedCommand c 0x00000000#32 (.rdbits (c.extractLsb' 8 24))
  | 0x02 => checkedCommand c 0x00000000#32 (.rdbytes (c.extractLsb' 8 24))
  | 0x03 => checkedCommand c 0xFFFFFF00#32 .rdvarint
  | 0x10 => checkedCommand c 0xFFFFFF00#32 .decomp
  | 0x20 => checkedCommand c 0xF0FFFE00#32 (.tiledec sel bpp)
  | 0x30 => checkedCommand c 0xFFFFFE00#32 (.palload sel)
  | 0x31 => checkedCommand c 0xF0000000#32 (.getcolor (c.extractLsb' 16 8) (c.extractLsb' 8 8) bpp)
  | 0x32 => checkedCommand c 0xF0FFFF00#32 (.subpalcnt bpp)
  | 0x40 => checkedCommand c 0xFFFFFE00#32 (.ntparse sel)
  | 0x50 => checkedCommand c 0xF0000000#32 (.compose (c.extractLsb' 8 16) bpp)
  | 0xF0 => checkedCommand c 0xFFFFFF00#32 .clrerr
  | 0xF1 => checkedCommand c 0xFFFFFF00#32 .sreset
  | _ => .error .badOpcode

/-! ## Stream tokens (R99, R100) -/

/-- Which token the grammar of R100 has next. -/
inductive StreamDue where
  | header
  | lit
  | ref
  | cmdbit
  | varint
deriving DecidableEq, Repr

/-- The token that stands at `pos` with `rem` bits left, and how many bits it takes. `dp` is `DECOMP_POS`, which fixes
the width of a source field (R99, R145). -/
def decodeToken (due : StreamDue) (dp : Nat) (bit : Nat → Bool) (pos rem : Nat) : Except DecodeError (Instr × Nat) :=
  match due with
  | .header =>
    if rem < 32 then .error .underrun
    else .ok (.blockhdr (BitVec.ofNat 16 (bitsValue bit pos 16)) (BitVec.ofNat 16 (bitsValue bit (pos + 16) 16)), 32)
  | .lit =>
    let r := varintFrom bit rem pos varintInit
    .ok (.lit r.1, r.2)
  | .ref =>
    let w := bitlen dp
    if rem < w then .error .underrun
    else
      let r := varintFrom bit (rem - w) (pos + w) varintInit
      .ok (.ref (bitsValue bit pos w) r.1, w + r.2)
  | .cmdbit => if rem < 1 then .error .underrun else .ok (.cmdbit (bit pos), 1)
  | .varint =>
    let r := varintFrom bit rem pos varintInit
    .ok (.varint r.1, r.2)

/-! ## Data words (R104, R105) -/

/-- The 16-bit word of a byte pair, the lower address first (R64, R65). -/
def littleEndian16 (lo hi : Byte) : BitVec 16 := hi ++ lo

/-- The colour word's fields (R104). -/
def decodeColour (w : BitVec 16) : Instr :=
  .colorword (w.getLsbD 15) (w.extractLsb' 10 5) (w.extractLsb' 5 5) (w.extractLsb' 0 5)

/-- The nametable word's fields (R105). -/
def decodeEntry (w : BitVec 16) : Instr :=
  .ntword (w.getLsbD 15) (w.getLsbD 14) (w.getLsbD 13) (w.extractLsb' 10 3) (w.extractLsb' 0 10)

/-- The 16-bit colour word of its fields (R104). -/
def colourWord (x : Bool) (b g r : BitVec 5) : BitVec 16 := BitVec.ofBool x ++ b ++ g ++ r

/-- The 16-bit entry word of its fields (R105). -/
def entryWord (v h p : Bool) (sp : BitVec 3) (tile : BitVec 10) : BitVec 16 :=
  BitVec.ofBool v ++ BitVec.ofBool h ++ BitVec.ofBool p ++ sp ++ tile

/-! ## Encoding -/

/-- What an instruction is written as: a command word, stream bits in stream order, or bytes in address order. -/
inductive Code where
  | word (c : Word)
  | bits (l : List Bool)
  | bytes (l : List Byte)
deriving DecidableEq, Repr

/-- `c[8]` for `sel` (R92). -/
def Sel.bit : Sel → BitVec 1
  | .src => 0#1
  | .out => 1#1

/-- The code of an instruction (R92, R93, R95 to R97, R99, R104, R105). `dp` is `DECOMP_POS` at a back-reference step:
its source field has `bitlen dp` bits. -/
def encode (dp : Nat) : Instr → Code
  | .nop => .word 0x00000000#32
  | .rdbits n => .word (n ++ 0x01#8)
  | .rdbytes n => .word (n ++ 0x02#8)
  | .rdvarint => .word 0x00000003#32
  | .decomp => .word 0x00000010#32
  | .tiledec sel bpp => .word (0#4 ++ bpp ++ 0#15 ++ sel.bit ++ 0x20#8)
  | .palload sel => .word (0#23 ++ sel.bit ++ 0x30#8)
  | .getcolor sp ci bpp => .word (0#4 ++ bpp ++ sp ++ ci ++ 0x31#8)
  | .subpalcnt bpp => .word (0#4 ++ bpp ++ 0#16 ++ 0x32#8)
  | .ntparse sel => .word (0#23 ++ sel.bit ++ 0x40#8)
  | .compose tw bpp => .word (0#4 ++ bpp ++ tw ++ 0x50#8)
  | .clrerr => .word 0x000000F0#32
  | .sreset => .word 0x000000F1#32
  | .lit n => .bits (encodeVarint n)
  | .ref source m => .bits (encodeField source (bitlen dp) ++ encodeVarint m)
  | .cmdbit c => .bits [c]
  | .varint v => .bits (encodeVarint v)
  | .blockhdr u v => .bits (encodeField u.toNat 16 ++ encodeField v.toNat 16)
  | .colorword x b g r =>
    .bytes [(colourWord x b g r).extractLsb' 0 8, (colourWord x b g r).extractLsb' 8 8]
  | .ntword v h p sp tile =>
    .bytes [(entryWord v h p sp tile).extractLsb' 0 8, (entryWord v h p sp tile).extractLsb' 8 8]

/-! ## The decoder on a row's bits -/

/-- The instruction of `nbits` bits whose value is `w`, bit 0 the least significant of the first word, as
`spec/opcode_table.json` numbers them. 32 bits are a command word. The table's stream tokens and data words carry no bits
that name them: what they are is known from where they stand (R100). Log entry 14: 8 bits hold a command bit in bit 0, and
16 bits are read as a nametable word (every 16-bit value is one, R105). -/
def decodeTableWord (nbits w : Nat) : Option Instr :=
  match nbits with
  | 32 => (decodeCommand (BitVec.ofNat 32 w)).toOption
  | 16 => some (decodeEntry (BitVec.ofNat 16 w))
  | 8 => some (.cmdbit (w.testBit 0))
  | _ => none

end Sys2Proof
end

