-- ==== Sys2Proof/Machine/Operands.lean ====
section
/-! DEFINITION. The operand forms of `30_encoding.md` R92: the bit depth, the input buffer that `sel` chooses; and the
data words' fields in use: the colour conversion (`43_palette.md` R185 to R188) and the nametable entry
(`44_nametable.md` R200). -/

namespace Sys2Proof.Machine

open Sys2Proof

/-! ## Bit depth -/

/-- `BPP_SET` (R6). -/
inductive Bpp where
  | two
  | four
  | eight
deriving DecidableEq, Repr

/-- The depth a `bpp` field holds, if it is legal (R92). -/
def Bpp.ofField (f : BitVec 4) : Option Bpp :=
  match f.toNat with
  | 2 => some .two
  | 4 => some .four
  | 8 => some .eight
  | _ => none

/-- The depth as a number: bits per pixel, and bitplanes of a tile. -/
def Bpp.bits : Bpp → Nat
  | .two => 2
  | .four => 4
  | .eight => 8

/-- `TILE_BYTES(bpp)` = 8·bpp (R6). -/
def Bpp.tileBytes (b : Bpp) : Nat := 8 * b.bits

/-- `SUBPAL_SIZE(bpp)` (R6, R7, R190). -/
def Bpp.subpalSize : Bpp → Nat
  | .two => 4
  | .four => 16
  | .eight => 256

/-! ## The input buffer (R92, D30) -/

/-- `L`: the length of the chosen buffer's valid extent. -/
def State.inputLen (s : State) : Sel → Nat
  | .src => s.srcLen.toNat
  | .out => s.outLen.toNat

/-- Byte `i` of the chosen buffer. -/
def State.inputByte (s : State) (sel : Sel) (i : Nat) : Byte :=
  match sel with
  | .src => s.src.read i
  | .out => s.out.read i

/-- Little-endian word `i` of the chosen buffer (R64, R65). -/
def State.inputWord (s : State) (sel : Sel) (i : Nat) : BitVec 16 :=
  littleEndian16 (s.inputByte sel (2 * i)) (s.inputByte sel (2 * i + 1))

/-- The buffer may be read: OUT needs `OUT_V` (R92, R249 step 5). -/
def State.inputPresent (s : State) : Sel → Bool
  | .src => true
  | .out => s.outV

/-- `SRC_LEN ≤ SRC_CAP` (R27, R249 step 6). -/
def State.srcInCapacity (s : State) : Bool := decide (s.srcLen.toNat ≤ s.cfg.srcCap)

/-- The buffer's own length is within its memory's capacity. -/
def State.inputInCapacity (s : State) : Sel → Bool
  | .src => s.srcInCapacity
  | .out => true

/-! ## Colours -/

/-- `Chan8(v)` = `v·8 + (v·8) div 32` (R186). -/
def chan8 (v : BitVec 5) : Byte := BitVec.ofNat 8 (v.toNat * 8 + v.toNat * 8 / 32)

/-- `ConvertColor` on the word's fields (R188): the 24-bit entry `(r << 16) | (g << 8) | b` (R41). -/
def convertFields (b g r : BitVec 5) : BitVec 24 := chan8 r ++ chan8 g ++ chan8 b

/-- `ConvertColor(wd)` (R188): bit 15 is ignored. -/
def convertColor (w : BitVec 16) : BitVec 24 :=
  convertFields (w.extractLsb' 10 5) (w.extractLsb' 5 5) (w.extractLsb' 0 5)

/-- The red channel of an entry (R41). -/
def red (e : BitVec 24) : Byte := e.extractLsb' 16 8
/-- The green channel. -/
def green (e : BitVec 24) : Byte := e.extractLsb' 8 8
/-- The blue channel. -/
def blue (e : BitVec 24) : Byte := e.extractLsb' 0 8

/-! ## Nametable entries -/

/-- `NametableEntry` (R200). -/
structure NametableEntry where
  tileIndex : BitVec 10
  subPaletteIndex : BitVec 3
  priority : Bool
  flipH : Bool
  flipV : Bool
deriving DecidableEq, Repr

/-- `ParseEntry(wd)` (R200). -/
def parseEntry (w : BitVec 16) : NametableEntry where
  tileIndex := w.extractLsb' 0 10
  subPaletteIndex := w.extractLsb' 10 3
  priority := w.getLsbD 13
  flipH := w.getLsbD 14
  flipV := w.getLsbD 15

end Sys2Proof.Machine
end

