-- ==== Sys2Proof/Machine/Ops.lean ====
section
/-! DEFINITION. The shared operations: accepting and ending a command (`60_exceptions.md` R249, R250), taking a fault and
returning from it (R250, R252), reset (`10_state.md` R49), and the bitstream reader (`40_bitstream_reader.md` R120 to
R123). -/

namespace Sys2Proof.Machine

open Sys2Proof

/-! ## A command's life -/

/-- Acceptance of a command in IDLE: `DONE <- 0`, `ST <- BUSY` (R249 step 1). -/
def State.accept (s : State) : State := { s with st := .busy, done := false }

/-- A command ends ok: `DONE <- 1`, `ST <- IDLE` (R11, R25). -/
def State.endOk (s : State) : State := { s with st := .idle, done := true, phase := .none }

/-- Taking a fault: `raise K(info)` for the command whose opcode byte is `op` (R250). `ERR` is written, `ST` becomes
FAULT, `DONE` stays 0; nothing is saved elsewhere and control goes nowhere. -/
def raise (k : FaultKind) (info : Info) (op : BitVec 8) (s : State) : State :=
  { s with err := errWord k info op, st := .fault, done := false, phase := .none }

/-- The return from a fault, `CLRERR` (R231, R252): `ERR <- 0`, `ST <- IDLE`, `DONE` set; nothing else is restored. -/
def State.clearFault (s : State) : State := { s with err := 0#32, st := .idle, done := true, phase := .none }

/-- The reset state (R49, R270), the configuration and the HOST's side kept: every register 0, IDLE, no valid bit, every
memory unspecified from now on (U2). -/
def State.resetNow (s : State) : State :=
  { State.reset with
    cfg := s.cfg
    src := Memory.unspecified s.freeCtr
    lit := Memory.unspecified (s.freeCtr + 1)
    out := Memory.unspecified (s.freeCtr + 2)
    tile := Memory.unspecified (s.freeCtr + 3)
    pal := Memory.unspecified (s.freeCtr + 4)
    nt := Memory.unspecified (s.freeCtr + 5)
    fb := Memory.unspecified (s.freeCtr + 6)
    hostq := s.hostq
    rdata := s.rdata
    freeCtr := s.freeCtr + 7 }

/-- The state gate of R249 step 1 for every command but `CLRERR` and `SRESET`: in IDLE the command is accepted and runs;
in FAULT the word is ignored; in BUSY it is ignored too (R275). -/
def issue (work : State → State) (s : State) : State :=
  match s.st with
  | .idle => work s.accept
  | .busy => s
  | .fault => s

/-- The same gate for a command whose work the model may refuse. -/
def issueOutcome (work : State → Host.Outcome State Fault Refusal) (s : State) : Host.Outcome State Fault Refusal :=
  match s.st with
  | .idle => work s.accept
  | .busy => .next s
  | .fault => .next s

/-- The state gate for `CLRERR` and `SRESET`: accepted in IDLE and in FAULT (R249 step 1), ignored in BUSY (R275). -/
def issueAlways (work : State → State) (s : State) : State :=
  match s.st with
  | .idle => work s.accept
  | .busy => s
  | .fault => work s

/-- The info of a command word the decoder rejects (R94). `underrun` is not a command word's. -/
def DecodeError.info : DecodeError → Info
  | .badOpcode => .badOpcode
  | .reservedBits => .reservedBits
  | .badParam => .badParam
  | .underrun => .underrun

/-- A command word the decoder rejects: `IllegalCommand` with its info in IDLE, ignored otherwise (R94, R233, R249). -/
def rejectCommand (e : DecodeError) (c : Word) (s : State) : State :=
  issue (raise .illegalCommand (DecodeError.info e) (c.extractLsb' 0 8)) s

/-- R249 steps 5 and 6, then the work, for a bulk decoder of the buffer `sel`: `fits` says that the result is within its
memory's capacity. -/
def withInput (op : BitVec 8) (sel : Sel) (fits : Bool) (work : State → State) (s : State) : State :=
  if s.inputPresent sel then
    if s.inputInCapacity sel && fits then work s
    else raise .illegalCommand .capacity op s
  else raise .illegalCommand .noInput op s

/-! ## The bitstream reader -/

/-- `Rem` (R120), the number of unread bits. -/
def State.rem (s : State) : Nat := s.srcBits - s.bitPos.toNat

/-- `Bit(k)` (R61, R120): bit `7 − (k mod 8)` of `SRC[k div 8]`. -/
def State.streamBit (s : State) (k : Nat) : Bool := (s.src.read (k / 8)).getLsbD (7 - k % 8)

/-- `BITPOS <- BITPOS + n`. -/
def State.advance (s : State) (n : Nat) : State := { s with bitPos := s.bitPos + BitVec.ofNat 32 n }

/-- `ReadBits(n)` (R121): the value, or none when fewer than `n` bits remain; the caller moves the cursor. -/
def State.readBits (s : State) (n : Nat) : Option Nat :=
  if s.rem < n then none else some (bitsValue s.streamBit s.bitPos.toNat n)

/-- `ReadBytes(n)` (R122): the bytes, or the info of its failure, alignment first; the caller moves the cursor. -/
def State.readBytes (s : State) (n : Nat) : Except Info (List Byte) :=
  if s.bitPos.toNat % 8 ≠ 0 then .error .misaligned
  else if s.rem < 8 * n then .error .underrun
  else .ok (s.src.readList (s.bitPos.toNat / 8) n)

/-- `ReadVarint()` (R123): the value and the number of bits consumed. -/
def State.readVarint (s : State) : Nat × Nat := varintFrom s.streamBit s.rem s.bitPos.toNat varintInit

end Sys2Proof.Machine
end

