-- ==== Sys2Proof/Machine/HostPort.lean ====
section
/-! DEFINITION. The HOST's side: the eight windows (`20_memory.md` R76), the register map (`10_state.md` R36), and what a
read or a write does (R77, R80, `70_reset_and_hazards.md` R274, `93_implementation_defined.md` U2, U5, U6). -/

namespace Sys2Proof.Machine

open Sys2Proof

/-- The seven memories. -/
inductive MemName where
  | src
  | lit
  | out
  | tile
  | pal
  | nt
  | fb
deriving DecidableEq, Repr

/-- What an address names: the register at an offset, or an element of a memory's window. -/
inductive Target where
  | reg (offset : Nat)
  | elem (m : MemName) (i : Nat)
deriving DecidableEq, Repr

/-- The element of a window an address names: `size` bytes an element, `count` elements from `base`. -/
def windowIndex (base : Word) (size count : Nat) (a : Word) : Option Nat :=
  if base.toNat ≤ a.toNat ∧ (a.toNat - base.toNat) % size = 0 ∧ (a.toNat - base.toNat) / size < count
  then some ((a.toNat - base.toNat) / size) else none

/-- The offset in the register window an address names (R36): a register at each word offset up to 0x40, and every
reserved offset from 0x44 on. -/
def registerOffset (base a : Word) : Option Nat :=
  if base.toNat ≤ a.toNat ∧ a.toNat - base.toNat < 0x100
      ∧ ((a.toNat - base.toNat) % 4 = 0 ∨ 0x44 ≤ a.toNat - base.toNat)
  then some (a.toNat - base.toNat) else none

/-- The address map (R76). An address in no window, or inside a register or an element, names nothing (log entry 6). -/
def resolve (c : Config) (a : Word) : Option Target :=
  match registerOffset c.regBase a with
  | some o => some (.reg o)
  | none =>
  match windowIndex c.srcBase 1 c.srcCap a with
  | some i => some (.elem .src i)
  | none =>
  match windowIndex c.litBase 1 litCap a with
  | some i => some (.elem .lit i)
  | none =>
  match windowIndex c.outBase 1 outCap a with
  | some i => some (.elem .out i)
  | none =>
  match windowIndex c.tileBase 1 (64 * c.tileCap) a with
  | some i => some (.elem .tile i)
  | none =>
  match windowIndex c.palBase 4 c.palCap a with
  | some i => some (.elem .pal i)
  | none =>
  match windowIndex c.ntBase 2 c.ntCap a with
  | some i => some (.elem .nt i)
  | none =>
  match windowIndex c.fbBase 1 c.fbCap a with
  | some i => some (.elem .fb i)
  | none => none

/-- The value of the register at an offset (R36): `CMD` and the reserved offsets 0x44 to 0xFF read 0. -/
def State.readReg (s : State) (offset : Nat) : Word :=
  match offset with
  | 0x04 => s.status
  | 0x08 => s.err
  | 0x0C => s.result
  | 0x10 => s.srcLen
  | 0x14 => s.bitPos
  | 0x18 => s.litLen
  | 0x1C => s.dataPos
  | 0x20 => s.outLen
  | 0x24 => s.decompPos
  | 0x28 => s.nextCmd
  | 0x2C => s.tileCnt
  | 0x30 => s.tileBpp
  | 0x34 => s.palCnt
  | 0x38 => s.ntCnt
  | 0x3C => s.imgW
  | 0x40 => s.imgH
  | _ => 0#32

/-- The number of elements of a memory's valid extent (R37 to R43); 0 while its valid bit is 0. -/
def State.validExtent (s : State) : MemName → Nat
  | .src => s.srcLen.toNat
  | .lit => if s.litV then s.litLen.toNat else 0
  | .out => if s.outV then s.outLen.toNat else 0
  | .tile => if s.tileV then 64 * s.tileCnt.toNat else 0
  | .pal => if s.palV then s.palCnt.toNat else 0
  | .nt => if s.ntV then s.ntCnt.toNat else 0
  | .fb => if s.fbV then 4 * (s.imgW.toNat * s.imgH.toNat) else 0

/-- Element `i` of a memory as its window shows it (R76): a byte, the entry `0x00RRGGBB`, the 16-bit word. -/
def State.memElem (s : State) (m : MemName) (i : Nat) : Word :=
  match m with
  | .src => (s.src.read i).setWidth 32
  | .lit => (s.lit.read i).setWidth 32
  | .out => (s.out.read i).setWidth 32
  | .tile => (s.tile.read i).setWidth 32
  | .pal => (s.pal.read i).setWidth 32
  | .nt => (s.nt.read i).setWidth 32
  | .fb => (s.fb.read i).setWidth 32

/-- The unspecified value a HOST read returns: any value (U2, U5). -/
def State.freeRead (s : State) : Word := Config.freeReg s.freeCtr

/-- `STATUS` read while BUSY (R274): `BUSY` = 1, `FAULT` = 0 since the two are never both 1 (R45), the bits R25 does not
list 0 (U6), the others unspecified. -/
def State.busyStatus (s : State) : Word := (s.freeRead &&& 0x00003F0C#32) ||| 1#32

/-- The value of a HOST read (R36, R76, R274). -/
def State.hostReadValue (s : State) (a : Word) : Word :=
  match s.st, resolve s.cfg a with
  | .busy, some (.reg 0x04) => s.busyStatus
  | .busy, _ => s.freeRead
  | _, some (.reg o) => s.readReg o
  | _, some (.elem m i) => if i < s.validExtent m then s.memElem m i else s.freeRead
  | _, none => s.freeRead

/-- A HOST read: the value goes to the HOST, and there is no other effect (R77). -/
def State.hostRead (s : State) (a : Word) : State :=
  { s with rdata := s.hostReadValue a, freeCtr := s.freeCtr + 1 }

/-- A HOST write other than to `CMD`, to what its address names (R36, R76, R77): `SRC_LEN`, `BITPOS` and SRC are written;
everything else is read-only or reserved and ignores it, and an address that names nothing has nothing to write
(log entry 7). -/
def State.hostWrite (s : State) (t : Option Target) (d : Word) : State :=
  match t with
  | some (.reg 0x10) => { s with srcLen := d }
  | some (.reg 0x14) => { s with bitPos := d }
  | some (.elem .src i) => { s with src := s.src.write i (d.setWidth 8) }
  | _ => s

/-- A HOST action other than a `CMD` write. While `ST` = BUSY a write stops the model (R274, U5); a reset does not wait
(R270). -/
def hostAct (op : HostOp) (s : State) : Host.Outcome State Fault Refusal :=
  match op with
  | .reset => .next s.resetNow
  | .read a => .next (s.hostRead a)
  | .write a d =>
    match s.st with
    | .busy => .refused .hostTouchedBusy
    | _ => .next (s.hostWrite (resolve s.cfg a) d)

end Sys2Proof.Machine
end

