-- ==== Sys2Proof/Machine/Tokens.lean ====
section
/-! DEFINITION. The meanings of the stream tokens (`41_decompressor.md` R141 to R148, `40_bitstream_reader.md` R126) and of
the data words (R188, R192, R202): what the ENGINE does with one once it is read. Each starts with `BITPOS` just after the
token's bits. The machine issues one only where the grammar has it (`Machine/Fetch.lean`); the meaning itself is the
rule's pseudocode on any state (log entry 9). -/

namespace Sys2Proof.Machine

open Sys2Proof

/-- A `DECOMP` ends ok (R152): `LIT_V <- 1`, `OUT_V <- 1`. -/
def decompDone (s : State) : State := { s.endOk with litV := true, outV := true }

/-- `CorruptStream(info)` inside a `DECOMP` (R150, R250): `LIT_V` = `OUT_V` = 0, and LIT, OUT, `BITPOS`, `LIT_LEN`,
`DATA_POS`, `OUT_LEN`, `DECOMP_POS` and bit 0 of `NEXT_CMD` are unspecified (U3, U6). -/
def decompFault (info : Info) (s : State) : State :=
  { raise .corruptStream info 0x10#8 s with
    litV := false
    outV := false
    lit := Memory.unspecified s.freeCtr
    out := Memory.unspecified (s.freeCtr + 1)
    bitPos := Config.freeReg (s.freeCtr + 2)
    litLen := Config.freeReg (s.freeCtr + 3)
    dataPos := Config.freeReg (s.freeCtr + 4)
    outLen := Config.freeReg (s.freeCtr + 5)
    decompPos := Config.freeReg (s.freeCtr + 6)
    nextCmd := Config.freeReg (s.freeCtr + 7) &&& 1#32
    freeCtr := s.freeCtr + 8 }

/-- After a step's copy: the command ends ok when the output is complete, else `next` is due (R143, R144). -/
def afterCopy (next : Phase) (s : State) : State :=
  if s.decompPos = s.outLen then decompDone s else { s with phase := next }

/-- `BLOCKHDR`: the framing of R141 once U and V are read, and the initial loop state of R142. -/
def headerStep (u v : BitVec 16) (s : State) : State :=
  if v.toNat < hdrSelf then decompFault .badHeader s
  else
    match s.readBytes (v.toNat - hdrSelf) with
    | .error _ => decompFault .underrun s
    | .ok bytes =>
      { s.advance (8 * (v.toNat - hdrSelf)) with
        lit := Memory.ofList s.freeCtr bytes
        litLen := BitVec.ofNat 32 (v.toNat - hdrSelf)
        outLen := u.setWidth 32
        decompPos := 0#32
        dataPos := 0#32
        nextCmd := 0#32
        phase := .lit
        freeCtr := s.freeCtr + 1 }

/-- `LIT` (R143): the varint within `VARINT_W` (U8), the clamp, the overrun test on the clamped amount, the copy, both cursors. -/
def litStep (n : Nat) (s : State) : State :=
  let amount := min (s.cfg.saturated n) (s.outLen.toNat - s.decompPos.toNat)
  if s.litLen.toNat < s.dataPos.toNat + amount then decompFault .literalOverrun s
  else
    afterCopy .ref
      { s with
        out := copyAcross s.lit amount s.dataPos.toNat s.decompPos.toNat s.out
        decompPos := s.decompPos + BitVec.ofNat 32 amount
        dataPos := s.dataPos + BitVec.ofNat 32 amount }

/-- `REF` (R144, R146, R147): the varint within `VARINT_W` (U8), the validity test, the byte-by-byte copy, the cursor. -/
def refStep (source m : Nat) (s : State) : State :=
  let amount := min (s.cfg.saturated m + refBias) (s.outLen.toNat - s.decompPos.toNat)
  if s.decompPos.toNat ≤ source then decompFault .backrefUnwritten s
  else
    afterCopy .cmdbit
      { s with
        out := copyWithin amount source s.decompPos.toNat s.out
        decompPos := s.decompPos + BitVec.ofNat 32 amount }

/-- `CMDBIT` (R148): `LIT_BIT` selects a literal step, the other value a back-reference step. -/
def cmdbitStep (c : Bool) (s : State) : State :=
  if c = s.cfg.litBit then { s with nextCmd := 0#32, phase := .lit }
  else { s with nextCmd := 1#32, phase := .ref }

/-- `BITPOS` as the `RDVARINT` in progress found it (U4). -/
def State.varintStart (s : State) : Nat :=
  match s.phase with
  | .varint start => start.toNat
  | _ => s.bitPos.toNat

/-- The varint of `RDVARINT` (R126): `RESULT <- v`, or, from 2^32 on, `IllegalCommand(RESULT_RANGE)` with `RESULT` unchanged and
`BITPOS` anywhere from its value before the command to `8·SRC_LEN` (U4). -/
def varintStep (v : Nat) (s : State) : State :=
  if v < 2 ^ 32 then { s.endOk with result := BitVec.ofNat 32 v }
  else
    { raise .illegalCommand .resultRange 0x03#8 s with
      bitPos := BitVec.ofNat 32
        (s.varintStart + (Config.freeReg s.freeCtr).toNat % (s.srcBits - s.varintStart + 1))
      freeCtr := s.freeCtr + 1 }

/-- `RDVARINT` with its varint read: the model refuses a value too wide for the instance's accumulator (R11, U8). -/
def varintOutcome (v : Nat) (s : State) : Host.Outcome State Fault Refusal :=
  if s.cfg.varintTooWide v then .refused .varintTooWide else .next (varintStep v s)

/-- A colour word of `PALLOAD` (R188, R192): the next PAL entry. -/
def colourStep (b g r : BitVec 5) (s : State) : State :=
  { s with pal := s.pal.write s.palCnt.toNat (convertFields b g r), palCnt := s.palCnt + 1#32 }

/-- An entry word of `NTPARSE` (R202): the next NT element, kept as the word. -/
def entryStep (w : BitVec 16) (s : State) : State :=
  { s with nt := s.nt.write s.ntCnt.toNat w, ntCnt := s.ntCnt + 1#32 }

/-! ## The arms -/

/-- `LIT` (R143). -/
def execLit (n : Nat) (s : State) : Host.Outcome State Fault Refusal := .next (litStep n s)

/-- `REF` (R144). -/
def execRef (source m : Nat) (s : State) : Host.Outcome State Fault Refusal := .next (refStep source m s)

/-- `CMDBIT` (R148). -/
def execCmdbit (c : Bool) (s : State) : Host.Outcome State Fault Refusal := .next (cmdbitStep c s)

/-- `VARINT` (R123, R126). -/
def execVarint (v : Nat) (s : State) : Host.Outcome State Fault Refusal := varintOutcome v s

/-- `BLOCKHDR` (R141). -/
def execBlockhdr (u v : BitVec 16) (s : State) : Host.Outcome State Fault Refusal := .next (headerStep u v s)

/-- `COLORWORD` (R188): bit 15 is ignored (D21). -/
def execColorword (_x : Bool) (b g r : BitVec 5) (s : State) : Host.Outcome State Fault Refusal :=
  .next (colourStep b g r s)

/-- `NTWORD` (R200): every field is kept, the priority bit too (R203). -/
def execNtword (v h p : Bool) (sp : BitVec 3) (tile : BitVec 10) (s : State) : Host.Outcome State Fault Refusal :=
  .next (entryStep (entryWord v h p sp tile) s)

end Sys2Proof.Machine
end

