-- ==== Sys2Proof/Machine/Fetch.lean ====
section
/-! DEFINITION. What a step runs next: the command word the HOST writes to `CMD` (`10_state.md` R24), or, inside a command,
the token or data word that stands next (`30_encoding.md` R100, `41_decompressor.md` R149, R192, R202). -/

namespace Sys2Proof.Machine

open Sys2Proof

/-- What the ENGINE meets next inside a command. -/
inductive EngineNext where
  /-- An instruction, and the state with its bits read. -/
  | token (i : Instr) (s : State)
  /-- No instruction: the state that results. -/
  | settled (s : State)

/-- The token the grammar has next, read at `BITPOS` (R83: from SRC, at this moment). A fixed-width field that finds too
few bits is `CorruptStream(UNDERRUN)` (R141, R144, R148, R150). -/
def fetchToken (due : StreamDue) (s : State) : EngineNext :=
  match decodeToken due s.decompPos.toNat s.streamBit s.bitPos.toNat s.rem with
  | .ok (i, n) => .token i (s.advance n)
  | .error _ => .settled (decompFault .underrun s)

/-- `PALLOAD` ends (R192): `PAL_V <- 1`. -/
def palloadDone (s : State) : State := { s.endOk with palV := true }

/-- `NTPARSE` ends (R202): `NT_V <- 1`. -/
def ntparseDone (s : State) : State := { s.endOk with ntV := true }

/-- What comes next in the command in progress. A bulk decoder's input is taken in pairs; a last byte without a partner is
ignored (R71, R189, R201). -/
def engineFetch (s : State) : EngineNext :=
  match s.phase with
  | .none => .settled s
  | .header => fetchToken .header s
  | .lit => fetchToken .lit s
  | .ref => fetchToken .ref s
  | .cmdbit => fetchToken .cmdbit s
  | .varint _ => fetchToken .varint s
  | .colour sel =>
    if s.palCnt.toNat < s.inputLen sel / 2 then .token (decodeColour (s.inputWord sel s.palCnt.toNat)) s
    else .settled (palloadDone s)
  | .entry sel =>
    if s.ntCnt.toNat < s.inputLen sel / 2 then .token (decodeEntry (s.inputWord sel s.ntCnt.toNat)) s
    else .settled (ntparseDone s)

/-- What a step meets. -/
inductive Fetched where
  /-- The HOST writes a command word to `CMD`. -/
  | command (c : Word) (s : State)
  /-- Any other HOST action. -/
  | host (op : HostOp) (s : State)
  /-- The ENGINE meets an instruction inside a command. -/
  | token (i : Instr) (s : State)
  /-- Nothing to run: the state that results. -/
  | settled (s : State)

/-- `s` with its first HOST action taken. -/
def State.popHost (s : State) : State := { s with hostq := s.hostq.tail }

/-- The HOST's next action comes first; with none, the command in progress goes on, and between commands nothing happens
(R270). -/
def fetch (s : State) : Fetched :=
  match s.hostq with
  | .write a d :: _ => if resolve s.cfg a = some (.reg 0) then .command d s.popHost else .host (.write a d) s.popHost
  | op :: _ => .host op s.popHost
  | [] =>
    match s.st with
    | .busy =>
      match engineFetch s with
      | .token i s' => .token i s'
      | .settled s' => .settled s'
    | _ => .settled s

end Sys2Proof.Machine
end

