-- ==== Sys2Proof/Machine/Engine.lean ====
section
/-! DEFINITION. The ENGINE inside a command: token by token, until the command ends (`41_decompressor.md` R149,
`20_memory.md` R75: to the HOST the command is one step). -/

namespace Sys2Proof.Machine

open Sys2Proof

/-- What the ENGINE does with an instruction it meets inside a command. A command word is not met there. -/
def runToken (i : Instr) (s : State) : State :=
  match i with
  | .lit n => litStep n s
  | .ref source m => refStep source m s
  | .cmdbit c => cmdbitStep c s
  | .varint v => varintStep v s
  | .blockhdr u v => headerStep u v s
  | .colorword _ b g r => colourStep b g r s
  | .ntword v h p sp tile => entryStep (entryWord v h p sp tile) s
  | .nop | .rdbits _ | .rdbytes _ | .rdvarint | .decomp | .tiledec _ _ | .palload _ | .getcolor _ _ _ | .subpalcnt _
  | .ntparse _ | .compose _ _ | .clrerr | .sreset => s

/-- One token's work. -/
def engineStep (s : State) : State :=
  match engineFetch s with
  | .token i s' => runToken i s'
  | .settled s' => s'

/-- The command in progress goes on for at most `fuel` tokens, and stops when it has ended. -/
def engineRun : (fuel : Nat) → State → State
  | 0, s => s
  | fuel + 1, s =>
    match s.st with
    | .busy => engineRun fuel (engineStep s)
    | _ => s

end Sys2Proof.Machine
end

