-- ==== Sys2Proof/Machine/BitReader.lean ====
section
/-! DEFINITION. `40_bitstream_reader.md`: `RDBITS` (R124), `RDBYTES` (R125), `RDVARINT` (R126). -/

namespace Sys2Proof.Machine

open Sys2Proof

/-- The work of `RDBITS n` (R124): `RESULT` and `BITPOS`, or `StreamUnderrun(UNDERRUN)` with both unchanged. -/
def rdbitsWork (n : Nat) (s : State) : State :=
  match s.readBits n with
  | none => raise .streamUnderrun .underrun 0x01#8 s
  | some v => { (s.advance n).endOk with result := BitVec.ofNat 32 v }

/-- `RDBITS n` with the checks of R249. -/
def rdbits (n : BitVec 24) (s : State) : State :=
  if rdbitsMax < n.toNat then raise .illegalCommand .badParam 0x01#8 s
  else if s.srcInCapacity then rdbitsWork n.toNat s
  else raise .illegalCommand .capacity 0x01#8 s

/-- A failure of `RDBYTES` in its work (R125, R250): `LIT_V` is 0 and LIT unspecified (U3), `BITPOS` and `LIT_LEN` as
they were. -/
def rdbytesFault (k : FaultKind) (info : Info) (s : State) : State :=
  { raise k info 0x02#8 s with
    litV := false, lit := Memory.unspecified s.freeCtr, freeCtr := s.freeCtr + 1 }

/-- The work of `RDBYTES n` (R125): LIT takes the bytes; `MISALIGNED` comes before `UNDERRUN`. -/
def rdbytesWork (n : Nat) (s : State) : State :=
  match s.readBytes n with
  | .error .misaligned => rdbytesFault .illegalCommand .misaligned s
  | .error _ => rdbytesFault .streamUnderrun .underrun s
  | .ok bytes =>
    { (s.advance (8 * n)).endOk with
      lit := Memory.ofList s.freeCtr bytes
      litLen := BitVec.ofNat 32 n
      litV := true
      freeCtr := s.freeCtr + 1 }

/-- `RDBYTES n` with the checks of R249. -/
def rdbytes (n : BitVec 24) (s : State) : State :=
  if litCap < n.toNat then raise .illegalCommand .capacity 0x02#8 s
  else if s.srcInCapacity then rdbytesWork n.toNat s
  else raise .illegalCommand .capacity 0x02#8 s

/-- `RDVARINT` (R126): one varint from `BITPOS`. -/
def rdvarint (s : State) : Host.Outcome State Fault Refusal :=
  if s.srcInCapacity then
    varintOutcome s.readVarint.1 { s.advance s.readVarint.2 with phase := .varint s.bitPos }
  else .next (raise .illegalCommand .capacity 0x03#8 s)

/-- `RDBITS` (R124). -/
def execRdbits (n : BitVec 24) (s : State) : Host.Outcome State Fault Refusal := .next (issue (rdbits n) s)

/-- `RDBYTES` (R125). -/
def execRdbytes (n : BitVec 24) (s : State) : Host.Outcome State Fault Refusal := .next (issue (rdbytes n) s)

/-- `RDVARINT` (R126). -/
def execRdvarint (s : State) : Host.Outcome State Fault Refusal := issueOutcome rdvarint s

end Sys2Proof.Machine
end

