-- ==== Sys2Proof/Machine/Palette.lean ====
section
/-! DEFINITION. `43_palette.md`: `PALLOAD` (R192), `GETCOLOR` (R193), `SUBPALCNT` (R194), the lookup (R191). -/

namespace Sys2Proof.Machine

open Sys2Proof

/-- `PALLOAD` starts (R192): `PAL_V <- 0`; the table is filled from entry 0. -/
def palloadStart (sel : Sel) (s : State) : State :=
  { s with
    palV := false
    palCnt := 0#32
    pal := Memory.unspecified s.freeCtr
    phase := .colour sel
    freeCtr := s.freeCtr + 1 }

/-- `PALLOAD`'s work (R189, R192): one colour word after the other; it cannot fault. -/
def palloadWork (sel : Sel) (s : State) : State := engineRun (s.inputLen sel / 2 + 1) (palloadStart sel s)

/-- `PALLOAD sel` with the checks of R249. -/
def palload (sel : Sel) (s : State) : State :=
  withInput 0x30#8 sel (decide (s.inputLen sel / 2 ≤ s.cfg.palCap)) (palloadWork sel) s

/-- The index of `GetColor` (R191). -/
def paletteIndex (b : Bpp) (sp ci : Nat) : Nat := sp * b.subpalSize + ci

/-- `GetColor(sp, ci, bpp)` (R191): the entry, or none when the index is at or beyond `PAL_CNT`; it is never clamped. -/
def State.getColor (s : State) (b : Bpp) (sp ci : Nat) : Option (BitVec 24) :=
  if s.palCnt.toNat ≤ paletteIndex b sp ci then none else some (s.pal.read (paletteIndex b sp ci))

/-- `GETCOLOR sp, ci, bpp` with the checks of R249. -/
def getcolor (sp ci : BitVec 8) (bpp : BitVec 4) (s : State) : State :=
  match Bpp.ofField bpp with
  | none => raise .illegalCommand .badParam 0x31#8 s
  | some b =>
    if s.palV then
      match s.getColor b sp.toNat ci.toNat with
      | none => raise .indexOutOfRange .paletteIndex 0x31#8 s
      | some e => { s.endOk with result := e.setWidth 32 }
    else raise .illegalCommand .noInput 0x31#8 s

/-- `SUBPALCNT bpp` with the checks of R249. -/
def subpalcnt (bpp : BitVec 4) (s : State) : State :=
  match Bpp.ofField bpp with
  | none => raise .illegalCommand .badParam 0x32#8 s
  | some b =>
    if s.palV then { s.endOk with result := BitVec.ofNat 32 (s.palCnt.toNat / b.subpalSize) }
    else raise .illegalCommand .noInput 0x32#8 s

/-- `PALLOAD` (R192). -/
def execPalload (sel : Sel) (s : State) : Host.Outcome State Fault Refusal := .next (issue (palload sel) s)

/-- `GETCOLOR` (R193). -/
def execGetcolor (sp ci : BitVec 8) (bpp : BitVec 4) (s : State) : Host.Outcome State Fault Refusal :=
  .next (issue (getcolor sp ci bpp) s)

/-- `SUBPALCNT` (R194). -/
def execSubpalcnt (bpp : BitVec 4) (s : State) : Host.Outcome State Fault Refusal := .next (issue (subpalcnt bpp) s)

end Sys2Proof.Machine
end

