-- ==== Sys2Proof/Machine/Compositor.lean ====
section
/-! DEFINITION. `45_compositor.md`: the image (R210 to R219), `COMPOSE` (R220). -/

namespace Sys2Proof.Machine

open Sys2Proof

/-- `W` (R211). -/
def imageWidth (tw : Nat) : Nat := tileDim * tw

/-- `H` (R211): the padding rows are always added. -/
def imageHeight (tw count : Nat) : Nat := tileDim * ((count + tw - 1) / tw) + padRows

/-- Entry `k` of the nametable (R200). -/
def State.entry (s : State) (k : Nat) : NametableEntry := parseEntry (s.nt.read k)

/-- The colour index at column `x`, row `y` of an entry's cell, the flips applied (R215). -/
def State.cellIndex (s : State) (e : NametableEntry) (x y : Nat) : Byte :=
  let sx := if e.flipH then 7 - x else x
  let sy := if e.flipV then 7 - y else y
  s.tile.read (64 * e.tileIndex.toNat + 8 * sy + sx)

/-- The first lookup of an entry that fails (R214, R216, R217): the tile's, then any pixel's. -/
def State.entryFault (s : State) (b : Bpp) (e : NametableEntry) : Option Info :=
  if s.tileCnt.toNat ≤ e.tileIndex.toNat then some .tileIndex
  else if (List.range tilePixels).any fun j =>
      (s.getColor b e.subPaletteIndex.toNat (s.cellIndex e (j % 8) (j / 8)).toNat).isNone then some .paletteIndex
  else none

/-- The first lookup of the whole composition that fails, entries ascending (R217). -/
def State.composeFault (s : State) (b : Bpp) : Option Info :=
  (List.range s.ntCnt.toNat).findSome? fun k => s.entryFault b (s.entry k)

/-- The four bytes of the pixel at column `x`, row `y` of an entry's cell (R216, R107). -/
def State.cellPixel (s : State) (b : Bpp) (e : NametableEntry) (x y : Nat) : List Byte :=
  let ci := s.cellIndex e x y
  let colour := s.pal.read (paletteIndex b e.subPaletteIndex.toNat ci.toNat)
  [red colour, green colour, blue colour, if ci = 0#8 then alphaClear else alphaOpaque]

/-- A pixel no entry writes (R212). -/
def fillPixel : List Byte := [fillByte, fillByte, fillByte, fillByte]

/-- The pixel at column `x`, row `y` of the image: the cell `(x div 8, y div 8)` is entry
`(y div 8)·tiles_wide + x div 8`'s, if there is one (R213). Each cell is one entry's, so the order of the entries does
not show. -/
def State.imagePixel (s : State) (b : Bpp) (tw x y : Nat) : List Byte :=
  let k := y / 8 * tw + x / 8
  if k < s.ntCnt.toNat then s.cellPixel b (s.entry k) (x % 8) (y % 8) else fillPixel

/-- The image in the order of R66: rows top to bottom, pixels left to right, four bytes a pixel. -/
def State.image (s : State) (b : Bpp) (tw : Nat) : List Byte :=
  (List.range (imageWidth tw * imageHeight tw s.ntCnt.toNat)).flatMap fun p =>
    s.imagePixel b tw (p % imageWidth tw) (p / imageWidth tw)

/-- `COMPOSE`'s work (R217, R220). A failing lookup leaves `FB_V` 0 and FB, `IMG_W`, `IMG_H` unspecified (U3). -/
def composeWork (tw : Nat) (b : Bpp) (s : State) : State :=
  match s.composeFault b with
  | some info =>
    { raise .indexOutOfRange info 0x50#8 s with
      fbV := false
      fb := Memory.unspecified s.freeCtr
      imgW := Config.freeReg (s.freeCtr + 1)
      imgH := Config.freeReg (s.freeCtr + 2)
      freeCtr := s.freeCtr + 3 }
  | none =>
    { s.endOk with
      fb := Memory.ofList s.freeCtr (s.image b tw)
      imgW := BitVec.ofNat 32 (imageWidth tw)
      imgH := BitVec.ofNat 32 (imageHeight tw s.ntCnt.toNat)
      fbV := true
      freeCtr := s.freeCtr + 1 }

/-- `COMPOSE tw, bpp` with the checks of R249. -/
def compose (tw : BitVec 16) (bpp : BitVec 4) (s : State) : State :=
  if tw = 0#16 then raise .illegalCommand .badParam 0x50#8 s
  else
    match Bpp.ofField bpp with
    | none => raise .illegalCommand .badParam 0x50#8 s
    | some b =>
      if s.ntV && s.tileV && s.palV then
        if 4 * (imageWidth tw.toNat * imageHeight tw.toNat s.ntCnt.toNat) ≤ s.cfg.fbCap then composeWork tw.toNat b s
        else raise .illegalCommand .capacity 0x50#8 s
      else raise .illegalCommand .noInput 0x50#8 s

/-- `COMPOSE` (R220). -/
def execCompose (tw : BitVec 16) (bpp : BitVec 4) (s : State) : Host.Outcome State Fault Refusal :=
  .next (issue (compose tw bpp) s)

end Sys2Proof.Machine
end

