-- ==== Sys2Proof/Machine/Decompressor.lean ====
section
/-! DEFINITION. `41_decompressor.md`: `DECOMP` (R152). Its tokens' meanings are in `Machine/Tokens.lean`. -/

namespace Sys2Proof.Machine

open Sys2Proof

/-- More tokens than any block has: a header, at most 65535 steps (R151 (a), R280), and a command bit after a step. -/
def decompFuel : Nat := 2 * 65535 + 4

/-- `DECOMP` starts (R141, R152): both valid bits cleared, the cursor at the header, no byte of OUT written. -/
def decompStart (s : State) : State :=
  { s with
    litV := false
    outV := false
    bitPos := 0#32
    out := Memory.unspecified s.freeCtr
    phase := .header
    freeCtr := s.freeCtr + 1 }

/-- `DECOMP` (R152). -/
def decomp (s : State) : State :=
  if s.srcInCapacity then engineRun decompFuel (decompStart s)
  else raise .illegalCommand .capacity 0x10#8 s

/-- `DECOMP` (R152). -/
def execDecomp (s : State) : Host.Outcome State Fault Refusal := .next (issue decomp s)

end Sys2Proof.Machine
end

