-- ==== Sys2Proof/Machine/Nametable.lean ====
section
/-! DEFINITION. `44_nametable.md`: `NTPARSE` (R202). -/

namespace Sys2Proof.Machine

open Sys2Proof

/-- `NTPARSE` starts (R202): `NT_V <- 0`; the entries are kept from element 0 on. -/
def ntparseStart (sel : Sel) (s : State) : State :=
  { s with
    ntV := false
    ntCnt := 0#32
    nt := Memory.unspecified s.freeCtr
    phase := .entry sel
    freeCtr := s.freeCtr + 1 }

/-- `NTPARSE`'s work (R201, R202): one entry word after the other; it cannot fault. -/
def ntparseWork (sel : Sel) (s : State) : State := engineRun (s.inputLen sel / 2 + 1) (ntparseStart sel s)

/-- `NTPARSE sel` with the checks of R249. -/
def ntparse (sel : Sel) (s : State) : State :=
  withInput 0x40#8 sel (decide (s.inputLen sel / 2 ≤ s.cfg.ntCap)) (ntparseWork sel) s

/-- `NTPARSE` (R202). -/
def execNtparse (sel : Sel) (s : State) : Host.Outcome State Fault Refusal := .next (issue (ntparse sel) s)

end Sys2Proof.Machine
end

