-- ==== Sys2Proof/Machine/System.lean ====
section
/-! DEFINITION. `46_system.md`: `NOP` (R230), `CLRERR` (R231), `SRESET` (R232). -/

namespace Sys2Proof.Machine

open Sys2Proof

/-- `NOP` (R230): it ends ok and does nothing else. -/
def execNop (s : State) : Host.Outcome State Fault Refusal := .next (issue State.endOk s)

/-- `CLRERR` (R231): the return from a fault; in IDLE it only sets `DONE`. -/
def execClrerr (s : State) : Host.Outcome State Fault Refusal := .next (issueAlways State.clearFault s)

/-- `SRESET` (R232): the reset state. -/
def execSreset (s : State) : Host.Outcome State Fault Refusal := .next (issueAlways State.resetNow s)

end Sys2Proof.Machine
end

