-- ==== Sys2Proof/Machine/TileDecoder.lean ====
section
/-! DEFINITION. `42_tile_decoder.md`: one tile (R170 to R174), a stream of tiles (R175, R176), `TILEDEC` (R177). -/

namespace Sys2Proof.Machine

open Sys2Proof

/-- Where the byte of plane `p`, row `r` stands in a block (R171, D18). -/
def planeOffset (p r : Nat) : Nat := planeChunk * (p / 2) + 2 * r + p % 2

/-- The bit of plane `p` at row `r`, column `x` (R172): bit `7 − x` of the plane's byte. -/
def planeBit (block : Nat → Byte) (p r x : Nat) : Bool := (block (planeOffset p r)).getLsbD (7 - x)

/-- The sum of `plane_bit_p << p` over the planes below `n` (R172). -/
def pixelOfPlanes (block : Nat → Byte) (r x : Nat) : Nat → Byte
  | 0 => 0#8
  | p + 1 => pixelOfPlanes block r x p ||| ((if planeBit block p r x then 1#8 else 0#8) <<< p)

/-- `DecodeTile(block, bpp)` (R172): 64 indices, row-major (R173). -/
def decodeTile (b : Bpp) (block : Nat → Byte) : List Byte :=
  (List.range tilePixels).map fun j => pixelOfPlanes block (j / tileDim) (j % tileDim) b.bits

/-- The tiles of a buffer, block `t` from byte `B·t` (R175), one after the other. -/
def decodeTiles (b : Bpp) (buf : Nat → Byte) (count : Nat) : List Byte :=
  (List.range count).flatMap fun t => decodeTile b fun j => buf (b.tileBytes * t + j)

/-- `TILEDEC`'s work (R177): a short last block is `StreamUnderrun(PARTIAL_TILE)` and delivers nothing (R176); TILE,
`TILE_CNT` and `TILE_BPP` are then unspecified (U3). -/
def tiledecWork (b : Bpp) (sel : Sel) (s : State) : State :=
  if s.inputLen sel % b.tileBytes ≠ 0 then
    { raise .streamUnderrun .partialTile 0x20#8 s with
      tileV := false
      tile := Memory.unspecified s.freeCtr
      tileCnt := Config.freeReg (s.freeCtr + 1)
      tileBpp := Config.freeReg (s.freeCtr + 2)
      freeCtr := s.freeCtr + 3 }
  else
    { s.endOk with
      tile := Memory.ofList s.freeCtr (decodeTiles b (s.inputByte sel) (s.inputLen sel / b.tileBytes))
      tileCnt := BitVec.ofNat 32 (s.inputLen sel / b.tileBytes)
      tileBpp := BitVec.ofNat 32 b.bits
      tileV := true
      freeCtr := s.freeCtr + 1 }

/-- `TILEDEC sel, bpp` with the checks of R249. -/
def tiledec (sel : Sel) (bpp : BitVec 4) (s : State) : State :=
  match Bpp.ofField bpp with
  | none => raise .illegalCommand .badParam 0x20#8 s
  | some b =>
    withInput 0x20#8 sel (decide (s.inputLen sel / b.tileBytes ≤ s.cfg.tileCap)) (tiledecWork b sel) s

/-- `TILEDEC` (R177). -/
def execTiledec (sel : Sel) (bpp : BitVec 4) (s : State) : Host.Outcome State Fault Refusal :=
  .next (issue (tiledec sel bpp) s)

end Sys2Proof.Machine
end

