-- ==== Sys2Proof/Machine/Dispatch.lean ====
section
/-! DEFINITION. One arm per instruction. -/

namespace Sys2Proof.Machine

open Sys2Proof

def exec (i : Instr) (s : State) : Host.Outcome State Fault Refusal :=
  match i with
  -- host commands (30_encoding.md R93)
  | .nop => Sys2Proof.Machine.execNop s
  | .rdbits n => Sys2Proof.Machine.execRdbits n s
  | .rdbytes n => Sys2Proof.Machine.execRdbytes n s
  | .rdvarint => Sys2Proof.Machine.execRdvarint s
  | .decomp => Sys2Proof.Machine.execDecomp s
  | .tiledec sel bpp => Sys2Proof.Machine.execTiledec sel bpp s
  | .palload sel => Sys2Proof.Machine.execPalload sel s
  | .getcolor sp ci bpp => Sys2Proof.Machine.execGetcolor sp ci bpp s
  | .subpalcnt bpp => Sys2Proof.Machine.execSubpalcnt bpp s
  | .ntparse sel => Sys2Proof.Machine.execNtparse sel s
  | .compose tw bpp => Sys2Proof.Machine.execCompose tw bpp s
  | .clrerr => Sys2Proof.Machine.execClrerr s
  | .sreset => Sys2Proof.Machine.execSreset s
  -- stream tokens and data words (R99, R148, R123, R141, R188, R200)
  | .lit n => Sys2Proof.Machine.execLit n s
  | .ref source m => Sys2Proof.Machine.execRef source m s
  | .cmdbit c => Sys2Proof.Machine.execCmdbit c s
  | .varint v => Sys2Proof.Machine.execVarint v s
  | .blockhdr u v => Sys2Proof.Machine.execBlockhdr u v s
  | .colorword x b g r => Sys2Proof.Machine.execColorword x b g r s
  | .ntword v h p sp tile => Sys2Proof.Machine.execNtword v h p sp tile s

end Sys2Proof.Machine
end

