-- ==== Sys2Proof/Machine/Step.lean ====
section
/-! DEFINITION. One step: what is met next (`Machine/Fetch.lean`), decoded and run. A command is one step from IDLE to
IDLE or to FAULT (`10_state.md` R45). -/

namespace Sys2Proof.Machine

open Sys2Proof

/-- One step. -/
def step (s : State) : Host.Outcome State Fault Refusal :=
  match fetch s with
  | .command c s' =>
    match decodeCommand c with
    | .ok i => exec i s'
    | .error e => .next (rejectCommand e c s')
  | .host op s' => hostAct op s'
  | .token i s' => exec i s'
  | .settled s' => .next s'

/-- `s` with the instruction whose bits are `w` where the next step meets it: 32 bits are a command word that the HOST
writes to `CMD`; 8 bits are a command bit (bit 0) standing last in a one-byte SRC, a `DECOMP` having come to it; 16 bits
are the one word of SRC, an `NTPARSE` having come to it (log entry 14). -/
def State.withFetchWord (s : State) (nbits w : Nat) : State :=
  match nbits with
  | 16 =>
    { s with
      st := .busy
      phase := .entry .src
      hostq := []
      srcLen := 2#32
      ntCnt := 0#32
      src := (s.src.write 0 (BitVec.ofNat 8 w)).write 1 (BitVec.ofNat 8 (w / 256)) }
  | 8 =>
    { s with
      st := .busy
      phase := .cmdbit
      hostq := []
      srcLen := 1#32
      bitPos := 7#32
      src := s.src.write 0 (BitVec.ofNat 8 w) }
  | _ => { s with hostq := .write s.cfg.regBase (BitVec.ofNat 32 w) :: s.hostq }

end Sys2Proof.Machine
end

