-- ==== Sys2Proof/Machine/Assembler.lean ====
section
/-! DEFINITION. The notations of `30_encoding.md` section 5: the host-level syntax and its directives (R108), the
pseudo-instructions (R109), and the block assembler (R110), which is a test tool and no part of the machine: no
definition of the step uses this file. Statements use it to say what a block stands for. -/

namespace Sys2Proof.Machine

open Sys2Proof

/-! ## Host-level syntax -/

/-- `buf` (R108). -/
def Sel.text : Sel → String
  | .src => "SRC"
  | .out => "OUT"

/-- The statement of a host command (R108), and the step of a stream program (R110: a `REF` is written with its length,
`m + REF_BIAS`). The spec gives the other rows no syntax. -/
def Instr.text : Instr → Option String
  | .nop => some "NOP"
  | .rdbits n => some ("RDBITS " ++ toString n.toNat)
  | .rdbytes n => some ("RDBYTES " ++ toString n.toNat)
  | .rdvarint => some "RDVARINT"
  | .decomp => some "DECOMP"
  | .tiledec sel bpp => some ("TILEDEC " ++ Sel.text sel ++ ", " ++ toString bpp.toNat)
  | .palload sel => some ("PALLOAD " ++ Sel.text sel)
  | .getcolor sp ci bpp =>
    some ("GETCOLOR " ++ toString sp.toNat ++ ", " ++ toString ci.toNat ++ ", " ++ toString bpp.toNat)
  | .subpalcnt bpp => some ("SUBPALCNT " ++ toString bpp.toNat)
  | .ntparse sel => some ("NTPARSE " ++ Sel.text sel)
  | .compose tw bpp => some ("COMPOSE " ++ toString tw.toNat ++ ", " ++ toString bpp.toNat)
  | .clrerr => some "CLRERR"
  | .sreset => some "SRESET"
  | .lit n => some ("LIT " ++ toString n)
  | .ref source m => some ("REF " ++ toString source ++ ", " ++ toString (m + refBias))
  | .cmdbit _ => none
  | .varint _ => none
  | .blockhdr _ _ => none
  | .colorword _ _ _ _ => none
  | .ntword _ _ _ _ _ => none

/-- The pseudo-instructions (R109). -/
inductive Pseudo where
  | rdbit
  | rdu8
  | rdu16
  | rdu32
  | align
deriving DecidableEq, Repr

/-- The command a pseudo-instruction expands to; `ALIGN` takes the `BITPOS` that the HOST reads (R109). -/
def Pseudo.expand (bitPos : Nat) : Pseudo → Instr
  | .rdbit => .rdbits 1#24
  | .rdu8 => .rdbits 8#24
  | .rdu16 => .rdbits 16#24
  | .rdu32 => .rdbits 32#24
  | .align => .rdbits (BitVec.ofNat 24 ((8 - bitPos % 8) % 8))

/-- The HOST writes a register (R36). -/
def writeReg (c : Config) (offset : Nat) (v : Word) : HostOp := .write (c.regBase + BitVec.ofNat 32 offset) v

/-- The HOST writes a command word to `CMD` (R24). -/
def writeCmd (c : Config) (w : Word) : HostOp := writeReg c 0 w

/-- The writes of the bytes `l` to `SRC[i …]` (R76). -/
def writeSrc (c : Config) : Nat → List Byte → List HostOp
  | _, [] => []
  | i, b :: t => .write (c.srcBase + BitVec.ofNat 32 i) (b.setWidth 32) :: writeSrc c (i + 1) t

/-- `LOAD b0 b1 …` (R108): the bytes to SRC, their number to `SRC_LEN`, 0 to `BITPOS`. -/
def loadDirective (c : Config) (l : List Byte) : List HostOp :=
  writeSrc c 0 l ++ [writeReg c 0x10 (BitVec.ofNat 32 l.length), writeReg c 0x14 0#32]

/-- `SETPOS v` (R108). -/
def setposDirective (c : Config) (v : Word) : List HostOp := [writeReg c 0x14 v]

/-! ## Stream-level syntax -/

/-- A step of a stream program (R110): `LIT n`, or `REF s, m` with `m` the length. -/
inductive BlockStep where
  | lit (n : Nat)
  | ref (source m : Nat)
deriving DecidableEq, Repr

/-- Where a step stands (R100, R110). -/
inductive StepPlace where
  | first
  | afterLit
  | afterRef
deriving DecidableEq, Repr

/-- The command bit before a step: only after a `REF` (R110). -/
def commandBits (place : StepPlace) (b : Bool) : List Bool :=
  match place with
  | .afterRef => [b]
  | _ => []

/-- The stream bits of the steps from output position `dp` on (R110). -/
def assembleSteps (litBit : Bool) (u : Nat) : StepPlace → Nat → List BlockStep → List Bool
  | _, _, [] => []
  | place, dp, .lit n :: t =>
    commandBits place litBit ++ encodeVarint n ++ assembleSteps litBit u .afterLit (dp + min n (u - dp)) t
  | place, dp, .ref source m :: t =>
    commandBits place (!litBit) ++ encodeField source (bitlen dp) ++ encodeVarint (m - refBias)
      ++ assembleSteps litBit u .afterRef (dp + min m (u - dp)) t

/-- Bits packed into bytes, the first bit most significant, the last byte padded with 0 (R110). -/
def packBits (l : List Bool) : List Byte :=
  (List.range ((l.length + 7) / 8)).map fun i => BitVec.ofNat 8 (bitsValue (fun k => l.getD k false) (8 * i) 8)

/-- The block of a stream program (R110): header, DATA bytes, packed bits. -/
def assembleBlock (litBit : Bool) (u : Nat) (data : List Byte) (steps : List BlockStep) : List Byte :=
  [BitVec.ofNat 8 (u / 256), BitVec.ofNat 8 u,
    BitVec.ofNat 8 ((data.length + hdrSelf) / 256), BitVec.ofNat 8 (data.length + hdrSelf)]
    ++ data ++ packBits (assembleSteps litBit u .first 0 steps)

/-- What R110 and R100 ask of a stream program whose output so far is `dp` bytes and has used `dataPos` payload bytes:
the steps alternate as the grammar says, each can be encoded, none asks for what is not there, and the last one (and no
earlier one) completes the output. -/
def stepsValid (u dataLen : Nat) : StepPlace → (dp dataPos : Nat) → List BlockStep → Bool
  | place, dp, _, [] => place != .first && dp == u
  | place, dp, dataPos, .lit n :: t =>
    place != .afterLit && decide (1 ≤ n) && (place == .first || decide (dp < u))
      && decide (dataPos + min n (u - dp) ≤ dataLen)
      && stepsValid u dataLen .afterLit (dp + min n (u - dp)) (dataPos + min n (u - dp)) t
  | place, dp, dataPos, .ref source m :: t =>
    place != .first && decide (refBias + 1 ≤ m) && decide (source < dp) && decide (dp < u)
      && stepsValid u dataLen .afterRef (dp + min m (u - dp)) dataPos t

/-- The payload bytes the steps consume from output position `dp` on (R143, R149: `DATA_POS` at the end). -/
def literalBytes (u : Nat) : (dp : Nat) → List BlockStep → Nat
  | _, [] => 0
  | dp, .lit n :: t => min n (u - dp) + literalBytes u (dp + min n (u - dp)) t
  | dp, .ref _ m :: t => literalBytes u (dp + min m (u - dp)) t

/-- `NEXT_CMD` after the steps, `cmd` before them (R142, R148): what the last command bit selected. -/
def lastCommand : (place : StepPlace) → (cmd : Word) → List BlockStep → Word
  | _, cmd, [] => cmd
  | place, cmd, .lit _ :: t => lastCommand .afterLit (if place = .afterRef then 0#32 else cmd) t
  | place, cmd, .ref _ _ :: t => lastCommand .afterRef (if place = .afterRef then 1#32 else cmd) t

/-- A list lengthened by `n` bytes, each the one at the next index from `source` on (R146). -/
def extendFrom : (n source : Nat) → List Byte → List Byte
  | 0, _, out => out
  | n + 1, source, out => extendFrom n (source + 1) (out ++ [out.getD source 0#8])

/-- The output a stream program stands for: a literal step appends payload bytes, a back-reference step bytes of the
output (R143, R144). -/
def expandSteps (u : Nat) (data : List Byte) : (dataPos : Nat) → (out : List Byte) → List BlockStep → List Byte
  | _, out, [] => out
  | dataPos, out, .lit n :: t =>
    expandSteps u data (dataPos + min n (u - out.length))
      (out ++ (data.drop dataPos).take (min n (u - out.length))) t
  | dataPos, out, .ref source m :: t =>
    expandSteps u data dataPos (extendFrom (min m (u - out.length)) source out) t

end Sys2Proof.Machine
end

