-- ==== Sys2Proof/Safety.lean ====
section
/-! DEFINITION. What counts as a good state, and the terms the statements use: the canonical form of the memories, the
consistency of the control state (`10_state.md` R25, R26, R31, R45), the valid extents (R37 to R44), which instruction
may write a result memory (R44), and where a code stands in a bitstream. -/

namespace Sys2Proof.Machine

open Sys2Proof

/-- Every memory is in canonical form. -/
def State.MemoriesWf (s : State) : Prop :=
  s.src.wf ∧ s.lit.wf ∧ s.out.wf ∧ s.tile.wf ∧ s.pal.wf ∧ s.nt.wf ∧ s.fb.wf

/-- The control state is one the spec allows: the latch, `DONE`, `ERR` and `NEXT_CMD` agree with `ST`. -/
structure State.Consistent (s : State) : Prop where
  /-- `STATUS.FAULT` and `ERR.CODE ≠ 0` go together (R25). -/
  latched : s.st = .fault ↔ s.errCode ≠ 0#4
  /-- `ERR` is 0 while no fault is latched (R26, R252). -/
  errClear : s.st ≠ .fault → s.err = 0#32
  /-- `ERR` bits 7..4 and 31..24 read 0 (R26, U6). -/
  errReserved : s.err &&& 0xFF0000F0#32 = 0#32
  /-- `ERR.CODE` is 0, 1, 2, 4 or 5: codes 6 to 15 never appear (R241), nor does `LengthMismatch` (R244). -/
  errKnown : s.errCode = 0#4 ∨ s.errCode = 1#4 ∨ s.errCode = 2#4 ∨ s.errCode = 4#4 ∨ s.errCode = 5#4
  /-- `DONE` is set by a command ending ok and cleared by a fault's acceptance (R25). -/
  doneIdle : s.done = true → s.st = .idle
  /-- `NEXT_CMD` bits 31..1 read 0 (R31, U6; after a faulted `DECOMP` by inference from U6, log entry 4). -/
  nextCmdBit : s.nextCmd &&& 0xFFFFFFFE#32 = 0#32
  /-- The model's own: a command is in progress exactly while `ST` = BUSY (R45, log entry 9). -/
  phaseBusy : s.phase ≠ .none ↔ s.st = .busy

/-- Every architectural piece of state has its reset value (R49): IDLE, each stored register of R36 is 0, no valid bit,
no element of any memory specified. -/
def State.IsReset (s : State) : Prop :=
  s.st = .idle ∧ s.done = false
    ∧ (s.litV = false ∧ s.outV = false ∧ s.tileV = false ∧ s.palV = false ∧ s.ntV = false ∧ s.fbV = false)
    ∧ (s.err = 0#32 ∧ s.result = 0#32 ∧ s.srcLen = 0#32 ∧ s.bitPos = 0#32 ∧ s.litLen = 0#32 ∧ s.dataPos = 0#32
      ∧ s.outLen = 0#32 ∧ s.decompPos = 0#32 ∧ s.nextCmd = 0#32 ∧ s.tileCnt = 0#32 ∧ s.tileBpp = 0#32
      ∧ s.palCnt = 0#32 ∧ s.ntCnt = 0#32 ∧ s.imgW = 0#32 ∧ s.imgH = 0#32)
    ∧ (∀ a, s.src.lookup a = none ∧ s.lit.lookup a = none ∧ s.out.lookup a = none ∧ s.tile.lookup a = none
      ∧ s.pal.lookup a = none ∧ s.nt.lookup a = none ∧ s.fb.lookup a = none)

/-- A phase of `DECOMP` after the framing. -/
def Phase.inBlock : Phase → Bool
  | .lit | .ref | .cmdbit => true
  | _ => false

/-- Every element a command may read of a result memory has been written: valid memories are specified over their whole
valid extent (R38 to R43), and so is what a command in progress has produced (R39, R151). -/
structure State.ExtentsWritten (s : State) : Prop where
  lit : s.litV = true → s.lit.Covers s.litLen.toNat ∧ s.litLen.toNat ≤ litCap
  out : s.outV = true → s.out.Covers s.outLen.toNat ∧ s.outLen.toNat ≤ outCap ∧ s.decompPos = s.outLen
  tile : s.tileV = true → s.tile.Covers (64 * s.tileCnt.toNat)
  pal : s.palV = true → s.pal.Covers s.palCnt.toNat
  nt : s.ntV = true → s.nt.Covers s.ntCnt.toNat
  fb : s.fbV = true → s.fb.Covers (4 * (s.imgW.toNat * s.imgH.toNat))
  /-- During a `DECOMP` neither destination is valid (R152). -/
  decompInvalid : s.phase = .header ∨ s.phase.inBlock = true → s.litV = false ∧ s.outV = false
  /-- During a `DECOMP` the written extent of OUT is `[0, DECOMP_POS)` (R39). -/
  inBlock : s.phase.inBlock = true →
    s.lit.Covers s.litLen.toNat ∧ s.litLen.toNat ≤ litCap ∧ s.outLen.toNat ≤ outCap
      ∧ s.out.Covers s.decompPos.toNat ∧ s.decompPos.toNat ≤ s.outLen.toNat
  inPalette : ∀ sel, s.phase = .colour sel → s.palV = false ∧ s.pal.Covers s.palCnt.toNat
  inNametable : ∀ sel, s.phase = .entry sel → s.ntV = false ∧ s.nt.Covers s.ntCnt.toNat

/-- The instructions that may write a memory, its count registers or its valid bit (R44): the producing command, its
tokens and data words, and `SRESET`. -/
def mayWrite : MemName → Instr → Bool
  | .src, i => i == .sreset
  | .lit, i =>
    match i with
    | .rdbytes _ | .decomp | .blockhdr _ _ | .lit _ | .ref _ _ | .sreset => true
    | _ => false
  | .out, i =>
    match i with
    | .decomp | .blockhdr _ _ | .lit _ | .ref _ _ | .sreset => true
    | _ => false
  | .tile, i =>
    match i with
    | .tiledec _ _ | .sreset => true
    | _ => false
  | .pal, i =>
    match i with
    | .palload _ | .colorword _ _ _ _ | .sreset => true
    | _ => false
  | .nt, i =>
    match i with
    | .ntparse _ | .ntword _ _ _ _ _ | .sreset => true
    | _ => false
  | .fb, i =>
    match i with
    | .compose _ _ | .sreset => true
    | _ => false

/-- The instructions that may write `RESULT` (R23): the four commands, the varint of `RDVARINT`, and `SRESET`. -/
def mayWriteResult : Instr → Bool
  | .rdbits _ | .rdvarint | .getcolor _ _ _ | .subpalcnt _ | .varint _ | .sreset => true
  | _ => false

/-- The host commands (R93): the rows that are written to `CMD`. -/
def isCommand : Instr → Bool
  | .lit _ | .ref _ _ | .cmdbit _ | .varint _ | .blockhdr _ _ | .colorword _ _ _ _ | .ntword _ _ _ _ _ => false
  | _ => true

/-- The stream bits from `pos` on begin with `l`. -/
def StandsAt (bit : Nat → Bool) (pos : Nat) (l : List Bool) : Prop :=
  ∀ j, j < l.length → bit (pos + j) = l.getD j false

/-- Which place of the grammar a stream token stands at (R100). -/
def dueOf : Instr → Option StreamDue
  | .blockhdr _ _ => some .header
  | .lit _ => some .lit
  | .ref _ _ => some .ref
  | .cmdbit _ => some .cmdbit
  | .varint _ => some .varint
  | _ => none

/-- A source field fits its width (R99). -/
def fieldFits (dp : Nat) : Instr → Prop
  | .ref source _ => source < 2 ^ bitlen dp
  | _ => True

/-- A memory holds the bytes `l` from element 0 on. -/
def Memory.Holds (m : Memory 8) (l : List Byte) : Prop := ∀ i, i < l.length → m.lookup i = some (l.getD i 0#8)

/-- The state a fault taken before a command starts leaves (R250): `ERR`, `ST` and `DONE`, nothing else of the spec's. -/
def State.refusedWith (s : State) (err : Word) : State :=
  { s with st := .fault, done := false, phase := .none, err := err }

/-- The eight windows (R76), each by its first address and its extent in bytes. -/
def hostWindows (c : Config) : List (Nat × Nat) :=
  [(c.regBase.toNat, 0x100), (c.srcBase.toNat, c.srcCap), (c.litBase.toNat, litCap), (c.outBase.toNat, outCap),
    (c.tileBase.toNat, 64 * c.tileCap), (c.palBase.toNat, 4 * c.palCap), (c.ntBase.toNat, 2 * c.ntCap),
    (c.fbBase.toNat, c.fbCap)]

/-- No two windows overlap (R76). -/
def WindowsApart (c : Config) : Prop :=
  (hostWindows c).Pairwise fun v w => v.1 + v.2 ≤ w.1 ∨ w.1 + w.2 ≤ v.1

/-- The four bytes of pixel (x, y) of an image of width `w` (R66). -/
def pixelAt (m : Memory 8) (w x y : Nat) : List (Option Byte) :=
  [m.lookup (4 * (y * w + x)), m.lookup (4 * (y * w + x) + 1), m.lookup (4 * (y * w + x) + 2),
    m.lookup (4 * (y * w + x) + 3)]

end Sys2Proof.Machine
end

