-- ==== Sys2Proof/Certificates/Slice0/Obligations.lean ====
section
/-! DEFINITION. The statements for the provers. Each docstring says which rule of the spec a statement formalises, or that
it is the model's own. `exec i s = .next …` with the whole next state written out is the statement of an instruction's
result, of its frame, and of its completion at once: every field that is not named is unchanged. The fields `phase`,
`hostq`, `rdata` and `freeCtr` are the model's own (log entries 2, 8 and 9). -/

open Sys2Proof Sys2Proof.Machine

/-! ## Reset and the step -/

/-- R49, R270: the reset state; `STATUS` reads 8; the engine starts nothing by itself; the HOST's reset, whatever `ST` is,
and `SRESET`, from IDLE and from FAULT, give the same state. The configuration and the rest of the HOST's side are kept:
they are the model's own (log entries 2, 8, 15). -/
def Obligations.ResetAndSresetState : Prop :=
  (State.reset.IsReset ∧ State.reset.status = 0x00000008#32 ∧ step State.reset = .next State.reset)
    ∧ (∀ s : State, s.st ≠ .busy →
        ∃ t, exec .sreset s = .next t ∧ t.IsReset ∧ t.status = 0x00000008#32 ∧ t.cfg = s.cfg ∧ t.hostq = s.hostq
          ∧ t.rdata = s.rdata)
    ∧ ∀ (s : State) (rest : List HostOp), s.hostq = .reset :: rest →
        ∃ t, step s = .next t ∧ t.IsReset ∧ t.status = 0x00000008#32 ∧ t.phase = .none ∧ t.cfg = s.cfg
          ∧ t.hostq = rest ∧ t.rdata = s.rdata

/-- R270: with no HOST action and no command in progress nothing happens. -/
def Obligations.IdleEngineStartsNothing : Prop :=
  ∀ s : State, s.hostq = [] → s.st ≠ .busy → step s = .next s

/-- A step runs the decoded command: the word the HOST writes to `CMD` is run by `exec`, the HOST's action taken. -/
def Obligations.StepRunsCommand : Prop :=
  ∀ (s : State) (a c : Word) (rest : List HostOp) (i : Instr),
    s.hostq = .write a c :: rest → resolve s.cfg a = some (.reg 0) → decodeCommand c = .ok i →
    step s = exec i { s with hostq := rest }

/-- A step runs the decoded token: with no HOST action, what stands next in the command in progress is run by `exec`, the
cursor moved past a token's bits (R83, R100). That a step of a BUSY state runs one token is the model's form (log entry
9), and that `PAL_CNT` and `NT_CNT` say which data word is next is its choice (log entry 12: the rules write the counts
at the command's end). -/
def Obligations.StepRunsToken : Prop :=
  ∀ s : State, s.hostq = [] → s.st = .busy →
    (∀ due i n, (s.phase = .header ∧ due = .header ∨ s.phase = .lit ∧ due = .lit ∨ s.phase = .ref ∧ due = .ref
          ∨ s.phase = .cmdbit ∧ due = .cmdbit ∨ (∃ p, s.phase = .varint p) ∧ due = .varint) →
        decodeToken due s.decompPos.toNat s.streamBit s.bitPos.toNat s.rem = .ok (i, n) →
        step s = exec i { s with bitPos := s.bitPos + BitVec.ofNat 32 n })
    ∧ (∀ sel, s.phase = .colour sel → s.palCnt.toNat < s.inputLen sel / 2 →
        step s = exec (decodeColour (s.inputWord sel s.palCnt.toNat)) s)
    ∧ (∀ sel, s.phase = .entry sel → s.ntCnt.toNat < s.inputLen sel / 2 →
        step s = exec (decodeEntry (s.inputWord sel s.ntCnt.toNat)) s)

/-- R94, R233, R249: which words are rejected and as what. An opcode byte outside the thirteen is `BAD_OPCODE`, whatever
the other bits; a reserved bit of the format set is `RESERVED_BITS`, whatever the operands; with none set, an operand out
of range is `BAD_PARAM`. And a word that is rejected ends at once in `IllegalCommand` with its info and opcode byte, and
changes nothing else; in FAULT it is ignored. -/
def Obligations.RejectedWordFaults : Prop :=
  (∀ c : Word,
    c.extractLsb' 0 8 ∉ [0x00#8, 0x01#8, 0x02#8, 0x03#8, 0x10#8, 0x20#8, 0x30#8, 0x31#8, 0x32#8, 0x40#8, 0x50#8,
      0xF0#8, 0xF1#8] →
    decodeCommand c = .error .badOpcode)
  ∧ (∀ (c : Word) (op : BitVec 8) (reserved : Word),
    (op, reserved) ∈ [(0x00#8, 0xFFFFFF00#32), (0x01#8, 0x00000000#32), (0x02#8, 0x00000000#32),
      (0x03#8, 0xFFFFFF00#32), (0x10#8, 0xFFFFFF00#32), (0x20#8, 0xF0FFFE00#32), (0x30#8, 0xFFFFFE00#32),
      (0x31#8, 0xF0000000#32), (0x32#8, 0xF0FFFF00#32), (0x40#8, 0xFFFFFE00#32), (0x50#8, 0xF0000000#32),
      (0xF0#8, 0xFFFFFF00#32), (0xF1#8, 0xFFFFFF00#32)] →
    c.extractLsb' 0 8 = op →
    (c &&& reserved ≠ 0#32 → decodeCommand c = .error .reservedBits)
    ∧ (c &&& reserved = 0#32 →
        (op = 0x01#8 ∧ 32 < (c.extractLsb' 8 24).toNat
          ∨ op ∈ [0x20#8, 0x31#8, 0x32#8, 0x50#8] ∧ c.extractLsb' 24 4 ∉ [2#4, 4#4, 8#4]
          ∨ op = 0x50#8 ∧ c.extractLsb' 8 16 = 0#16) →
        decodeCommand c = .error .badParam))
  ∧ ∀ (s : State) (a c : Word) (rest : List HostOp) (e : DecodeError) (info : BitVec 8),
    (e, info) ∈ [(.badOpcode, 0x10#8), (.reservedBits, 0x11#8), (.badParam, 0x12#8)] →
    s.hostq = .write a c :: rest → resolve s.cfg a = some (.reg 0) → decodeCommand c = .error e →
    (s.st = .idle →
      step s = .next (State.refusedWith { s with hostq := rest } (0#8 ++ c.extractLsb' 0 8 ++ info ++ 0x05#8)))
    ∧ (s.st = .fault → step s = .next { s with hostq := rest })

/-! ## Encodings -/

/-- Every well-formed host command decodes from its own command word (R91 to R93). -/
def Obligations.CommandDecodeOfEncode : Prop :=
  ∀ (dp : Nat) (i : Instr) (c : Word), i.wellFormed = true → encode dp i = .word c → decodeCommand c = .ok i

/-- The other direction: a word that decodes is the one word of a well-formed command (R94: no other word runs it). -/
def Obligations.CommandEncodeOfDecode : Prop :=
  ∀ (dp : Nat) (c : Word) (i : Instr), decodeCommand c = .ok i → i.wellFormed = true ∧ encode dp i = .word c

/-- Every well-formed stream token decodes from its own bits wherever they stand, whatever follows (R97, R99, R127 (c)),
and takes exactly those bits. -/
def Obligations.StreamTokenDecodeOfEncode : Prop :=
  ∀ (dp : Nat) (i : Instr) (l : List Bool) (due : StreamDue) (bit : Nat → Bool) (pos rem : Nat),
    i.wellFormed = true → dueOf i = some due → fieldFits dp i → encode dp i = .bits l →
    StandsAt bit pos l → l.length ≤ rem → decodeToken due dp bit pos rem = .ok (i, l.length)

/-- R97: a varint read that ended at a stop bit consumed exactly the code of the value it returned, of
`2·bitlen(v) − 1` bits; so every value has exactly one code. -/
def Obligations.VarintCodeIsUnique : Prop :=
  ∀ (bit : Nat → Bool) (rem pos v k : Nat),
    varintFrom bit rem pos 1 = (v, k) → k % 2 = 1 → bit (pos + k - 1) = true →
    1 ≤ v ∧ k = 2 * bitlen v - 1 ∧ (encodeVarint v).length = k ∧ StandsAt bit pos (encodeVarint v)

/-- The colour and entry words: fields and 16-bit words determine each other, the bytes in little-endian order (R64, R65,
R104, R105, R200: total and one-to-one). -/
def Obligations.DataWordDecodeOfEncode : Prop :=
  (∀ (dp : Nat) (x : Bool) (b g r : BitVec 5), ∃ lo hi, encode dp (.colorword x b g r) = .bytes [lo, hi]
      ∧ decodeColour (littleEndian16 lo hi) = .colorword x b g r)
  ∧ (∀ (dp : Nat) (v h p : Bool) (sp : BitVec 3) (tile : BitVec 10), ∃ lo hi,
      encode dp (.ntword v h p sp tile) = .bytes [lo, hi]
        ∧ decodeEntry (littleEndian16 lo hi) = .ntword v h p sp tile)
  ∧ (∀ (dp : Nat) (lo hi : Byte), encode dp (decodeColour (littleEndian16 lo hi)) = .bytes [lo, hi]
      ∧ encode dp (decodeEntry (littleEndian16 lo hi)) = .bytes [lo, hi])

/-- A few words of the spec's vectors, written out from R92, R93, R105 and R97 (T1, T20, T33, T50, X4, T4). -/
def Obligations.SampleWordsDecode : Prop :=
  decodeCommand 0x00000B01#32 = .ok (.rdbits 11#24)
    ∧ decodeCommand 0x02000120#32 = .ok (.tiledec .out 2#4)
    ∧ decodeCommand 0x02010331#32 = .ok (.getcolor 1#8 3#8 2#4)
    ∧ decodeCommand 0x02000250#32 = .ok (.compose 2#16 2#4)
    ∧ decodeCommand 0x000000F1#32 = .ok .sreset
    ∧ decodeEntry 0x1C00#16 = .ntword false false false 7#3 0#10
    ∧ encodeVarint 6 = [false, true, false, false, true]

/-! ## The state gate and the system commands -/

/-- R249 step 1, R275: in FAULT every command but `CLRERR` and `SRESET` is ignored with no change at all; in BUSY every
command is. -/
def Obligations.GateIgnoresCommands : Prop :=
  ∀ (i : Instr) (s : State), isCommand i = true →
    (s.st = .fault → i ≠ .clrerr → i ≠ .sreset → exec i s = .next s) ∧ (s.st = .busy → exec i s = .next s)

/-- R230, R231: `NOP` in IDLE only sets `DONE`; `CLRERR`, in IDLE and in FAULT, clears `ERR`, returns to IDLE, sets
`DONE`, and keeps everything else. -/
def Obligations.NopAndClrerrResult : Prop :=
  ∀ s : State,
    (s.st = .idle → exec .nop s = .next { s with done := true, phase := .none })
    ∧ (s.st ≠ .busy → exec .clrerr s = .next { s with err := 0#32, st := .idle, done := true, phase := .none })

/-- R250 (first case), R249 steps 4 to 6: a command refused before it starts changes `ERR`, `ST` and `DONE` only. Each
clause is one check with the checks before it passed. -/
def Obligations.ChecksBeforeStart : Prop :=
  ∀ s : State, s.st = .idle →
    (∀ n : BitVec 24, 32 < n.toNat → exec (.rdbits n) s = .next (s.refusedWith 0x00011205#32))
    ∧ (∀ sel bpp, bppLegal bpp = false → exec (.tiledec sel bpp) s = .next (s.refusedWith 0x00201205#32))
    ∧ (∀ sp ci bpp, bppLegal bpp = false → exec (.getcolor sp ci bpp) s = .next (s.refusedWith 0x00311205#32))
    ∧ (∀ bpp, bppLegal bpp = false → exec (.subpalcnt bpp) s = .next (s.refusedWith 0x00321205#32))
    ∧ (∀ tw bpp, (tw = 0#16 ∨ bppLegal bpp = false) →
        exec (.compose tw bpp) s = .next (s.refusedWith 0x00501205#32))
    ∧ (∀ bpp, bppLegal bpp = true → s.outV = false →
        exec (.tiledec .out bpp) s = .next (s.refusedWith 0x00201405#32))
    ∧ (s.outV = false → exec (.palload .out) s = .next (s.refusedWith 0x00301405#32))
    ∧ (s.outV = false → exec (.ntparse .out) s = .next (s.refusedWith 0x00401405#32))
    ∧ (∀ sp ci bpp, bppLegal bpp = true → s.palV = false →
        exec (.getcolor sp ci bpp) s = .next (s.refusedWith 0x00311405#32))
    ∧ (∀ bpp, bppLegal bpp = true → s.palV = false → exec (.subpalcnt bpp) s = .next (s.refusedWith 0x00321405#32))
    ∧ (∀ tw bpp, tw ≠ 0#16 → bppLegal bpp = true → (s.ntV = false ∨ s.tileV = false ∨ s.palV = false) →
        exec (.compose tw bpp) s = .next (s.refusedWith 0x00501405#32))
    ∧ (s.cfg.srcCap < s.srcLen.toNat →
        (∀ n : BitVec 24, n.toNat ≤ 32 → exec (.rdbits n) s = .next (s.refusedWith 0x00011505#32))
        ∧ (∀ n : BitVec 24, exec (.rdbytes n) s = .next (s.refusedWith 0x00021505#32))
        ∧ exec .rdvarint s = .next (s.refusedWith 0x00031505#32)
        ∧ exec .decomp s = .next (s.refusedWith 0x00101505#32)
        ∧ (∀ bpp, bppLegal bpp = true → exec (.tiledec .src bpp) s = .next (s.refusedWith 0x00201505#32))
        ∧ exec (.palload .src) s = .next (s.refusedWith 0x00301505#32)
        ∧ exec (.ntparse .src) s = .next (s.refusedWith 0x00401505#32))

/-- The capacities of the results (R125, R177, R192, R202, R221): refused before anything starts; an image over the
capacity leaves the previous image and `FB_V` as they were. -/
def Obligations.ResultCapacities : Prop :=
  ∀ s : State, s.st = .idle →
    (∀ n : BitVec 24, 65533 < n.toNat → exec (.rdbytes n) s = .next (s.refusedWith 0x00021505#32))
    ∧ (∀ (sel : Sel) (bpp : BitVec 4), bppLegal bpp = true → (sel = .out → s.outV = true) →
        s.cfg.tileCap < s.inputLen sel / (8 * bpp.toNat) →
        exec (.tiledec sel bpp) s = .next (s.refusedWith 0x00201505#32))
    ∧ (∀ sel : Sel, (sel = .out → s.outV = true) → s.cfg.palCap < s.inputLen sel / 2 →
        exec (.palload sel) s = .next (s.refusedWith 0x00301505#32))
    ∧ (∀ sel : Sel, (sel = .out → s.outV = true) → s.cfg.ntCap < s.inputLen sel / 2 →
        exec (.ntparse sel) s = .next (s.refusedWith 0x00401505#32))
    ∧ (∀ (tw : BitVec 16) (bpp : BitVec 4), tw ≠ 0#16 → bppLegal bpp = true →
        s.ntV = true → s.tileV = true → s.palV = true →
        s.cfg.fbCap < 256 * tw.toNat * ((s.ntCnt.toNat + tw.toNat - 1) / tw.toNat + 1) →
        exec (.compose tw bpp) s = .next (s.refusedWith 0x00501505#32))

/-! ## The bitstream reader -/

/-- R121, R124: `RDBITS n` with enough bits left puts the next `n` stream bits in `RESULT`, the first one most
significant, and moves the cursor by `n`. -/
def Obligations.RdbitsResult : Prop :=
  ∀ (s : State) (n : BitVec 24), s.st = .idle → n.toNat ≤ 32 → s.srcLen.toNat ≤ s.cfg.srcCap →
    n.toNat ≤ 8 * s.srcLen.toNat - s.bitPos.toNat →
    ∃ v : Nat, v < 2 ^ n.toNat
      ∧ (∀ i, i < n.toNat → v.testBit (n.toNat - 1 - i)
          = (s.src.read ((s.bitPos.toNat + i) / 8)).getLsbD (7 - (s.bitPos.toNat + i) % 8))
      ∧ exec (.rdbits n) s = .next { s with
          done := true, phase := .none, result := BitVec.ofNat 32 v, bitPos := s.bitPos + n.setWidth 32 }

/-- R124, R242: with fewer than `n` bits left `RDBITS` faults with `StreamUnderrun(UNDERRUN)`; `BITPOS` and `RESULT` are
unchanged, and so is everything else. -/
def Obligations.RdbitsUnderrun : Prop :=
  ∀ (s : State) (n : BitVec 24), s.st = .idle → n.toNat ≤ 32 → s.srcLen.toNat ≤ s.cfg.srcCap →
    8 * s.srcLen.toNat - s.bitPos.toNat < n.toNat → exec (.rdbits n) s = .next (s.refusedWith 0x00010101#32)

/-- R127 (a): reading `a` bits and then `b` bits gives the halves of reading `a + b` bits from the same start. -/
def Obligations.ReadBitsSplit : Prop :=
  ∀ (s t u : State) (a b : BitVec 24), s.cfg.Sound → s.st = .idle → a.toNat + b.toNat ≤ 32 →
    exec (.rdbits a) s = .next t → t.st = .idle → exec (.rdbits b) t = .next u → u.st = .idle →
    ∃ w, exec (.rdbits (a + b)) s = .next w ∧ w.st = .idle ∧ w.bitPos = u.bitPos
      ∧ w.result = (t.result <<< b.toNat) ||| u.result

/-- R122, R125: `RDBYTES n` at an aligned cursor with enough bytes left copies them to LIT. -/
def Obligations.RdbytesResult : Prop :=
  ∀ (s : State) (n : BitVec 24), s.st = .idle → n.toNat ≤ 65533 → s.srcLen.toNat ≤ s.cfg.srcCap →
    s.bitPos.toNat % 8 = 0 → 8 * n.toNat ≤ 8 * s.srcLen.toNat - s.bitPos.toNat →
    ∃ (m : Memory 8) (c : Nat), (∀ i, i < n.toNat → m.lookup i = some (s.src.read (s.bitPos.toNat / 8 + i)))
      ∧ exec (.rdbytes n) s = .next { s with
          done := true, phase := .none, lit := m, litLen := n.setWidth 32, litV := true,
          bitPos := s.bitPos + BitVec.ofNat 32 (8 * n.toNat), freeCtr := c }

/-- R125, R250: `MISALIGNED` before `UNDERRUN`; `BITPOS` and `LIT_LEN` keep their values, `LIT_V` is 0, and of the
memories only LIT may have changed. -/
def Obligations.RdbytesFaults : Prop :=
  ∀ (s : State) (n : BitVec 24), s.st = .idle → n.toNat ≤ 65533 → s.srcLen.toNat ≤ s.cfg.srcCap →
    ∃ (m : Memory 8) (c : Nat),
      (s.bitPos.toNat % 8 ≠ 0 →
        exec (.rdbytes n) s = .next { s.refusedWith 0x00021305#32 with litV := false, lit := m, freeCtr := c })
      ∧ (s.bitPos.toNat % 8 = 0 → 8 * s.srcLen.toNat - s.bitPos.toNat < 8 * n.toNat →
        exec (.rdbytes n) s = .next { s.refusedWith 0x00020101#32 with litV := false, lit := m, freeCtr := c })

/-- R123, R126, R127 (c): where the code of `v < 2^32` stands at the cursor, `RDVARINT` returns `v` and moves the cursor
past the code. In an instance whose `VARINT_W` is below 32, for every `v` it holds (the others: `RdvarintResultRange`). -/
def Obligations.RdvarintResult : Prop :=
  ∀ (s : State) (v : Nat), s.st = .idle → s.srcLen.toNat ≤ s.cfg.srcCap → 1 ≤ v → v < 2 ^ 32 →
    (∀ w, s.cfg.varintW = some w → v < 2 ^ w) →
    StandsAt s.streamBit s.bitPos.toNat (encodeVarint v) →
    2 * bitlen v - 1 ≤ 8 * s.srcLen.toNat - s.bitPos.toNat →
    exec .rdvarint s = .next { s with
      done := true, phase := .none, result := BitVec.ofNat 32 v,
      bitPos := s.bitPos + BitVec.ofNat 32 (2 * bitlen v - 1) }

/-- R98, R123: a varint cut by the end of the stream is no error: its value is what the data bits `ds` accumulated, and
everything left is consumed, a lone control bit 0 too. In an instance whose `VARINT_W` is below 32, for every value
it holds (the others: `RdvarintResultRange`). -/
def Obligations.RdvarintTruncated : Prop :=
  ∀ (s : State) (ds : List Bool) (lone : Bool) (v : Nat), s.st = .idle → s.srcLen.toNat ≤ s.cfg.srcCap →
    8 * s.srcLen.toNat - s.bitPos.toNat = 2 * ds.length + lone.toNat →
    StandsAt s.streamBit s.bitPos.toNat (ds.flatMap (fun d => [false, d]) ++ (if lone then [false] else [])) →
    v = ds.foldl (fun a d => 2 * a + d.toNat) 1 → v < 2 ^ 32 → (∀ w, s.cfg.varintW = some w → v < 2 ^ w) →
    exec .rdvarint s = .next { s with
      done := true, phase := .none, result := BitVec.ofNat 32 v,
      bitPos := s.bitPos + BitVec.ofNat 32 (2 * ds.length + lone.toNat) }

/-- R126, R250, U4: a value of 2^32 or more faults with `IllegalCommand(RESULT_RANGE)`, whatever `VARINT_W`; `RESULT` is
unchanged, and `BITPOS` is some value from the one before the command to `8·SRC_LEN` (log entry 5). R11, U8: a value
below 2^32 that `VARINT_W` bits do not hold is given no value: the model stops with a named refusal (log entry 18). -/
def Obligations.RdvarintResultRange : Prop :=
  ∀ (s : State) (v : Nat), s.cfg.Sound → s.st = .idle → s.srcLen.toNat ≤ s.cfg.srcCap →
    v = (varintFrom s.streamBit (8 * s.srcLen.toNat - s.bitPos.toNat) s.bitPos.toNat 1).1 →
    (2 ^ 32 ≤ v →
      ∃ (p : Word) (c : Nat), s.bitPos.toNat ≤ p.toNat ∧ p.toNat ≤ 8 * s.srcLen.toNat
        ∧ exec .rdvarint s = .next { s.refusedWith 0x00031605#32 with bitPos := p, freeCtr := c })
    ∧ (∀ w, s.cfg.varintW = some w → 2 ^ w ≤ v → v < 2 ^ 32 → exec .rdvarint s = .refused .varintTooWide)

/-- R126, R11: the varint of `RDVARINT`, once read: `RESULT` takes a value below 2^32 that `VARINT_W` bits hold; one they
do not hold is refused by name (log entry 18). That a token's meaning holds on every state is the model's form (log entry
9). -/
def Obligations.VarintTokenResult : Prop :=
  ∀ (s : State) (v : Nat), v < 2 ^ 32 →
    ((∀ w, s.cfg.varintW = some w → v < 2 ^ w) →
      exec (.varint v) s = .next { s with
        st := .idle, done := true, phase := .none, result := BitVec.ofNat 32 v })
    ∧ ((∃ w, s.cfg.varintW = some w ∧ 2 ^ w ≤ v) → exec (.varint v) s = .refused .varintTooWide)

/-- R127 (d): no reader command moves `BITPOS` backwards or above `max(BITPOS, 8·SRC_LEN)`, whether it ends ok or
faults. For `RESULT_RANGE`, after which R126 and R250 leave `BITPOS` unspecified, the bounds are U4's, which the model
follows by inference (log entry 5). -/
def Obligations.ReaderCursorBounds : Prop :=
  ∀ (s t : State) (i : Instr), s.cfg.Sound → s.st = .idle →
    (∃ n, i = .rdbits n) ∨ (∃ n, i = .rdbytes n) ∨ i = .rdvarint →
    exec i s = .next t →
    s.bitPos.toNat ≤ t.bitPos.toNat ∧ t.bitPos.toNat ≤ max s.bitPos.toNat (8 * s.srcLen.toNat)

/-! ## The decompressor -/

/-- R141, R142: framing with V ≥ 2 and the payload present. R141 has the header inside `DECOMP` only, the cursor then at
32; that its meaning holds on every state, at any aligned cursor, is the model's form (log entry 9). -/
def Obligations.BlockHeaderFrames : Prop :=
  ∀ (s : State) (u v : BitVec 16), 2 ≤ v.toNat → s.bitPos.toNat % 8 = 0 →
    8 * (v.toNat - 2) ≤ 8 * s.srcLen.toNat - s.bitPos.toNat →
    ∃ (m : Memory 8) (c : Nat), (∀ i, i < v.toNat - 2 → m.lookup i = some (s.src.read (s.bitPos.toNat / 8 + i)))
      ∧ exec (.blockhdr u v) s = .next { s with
          bitPos := s.bitPos + BitVec.ofNat 32 (8 * (v.toNat - 2)), lit := m,
          litLen := BitVec.ofNat 32 (v.toNat - 2), outLen := u.setWidth 32, decompPos := 0#32, dataPos := 0#32,
          nextCmd := 0#32, phase := .lit, freeCtr := c }

/-- R143: a literal step whose payload bytes are there copies them, advances both cursors, and ends the command when the
output is complete; else a back-reference step is next. Every other byte of OUT is as before. The amount is clamped to
the space left, of a varint that `VARINT_W` bits saturate, which does not show while the space is what a header can
declare (U8, log entry 18). The form on every state is the model's (log entry 9). -/
def Obligations.LitStepCopies : Prop :=
  ∀ (s : State) (n a : Nat), a = min (s.cfg.saturated n) (s.outLen.toNat - s.decompPos.toNat) →
    s.dataPos.toNat + a ≤ s.litLen.toNat →
    (s.outLen.toNat ≤ 65535 → a = min n (s.outLen.toNat - s.decompPos.toNat))
    ∧ ∃ m : Memory 8,
      (∀ i, i < a → m.read (s.decompPos.toNat + i) = s.lit.read (s.dataPos.toNat + i))
      ∧ (∀ k, k < s.decompPos.toNat ∨ s.decompPos.toNat + a ≤ k → m.read k = s.out.read k)
      ∧ exec (.lit n) s = .next (
          if s.decompPos.toNat + a = s.outLen.toNat then
            { s with
              out := m, decompPos := s.decompPos + BitVec.ofNat 32 a, dataPos := s.dataPos + BitVec.ofNat 32 a,
              st := .idle, done := true, phase := .none, litV := true, outV := true }
          else
            { s with
              out := m, decompPos := s.decompPos + BitVec.ofNat 32 a, dataPos := s.dataPos + BitVec.ofNat 32 a,
              phase := .ref })

/-- R144, R146: a back-reference step to written output copies byte by byte, so that the bytes from the source up to the
cursor repeat with period `dp0 − copy_source`; every other byte of OUT is as before; the command ends when the output is
complete, else the command bit is next. The amount is clamped to the space left, of a varint that `VARINT_W` bits
saturate, which does not show while the space is what a header can declare (U8, log entry 18). The form on every state
is the model's (log entry 9). -/
def Obligations.RefStepRepeats : Prop :=
  ∀ (s : State) (source m a : Nat), source < s.decompPos.toNat →
    a = min (s.cfg.saturated m + 2) (s.outLen.toNat - s.decompPos.toNat) →
    (s.outLen.toNat ≤ 65535 → a = min (m + 2) (s.outLen.toNat - s.decompPos.toNat))
    ∧ ∃ mem : Memory 8,
      (∀ i, i < a → mem.read (s.decompPos.toNat + i) = s.out.read (source + i % (s.decompPos.toNat - source)))
      ∧ (∀ k, k < s.decompPos.toNat ∨ s.decompPos.toNat + a ≤ k → mem.read k = s.out.read k)
      ∧ exec (.ref source m) s = .next (
          if s.decompPos.toNat + a = s.outLen.toNat then
            { s with
              out := mem, decompPos := s.decompPos + BitVec.ofNat 32 a,
              st := .idle, done := true, phase := .none, litV := true, outV := true }
          else { s with out := mem, decompPos := s.decompPos + BitVec.ofNat 32 a, phase := .cmdbit })

/-- R141, R143, R144, R147, R148, R150, R250: the faults of the tokens. Once read: too little payload, a source at or
above the cursor, V < 2, a payload that is not there. And before it is read: a header, a source field or a command bit
that finds too few bits is `UNDERRUN`, the source field's before its validity. `LIT_V` = `OUT_V` = 0; the spec leaves
LIT, OUT and the six cursors open, everything else is unchanged. `NEXT_CMD` below 2 is read from U6 by inference (log
entry 4); the form on every state, and the step of a BUSY state, are the model's (log entry 9), and so is the saturated
varint (log entry 18). -/
def Obligations.DecompTokenFaults : Prop :=
  (∀ (s : State) (i : Instr) (err : Word),
    ((∃ n, i = .lit n ∧ err = 0x00100302#32
        ∧ s.litLen.toNat < s.dataPos.toNat + min (s.cfg.saturated n) (s.outLen.toNat - s.decompPos.toNat))
      ∨ (∃ source m, i = .ref source m ∧ err = 0x00100402#32 ∧ s.decompPos.toNat ≤ source)
      ∨ (∃ u v, i = .blockhdr u v ∧ err = 0x00100202#32 ∧ v.toNat < 2)
      ∨ (∃ u v, i = .blockhdr u v ∧ err = 0x00100102#32 ∧ 2 ≤ v.toNat
        ∧ 8 * s.srcLen.toNat - s.bitPos.toNat < 8 * (v.toNat - 2))) →
    ∃ t, exec i s = .next t ∧ t.nextCmd.toNat < 2
      ∧ t = { s.refusedWith err with
          litV := false, outV := false, lit := t.lit, out := t.out, bitPos := t.bitPos, litLen := t.litLen,
          dataPos := t.dataPos, outLen := t.outLen, decompPos := t.decompPos, nextCmd := t.nextCmd,
          freeCtr := t.freeCtr })
  ∧ ∀ s : State, s.hostq = [] → s.st = .busy →
    (s.phase = .header ∧ 8 * s.srcLen.toNat - s.bitPos.toNat < 32
      ∨ s.phase = .ref ∧ 8 * s.srcLen.toNat - s.bitPos.toNat < bitlen s.decompPos.toNat
      ∨ s.phase = .cmdbit ∧ 8 * s.srcLen.toNat - s.bitPos.toNat < 1) →
    ∃ t, step s = .next t ∧ t.nextCmd.toNat < 2
      ∧ t = { s.refusedWith 0x00100102#32 with
          litV := false, outV := false, lit := t.lit, out := t.out, bitPos := t.bitPos, litLen := t.litLen,
          dataPos := t.dataPos, outLen := t.outLen, decompPos := t.decompPos, nextCmd := t.nextCmd,
          freeCtr := t.freeCtr }

/-- R148: the command bit. -/
def Obligations.CmdbitSelectsStep : Prop :=
  ∀ (s : State) (c : Bool),
    (c = s.cfg.litBit → exec (.cmdbit c) s = .next { s with nextCmd := 0#32, phase := .lit })
    ∧ (c ≠ s.cfg.litBit → exec (.cmdbit c) s = .next { s with nextCmd := 1#32, phase := .ref })

/-- R140, R150, R151 (b), R152: `DECOMP` from IDLE has no third outcome: it ends ok, with exactly the header's
`uncompressed_length` bytes of OUT written, or it ends in `CorruptStream` with one of its four infos and neither
destination valid, a buffer too short for the header with `UNDERRUN`; or SRC is over its capacity and nothing started.
That no byte at or above `OUT_LEN` is specified is the model's choice (log entry 12). -/
def Obligations.DecompExactOutput : Prop :=
  ∀ s : State, s.st = .idle →
    ∃ t, exec .decomp s = .next t ∧
      (s.cfg.srcCap < s.srcLen.toNat ∧ t = s.refusedWith 0x00101505#32
        ∨ t.st = .idle ∧ t.done = true ∧ t.litV = true ∧ t.outV = true ∧ t.decompPos = t.outLen
          ∧ t.outLen.toNat = 256 * (s.src.read 0).toNat + (s.src.read 1).toNat
          ∧ (∀ k, (t.out.lookup k).isSome = true ↔ k < t.outLen.toNat)
        ∨ t.st = .fault ∧ t.done = false ∧ t.litV = false ∧ t.outV = false ∧ t.errCode = 2#4
          ∧ t.errOp = 0x10#8 ∧ t.errInfo ∈ [0x01#8, 0x02#8, 0x03#8, 0x04#8]
          ∧ (s.srcLen.toNat < 4 → t.errInfo = 0x01#8))

/-- The contract of R140 with the assembler of R110: a block assembled from a valid stream program, whatever follows it in
SRC, decompresses to the bytes the program stands for, with `DATA_POS` the number of literal bytes consumed and
`NEXT_CMD` what the last command bit selected (R142, R148, R149). This is the result of `DECOMP`, and its frame. Which
programs R110 accepts is read from it by inference (log entry 16). -/
def Obligations.AssembledBlockDecompresses : Prop :=
  ∀ (s : State) (u : Nat) (data : List Byte) (steps : List BlockStep),
    s.cfg.Sound → s.st = .idle → u ≤ 65535 → data.length ≤ 65533 →
    stepsValid u data.length .first 0 0 steps = true →
    s.src.Holds (assembleBlock s.cfg.litBit u data steps) →
    (assembleBlock s.cfg.litBit u data steps).length ≤ s.srcLen.toNat → s.srcLen.toNat ≤ s.cfg.srcCap →
    ∃ t, exec .decomp s = .next t
      ∧ (∀ i, i < u → t.out.lookup i = some ((expandSteps u data 0 [] steps).getD i 0#8))
      ∧ t.lit.Holds data ∧ t.outLen.toNat = u ∧ t.decompPos.toNat = u ∧ t.litLen.toNat = data.length
      ∧ t.dataPos.toNat = literalBytes u 0 steps ∧ t.nextCmd = lastCommand .first 0#32 steps
      ∧ t.bitPos.toNat = 32 + 8 * data.length + (assembleSteps s.cfg.litBit u .first 0 steps).length
      ∧ t = { s with
          done := true, phase := .none, litV := true, outV := true, lit := t.lit, out := t.out, bitPos := t.bitPos,
          litLen := t.litLen, dataPos := t.dataPos, outLen := t.outLen, decompPos := t.decompPos,
          nextCmd := t.nextCmd, freeCtr := t.freeCtr }

/-- R140, R282: `DECOMP` depends on nothing but the bytes of the block and `LIT_BIT`, not on `VARINT_W` either (U8). -/
def Obligations.DecompDependsOnlyOnBlock : Prop :=
  ∀ s s' t t' : State, s.st = .idle → s'.st = .idle → s.cfg.litBit = s'.cfg.litBit → s.srcLen = s'.srcLen →
    s.srcLen.toNat ≤ s.cfg.srcCap → s'.srcLen.toNat ≤ s'.cfg.srcCap →
    (∀ i, i < s.srcLen.toNat → s.src.read i = s'.src.read i) →
    exec .decomp s = .next t → exec .decomp s' = .next t' →
    t.st = t'.st ∧ (t.st = .fault → t.err = t'.err)
      ∧ (t.st = .idle → t.outLen = t'.outLen ∧ t.litLen = t'.litLen ∧ t.bitPos = t'.bitPos ∧ t.dataPos = t'.dataPos
          ∧ t.nextCmd = t'.nextCmd ∧ (∀ i, i < t.outLen.toNat → t.out.read i = t'.out.read i))

/-- R153, R142: a block with U = 0 runs its first `LIT`, which consumes a varint's bits if there are any and copies
nothing, and ends ok with an empty output; the payload is copied to LIT and none of it used. That OUT then has no
specified byte, its old contents included, is the model's choice (log entry 12; U2 would let them stay). -/
def Obligations.DecompEmptyOutput : Prop :=
  ∀ (s : State) (p : Nat), s.cfg.Sound → s.st = .idle → s.srcLen.toNat ≤ s.cfg.srcCap → 4 + p ≤ s.srcLen.toNat →
    p ≤ 65533 → s.src.read 0 = 0#8 → s.src.read 1 = 0#8 →
    256 * (s.src.read 2).toNat + (s.src.read 3).toNat = p + 2 →
    ∃ t, exec .decomp s = .next t ∧ t.st = .idle ∧ t.done = true ∧ t.outV = true ∧ t.litV = true
      ∧ t.outLen = 0#32 ∧ t.decompPos = 0#32 ∧ t.dataPos = 0#32 ∧ t.litLen.toNat = p
      ∧ (∀ i, i < p → t.lit.lookup i = some (s.src.read (4 + i))) ∧ (∀ k, t.out.lookup k = none)
      ∧ t.bitPos.toNat
        = 32 + 8 * p + (varintFrom s.streamBit (8 * (s.srcLen.toNat - (4 + p))) (32 + 8 * p) 1).2

/-- R279, R280: no step from IDLE or FAULT leaves the ENGINE busy: every command terminates. -/
def Obligations.EveryCommandEnds : Prop :=
  ∀ s t : State, s.st ≠ .busy → step s = .next t → t.st ≠ .busy

/-! ## The tile decoder -/

/-- R171, R172, R177: every bit of every pixel of every tile. -/
def Obligations.TiledecResult : Prop :=
  ∀ (s : State) (sel : Sel) (bpp : BitVec 4), s.st = .idle → bppLegal bpp = true →
    (sel = .out → s.outV = true) → (sel = .src → s.srcLen.toNat ≤ s.cfg.srcCap) →
    s.inputLen sel % (8 * bpp.toNat) = 0 → s.inputLen sel / (8 * bpp.toNat) ≤ s.cfg.tileCap →
    ∃ (m : Memory 8) (c : Nat),
      (∀ t r x, t < s.inputLen sel / (8 * bpp.toNat) → r < 8 → x < 8 →
        ∃ px, m.lookup (64 * t + 8 * r + x) = some px
          ∧ ∀ p, px.getLsbD p = (decide (p < bpp.toNat)
              && (s.inputByte sel (8 * bpp.toNat * t + (16 * (p / 2) + 2 * r + p % 2))).getLsbD (7 - x)))
      ∧ exec (.tiledec sel bpp) s = .next { s with
          done := true, phase := .none, tileV := true, tile := m, freeCtr := c,
          tileCnt := BitVec.ofNat 32 (s.inputLen sel / (8 * bpp.toNat)), tileBpp := bpp.setWidth 32 }

/-- R176, R250: a short last block is `StreamUnderrun(PARTIAL_TILE)` and delivers nothing. -/
def Obligations.TiledecPartialTile : Prop :=
  ∀ (s : State) (sel : Sel) (bpp : BitVec 4), s.st = .idle → bppLegal bpp = true →
    (sel = .out → s.outV = true) → (sel = .src → s.srcLen.toNat ≤ s.cfg.srcCap) →
    s.inputLen sel % (8 * bpp.toNat) ≠ 0 → s.inputLen sel / (8 * bpp.toNat) ≤ s.cfg.tileCap →
    ∃ t, exec (.tiledec sel bpp) s = .next t
      ∧ t = { s.refusedWith 0x00200501#32 with
          tileV := false, tile := t.tile, tileCnt := t.tileCnt, tileBpp := t.tileBpp, freeCtr := t.freeCtr }

/-- R174: the zero tile, the tile of ones, and the tile of one plane bit. -/
def Obligations.SpecialTiles : Prop :=
  ∀ (b : Bpp) (block : Nat → Byte),
    ((∀ j, j < 8 * b.bits → block j = 0x00#8) → decodeTile b block = List.replicate 64 0#8)
    ∧ ((∀ j, j < 8 * b.bits → block j = 0xFF#8) →
        decodeTile b block = List.replicate 64 (BitVec.ofNat 8 (2 ^ b.bits - 1)))
    ∧ (∀ p r x, p < b.bits → r < 8 → x < 8 →
        (∀ j, j < 8 * b.bits →
          block j = if j = 16 * (p / 2) + 2 * r + p % 2 then 0x80#8 >>> x else 0#8) →
        ∀ k, k < 64 → (decodeTile b block).getD k 0#8 = if k = 8 * r + x then 1#8 <<< p else 0#8)

/-! ## The palette -/

/-- R186, R187: the channel widening: the formula, its shift form, and the table of all 32 values. -/
def Obligations.ChannelWidening : Prop :=
  ∀ v : BitVec 5,
    (chan8 v).toNat = v.toNat * 8 + v.toNat * 8 / 32
    ∧ chan8 v = (v.setWidth 8 <<< 3) ||| (v.setWidth 8 >>> 2)
    ∧ (chan8 v).toNat = [0, 8, 16, 24, 33, 41, 49, 57, 66, 74, 82, 90, 99, 107, 115, 123, 132, 140, 148, 156, 165,
        173, 181, 189, 198, 206, 214, 222, 231, 239, 247, 255].getD v.toNat 0

/-- R188: a colour word becomes an entry of PAL, its three channels widened, bit 15 without effect. That it goes to index
`PAL_CNT` and that `PAL_CNT` grows by one is the model's choice (log entry 12: R192 writes the count once, at the end),
and so is the form on every state (log entry 9). -/
def Obligations.ColorwordResult : Prop :=
  ∀ (s : State) (x : Bool) (b g r : BitVec 5),
    ∃ m : Memory 24,
      (∀ k, m.read k = if k = s.palCnt.toNat then
          BitVec.ofNat 24 (65536 * (r.toNat * 8 + r.toNat * 8 / 32) + 256 * (g.toNat * 8 + g.toNat * 8 / 32)
            + (b.toNat * 8 + b.toNat * 8 / 32))
        else s.pal.read k)
      ∧ exec (.colorword x b g r) s = .next { s with pal := m, palCnt := s.palCnt + 1#32 }

/-- R188, R189, R192: `PALLOAD`: entry `i` is the conversion of the little-endian word at `2i`; an odd byte is dropped. -/
def Obligations.PalloadResult : Prop :=
  ∀ (s : State) (sel : Sel), s.st = .idle →
    (sel = .out → s.outV = true) → (sel = .src → s.srcLen.toNat ≤ s.cfg.srcCap) →
    s.inputLen sel / 2 ≤ s.cfg.palCap →
    ∃ (m : Memory 24) (c : Nat),
      (∀ i, i < s.inputLen sel / 2 →
        ∃ (e : BitVec 24) (w : Nat), m.lookup i = some e
          ∧ w = (s.inputByte sel (2 * i)).toNat + 256 * (s.inputByte sel (2 * i + 1)).toNat
          ∧ e.toNat = 65536 * (w % 32 * 8 + w % 32 * 8 / 32) + 256 * (w / 32 % 32 * 8 + w / 32 % 32 * 8 / 32)
              + (w / 1024 % 32 * 8 + w / 1024 % 32 * 8 / 32))
      ∧ exec (.palload sel) s = .next { s with
          done := true, phase := .none, palV := true, pal := m, freeCtr := c,
          palCnt := BitVec.ofNat 32 (s.inputLen sel / 2) }

/-- R191, R193: `GETCOLOR` reads entry `sp·2^bpp + ci`, whatever `ci`; an index at or beyond `PAL_CNT` is
`IndexOutOfRange(PALETTE_INDEX)` with `RESULT` unchanged. -/
def Obligations.GetcolorResult : Prop :=
  ∀ (s : State) (sp ci : BitVec 8) (bpp : BitVec 4), s.st = .idle → bppLegal bpp = true → s.palV = true →
    (sp.toNat * 2 ^ bpp.toNat + ci.toNat < s.palCnt.toNat →
      exec (.getcolor sp ci bpp) s = .next { s with
        done := true, phase := .none, result := (s.pal.read (sp.toNat * 2 ^ bpp.toNat + ci.toNat)).setWidth 32 })
    ∧ (s.palCnt.toNat ≤ sp.toNat * 2 ^ bpp.toNat + ci.toNat →
      exec (.getcolor sp ci bpp) s = .next (s.refusedWith 0x00310604#32))

/-- R190, R194: `SUBPALCNT` is the floor quotient of `PAL_CNT` by the sub-palette size. -/
def Obligations.SubpalcntResult : Prop :=
  ∀ (s : State) (bpp : BitVec 4), s.st = .idle → bppLegal bpp = true → s.palV = true →
    exec (.subpalcnt bpp) s = .next { s with
      done := true, phase := .none, result := BitVec.ofNat 32 (s.palCnt.toNat / 2 ^ bpp.toNat) }

/-! ## The nametable -/

/-- R200, R203: an entry word becomes an element of NT, all sixteen bits kept. That it goes to index `NT_CNT` and that
`NT_CNT` grows by one is the model's choice (log entry 12: R202 writes the count once, at the end), and so is the form on
every state (log entry 9). -/
def Obligations.NtwordResult : Prop :=
  ∀ (s : State) (v h p : Bool) (sp : BitVec 3) (tile : BitVec 10),
    ∃ m : Memory 16,
      (∀ k, m.read k = if k = s.ntCnt.toNat then
          BitVec.ofNat 16 (32768 * v.toNat + 16384 * h.toNat + 8192 * p.toNat + 1024 * sp.toNat + tile.toNat)
        else s.nt.read k)
      ∧ exec (.ntword v h p sp tile) s = .next { s with nt := m, ntCnt := s.ntCnt + 1#32 }

/-- R201, R202: `NTPARSE`: element `k` is the little-endian word at `2k`; an odd byte is dropped. -/
def Obligations.NtparseResult : Prop :=
  ∀ (s : State) (sel : Sel), s.st = .idle →
    (sel = .out → s.outV = true) → (sel = .src → s.srcLen.toNat ≤ s.cfg.srcCap) →
    s.inputLen sel / 2 ≤ s.cfg.ntCap →
    ∃ (m : Memory 16) (c : Nat),
      (∀ k, k < s.inputLen sel / 2 →
        m.lookup k = some (s.inputByte sel (2 * k + 1) ++ s.inputByte sel (2 * k)))
      ∧ exec (.ntparse sel) s = .next { s with
          done := true, phase := .none, ntV := true, nt := m, freeCtr := c,
          ntCnt := BitVec.ofNat 32 (s.inputLen sel / 2) }

/-! ## The compositor -/

/-- R211 to R216, R220: `COMPOSE` when every lookup is in range: the dimensions, and every pixel: in the cell of entry
`k` the pixel of its flipped tile through its sub-palette, with alpha 0 for index 0 and 255 otherwise; elsewhere four
zero bytes. -/
def Obligations.ComposeResult : Prop :=
  ∀ (s : State) (tw : BitVec 16) (bpp : BitVec 4) (W H : Nat), s.st = .idle → tw ≠ 0#16 → bppLegal bpp = true →
    s.ntV = true → s.tileV = true → s.palV = true →
    W = 8 * tw.toNat → H = 8 * ((s.ntCnt.toNat + tw.toNat - 1) / tw.toNat) + 8 → 4 * W * H ≤ s.cfg.fbCap →
    (∀ k, k < s.ntCnt.toNat → (parseEntry (s.nt.read k)).tileIndex.toNat < s.tileCnt.toNat
      ∧ ∀ j, j < 64 → (parseEntry (s.nt.read k)).subPaletteIndex.toNat * 2 ^ bpp.toNat
          + (s.tile.read (64 * (parseEntry (s.nt.read k)).tileIndex.toNat + j)).toNat < s.palCnt.toNat) →
    ∃ (m : Memory 8) (c : Nat),
      (∀ x y k sx sy ci colour, x < W → y < H → k = y / 8 * tw.toNat + x / 8 →
        (k < s.ntCnt.toNat →
          sx = (if (parseEntry (s.nt.read k)).flipH then 7 - x % 8 else x % 8) →
          sy = (if (parseEntry (s.nt.read k)).flipV then 7 - y % 8 else y % 8) →
          ci = s.tile.read (64 * (parseEntry (s.nt.read k)).tileIndex.toNat + 8 * sy + sx) →
          colour = s.pal.read ((parseEntry (s.nt.read k)).subPaletteIndex.toNat * 2 ^ bpp.toNat + ci.toNat) →
          pixelAt m W x y = [some (colour.extractLsb' 16 8), some (colour.extractLsb' 8 8),
            some (colour.extractLsb' 0 8), some (if ci = 0#8 then 0#8 else 255#8)])
        ∧ (s.ntCnt.toNat ≤ k → pixelAt m W x y = [some 0#8, some 0#8, some 0#8, some 0#8]))
      ∧ exec (.compose tw bpp) s = .next { s with
          done := true, phase := .none, fbV := true, fb := m, freeCtr := c,
          imgW := BitVec.ofNat 32 W, imgH := BitVec.ofNat 32 H }

/-- R214, R216, R217, R250: the first failing lookup, entries ascending and the tile before the pixels, decides the info;
`FB_V` is 0, and of the rest only FB, `IMG_W` and `IMG_H` may have changed. -/
def Obligations.ComposeFirstFault : Prop :=
  ∀ (s : State) (tw : BitVec 16) (bpp : BitVec 4) (k : Nat) (tileFails : Bool),
    s.st = .idle → tw ≠ 0#16 → bppLegal bpp = true →
    s.ntV = true → s.tileV = true → s.palV = true →
    4 * (8 * tw.toNat * (8 * ((s.ntCnt.toNat + tw.toNat - 1) / tw.toNat) + 8)) ≤ s.cfg.fbCap →
    k < s.ntCnt.toNat →
    (∀ k', k' < k → (parseEntry (s.nt.read k')).tileIndex.toNat < s.tileCnt.toNat
      ∧ ∀ j, j < 64 → (parseEntry (s.nt.read k')).subPaletteIndex.toNat * 2 ^ bpp.toNat
          + (s.tile.read (64 * (parseEntry (s.nt.read k')).tileIndex.toNat + j)).toNat < s.palCnt.toNat) →
    (if tileFails then s.tileCnt.toNat ≤ (parseEntry (s.nt.read k)).tileIndex.toNat
      else (parseEntry (s.nt.read k)).tileIndex.toNat < s.tileCnt.toNat
        ∧ ∃ j, j < 64 ∧ s.palCnt.toNat ≤ (parseEntry (s.nt.read k)).subPaletteIndex.toNat * 2 ^ bpp.toNat
          + (s.tile.read (64 * (parseEntry (s.nt.read k)).tileIndex.toNat + j)).toNat) →
    ∃ t, exec (.compose tw bpp) s = .next t
      ∧ t = { s.refusedWith (if tileFails then 0x00500704#32 else 0x00500604#32) with
          fbV := false, fb := t.fb, imgW := t.imgW, imgH := t.imgH, freeCtr := t.freeCtr }

/-- R218: the priority bit is parsed and kept on the entry; two nametables that differ only in priority bits give the
same run of `COMPOSE`. That the entry is found at index `NT_CNT` is the model's choice (log entry 12: R202 writes the
count once, at the end), and so is the form of the entry word's clause on every state (log entry 9). -/
def Obligations.PriorityHasNoEffect : Prop :=
  (∀ (v h p : Bool) (sp : BitVec 3) (tile : BitVec 10) (s t : State),
    exec (.ntword v h p sp tile) s = .next t → (parseEntry (t.nt.read s.ntCnt.toNat)).priority = p)
  ∧ ∀ (s t : State) (m : Memory 16) (tw : BitVec 16) (bpp : BitVec 4),
    (∀ k, k < s.ntCnt.toNat → m.read k &&& 0xDFFF#16 = s.nt.read k &&& 0xDFFF#16) →
    exec (.compose tw bpp) s = .next t → exec (.compose tw bpp) { s with nt := m } = .next { t with nt := m }

/-! ## The whole machine -/

/-- Every step keeps the canonical form of every memory (the model's own representation, log entry 3). -/
def Obligations.StepKeepsMemoriesCanonical : Prop :=
  ∀ s t : State, s.MemoriesWf → step s = .next t → t.MemoriesWf

/-- Every step keeps the control state consistent (R25, R26, R31, R45, R241, R244). That bits 31 to 1 of `NEXT_CMD` stay 0
after a faulted `DECOMP` too, where R250 and U3 leave the register open, is read from U6 by inference (log entry 4); that a
command is in progress exactly in BUSY speaks of the model's phase (log entry 9). -/
def Obligations.StepKeepsControlConsistent : Prop :=
  ∀ s t : State, s.Consistent → step s = .next t → t.Consistent

/-- Every step keeps every valid memory written over its whole valid extent (R37 to R44, R151, R279). The clauses about a
command in progress speak of the model's phase (log entry 9), and those about a `PALLOAD` and an `NTPARSE` of counts
written word by word, which is its choice (log entry 12). -/
def Obligations.StepKeepsExtentsWritten : Prop :=
  ∀ s t : State, s.ExtentsWritten → step s = .next t → t.ExtentsWritten

/-- The three invariants hold at reset; they speak of the model's canonical form and phase too (log entries 3 and 9). -/
def Obligations.ResetMeetsInvariants : Prop :=
  State.reset.MemoriesWf ∧ State.reset.Consistent ∧ State.reset.ExtentsWritten

/-- R44, R83: no instruction writes a memory, its count registers or its valid bit but the ones that produce it; none
but `SRESET` writes SRC or `SRC_LEN`. -/
def Obligations.MemoriesHaveOneProducer : Prop :=
  ∀ (i : Instr) (s t : State), exec i s = .next t →
    (mayWrite .src i = false → t.src = s.src ∧ t.srcLen = s.srcLen)
    ∧ (mayWrite .lit i = false → t.lit = s.lit ∧ t.litV = s.litV ∧ t.litLen = s.litLen)
    ∧ (mayWrite .out i = false →
        t.out = s.out ∧ t.outV = s.outV ∧ t.outLen = s.outLen ∧ t.decompPos = s.decompPos)
    ∧ (mayWrite .tile i = false →
        t.tile = s.tile ∧ t.tileV = s.tileV ∧ t.tileCnt = s.tileCnt ∧ t.tileBpp = s.tileBpp)
    ∧ (mayWrite .pal i = false → t.pal = s.pal ∧ t.palV = s.palV ∧ t.palCnt = s.palCnt)
    ∧ (mayWrite .nt i = false → t.nt = s.nt ∧ t.ntV = s.ntV ∧ t.ntCnt = s.ntCnt)
    ∧ (mayWrite .fb i = false → t.fb = s.fb ∧ t.fbV = s.fbV ∧ t.imgW = s.imgW ∧ t.imgH = s.imgH)

/-- R23, R47: `RESULT` is written only by the four commands, and only when they end ok; no instruction changes the
configuration, the HOST's pending actions or what it last read. -/
def Obligations.ResultHasFourWriters : Prop :=
  ∀ (i : Instr) (s t : State), exec i s = .next t →
    (mayWriteResult i = false → t.result = s.result)
    ∧ (i ≠ .sreset → t.st = .fault → t.result = s.result)
    ∧ t.cfg = s.cfg ∧ t.hostq = s.hostq ∧ t.rdata = s.rdata

/-- R26, R252, R253: a latched fault stays as it is until `CLRERR`, `SRESET` or a reset: any other HOST action, every
other word written to `CMD` too, leaves `ERR` and FAULT. -/
def Obligations.LatchedFaultStays : Prop :=
  ∀ (s t : State) (op : HostOp) (rest : List HostOp), s.st = .fault → s.hostq = op :: rest → op ≠ .reset →
    (∀ a d, op = .write a d → resolve s.cfg a = some (.reg 0) → d ≠ 0x000000F0#32 ∧ d ≠ 0x000000F1#32) →
    step s = .next t → t.st = .fault ∧ t.err = s.err

/-! ## Flags and the HOST's side -/

/-- R25: the bits of `STATUS`; every bit not listed reads 0. -/
def Obligations.StatusBits : Prop :=
  ∀ (s : State) (i : Nat),
    s.status.getLsbD i =
      if i = 0 then s.st == .busy
      else if i = 1 then s.st == .fault
      else if i = 2 then s.done
      else if i = 3 then decide (8 * s.srcLen.toNat ≤ s.bitPos.toNat)
      else if i = 8 then s.litV
      else if i = 9 then s.outV
      else if i = 10 then s.tileV
      else if i = 11 then s.palV
      else if i = 12 then s.ntV
      else if i = 13 then s.fbV
      else false

/-- R76, R36: the address map. With windows that do not overlap, each address of a window names what R76 says: the
register at its offset, reserved offsets too; the byte of SRC, LIT, OUT, TILE or FB; the entry of PAL at four times its
index; the word of NT at twice its index. An address in no window, or inside a register, an entry or a word, names
nothing (log entry 6). The default bases and capacities are R76's and R7's. -/
def Obligations.AddressMap : Prop :=
  (∀ (c : Config) (a : Word), WindowsApart c →
    (∀ o, a.toNat = c.regBase.toNat + o → o < 0x100 →
        resolve c a = if o % 4 = 0 ∨ 0x44 ≤ o then some (.reg o) else none)
    ∧ (∀ i, a.toNat = c.srcBase.toNat + i → i < c.srcCap → resolve c a = some (.elem .src i))
    ∧ (∀ i, a.toNat = c.litBase.toNat + i → i < 65533 → resolve c a = some (.elem .lit i))
    ∧ (∀ i, a.toNat = c.outBase.toNat + i → i < 65535 → resolve c a = some (.elem .out i))
    ∧ (∀ i, a.toNat = c.tileBase.toNat + i → i < 64 * c.tileCap → resolve c a = some (.elem .tile i))
    ∧ (∀ i k, a.toNat = c.palBase.toNat + 4 * i + k → i < c.palCap → k < 4 →
        resolve c a = if k = 0 then some (.elem .pal i) else none)
    ∧ (∀ i k, a.toNat = c.ntBase.toNat + 2 * i + k → i < c.ntCap → k < 2 →
        resolve c a = if k = 0 then some (.elem .nt i) else none)
    ∧ (∀ i, a.toNat = c.fbBase.toNat + i → i < c.fbCap → resolve c a = some (.elem .fb i))
    ∧ ((∀ w ∈ hostWindows c, a.toNat < w.1 ∨ w.1 + w.2 ≤ a.toNat) → resolve c a = none))
  ∧ WindowsApart Config.standard
  ∧ hostWindows Config.standard =
      [(0x00000000, 0x100), (0x00100000, 262144), (0x00200000, 65533), (0x00300000, 65535), (0x00400000, 1048576),
        (0x00800000, 524288), (0x00C00000, 262144), (0x01000000, 16777216)]

/-- R36, R76, R77: outside BUSY a HOST read of a register returns its value, 0 for `CMD` and the reserved offsets; a read
of an element in the valid extent of a memory returns the element, PAL's as `0x00RRGGBB`, NT's as its 16-bit word; and
whatever the address, a read changes nothing of the spec's. What a read outside a valid extent returns is open (U2, log
entry 6); the value read and the counter are the model's own (log entries 2, 8, 15). -/
def Obligations.HostReads : Prop :=
  ∀ (s : State) (a : Word) (rest : List HostOp), s.st ≠ .busy → s.hostq = .read a :: rest →
    ∃ (v : Word) (c : Nat), step s = .next { s with hostq := rest, rdata := v, freeCtr := c }
      ∧ (∀ o, resolve s.cfg a = some (.reg o) →
        v = (if o = 0x04 then s.status else if o = 0x08 then s.err else if o = 0x0C then s.result
          else if o = 0x10 then s.srcLen else if o = 0x14 then s.bitPos else if o = 0x18 then s.litLen
          else if o = 0x1C then s.dataPos else if o = 0x20 then s.outLen else if o = 0x24 then s.decompPos
          else if o = 0x28 then s.nextCmd else if o = 0x2C then s.tileCnt else if o = 0x30 then s.tileBpp
          else if o = 0x34 then s.palCnt else if o = 0x38 then s.ntCnt else if o = 0x3C then s.imgW
          else if o = 0x40 then s.imgH else 0#32))
      ∧ (∀ i, resolve s.cfg a = some (.elem .src i) → i < s.srcLen.toNat → v = (s.src.read i).setWidth 32)
      ∧ (∀ i, resolve s.cfg a = some (.elem .lit i) → s.litV = true → i < s.litLen.toNat →
          v = (s.lit.read i).setWidth 32)
      ∧ (∀ i, resolve s.cfg a = some (.elem .out i) → s.outV = true → i < s.outLen.toNat →
          v = (s.out.read i).setWidth 32)
      ∧ (∀ i, resolve s.cfg a = some (.elem .tile i) → s.tileV = true → i < 64 * s.tileCnt.toNat →
          v = (s.tile.read i).setWidth 32)
      ∧ (∀ i, resolve s.cfg a = some (.elem .pal i) → s.palV = true → i < s.palCnt.toNat →
          v = (s.pal.read i).setWidth 32)
      ∧ (∀ i, resolve s.cfg a = some (.elem .nt i) → s.ntV = true → i < s.ntCnt.toNat →
          v = (s.nt.read i).setWidth 32)
      ∧ (∀ i, resolve s.cfg a = some (.elem .fb i) → s.fbV = true → i < 4 * (s.imgW.toNat * s.imgH.toNat) →
          v = (s.fb.read i).setWidth 32)

/-- R36, R76, R77: outside BUSY a HOST write, other than to `CMD`, changes only the location written: `SRC_LEN`,
`BITPOS`, a byte of SRC; a read-only register or window and a reserved offset ignore it. That a byte of SRC at or above
`SRC_LEN` is kept, and that a write to an address that names nothing is ignored, are the model's (log entry 7); that SRC
takes the low 8 bits is its choice (log entry 15). -/
def Obligations.HostWritesOnlyItsTarget : Prop :=
  ∀ (s : State) (a d : Word) (rest : List HostOp) (t : Option Target), s.st ≠ .busy → s.hostq = .write a d :: rest →
    resolve s.cfg a = t → t ≠ some (.reg 0) →
    ∃ s' : State, step s = .next s'
      ∧ (t = some (.reg 0x10) → s' = { s with hostq := rest, srcLen := d })
      ∧ (t = some (.reg 0x14) → s' = { s with hostq := rest, bitPos := d })
      ∧ (∀ i, t = some (.elem .src i) →
          s' = { s with hostq := rest, src := s'.src }
            ∧ ∀ k, s'.src.read k = if k = i then d.setWidth 8 else s.src.read k)
      ∧ (t ≠ some (.reg 0x10) → t ≠ some (.reg 0x14) → (∀ i, t ≠ some (.elem .src i)) →
          s' = { s with hostq := rest })

/-- R274, R275, U5: while BUSY a `CMD` write is ignored, a read of `STATUS` shows `BUSY` and not `FAULT`, and any other
write stops the model by name. -/
def Obligations.HostAccessWhileBusy : Prop :=
  ∀ (s : State) (rest : List HostOp), s.st = .busy →
    (∀ a c, s.hostq = .write a c :: rest → resolve s.cfg a = some (.reg 0) → step s = .next { s with hostq := rest })
    ∧ (∀ a, s.hostq = .read a :: rest → resolve s.cfg a = some (.reg 0x04) →
        ∃ t, step s = .next t ∧ t.rdata.getLsbD 0 = true ∧ t.rdata.getLsbD 1 = false
          ∧ t = { s with hostq := rest, rdata := t.rdata, freeCtr := t.freeCtr })
    ∧ (∀ a d, s.hostq = .write a d :: rest → resolve s.cfg a ≠ some (.reg 0) →
        step s = .refused .hostTouchedBusy)
end

