-- ==== Sys2Proof/Laws/Decode.lean ====
section
/-! SUPPORT. The laws of the decoders: bounds of the values and lengths read, what they depend on, and which command word
decodes to what. -/

namespace Sys2Proof

/-! ## Fields and varints -/

theorem bitsValue_lt (bit : Nat → Bool) (pos n : Nat) : bitsValue bit pos n < 2 ^ n := by
  induction n with
  | zero => simp [bitsValue]
  | succ n ih =>
    have h : (bit (pos + n)).toNat ≤ 1 := Bool.toNat_le _
    rw [bitsValue, Nat.pow_succ]; omega

/-- A field depends on its own bits only. -/
theorem bitsValue_congr {bit bit' : Nat → Bool} {pos n : Nat}
    (h : ∀ i, i < n → bit (pos + i) = bit' (pos + i)) : bitsValue bit pos n = bitsValue bit' pos n := by
  induction n with
  | zero => rfl
  | succ n ih =>
    rw [bitsValue, bitsValue, ih (fun i hi => h i (by omega)), h n (by omega)]

/-- A varint consumes no more than what is left (R123). -/
theorem varintFrom_consumed_le (bit : Nat → Bool) (rem pos acc : Nat) : (varintFrom bit rem pos acc).2 ≤ rem := by
  induction rem using Nat.twoStepInduction generalizing pos acc with
  | zero => simp [varintFrom]
  | one => simp [varintFrom]
  | more n ih _ =>
    by_cases h : bit pos
    · simp [varintFrom, h]
    · have := ih (pos + 2) (2 * acc + (bit (pos + 1)).toNat)
      simp [varintFrom, h]; omega

/-- A varint is at least its accumulator, so at least 1 when read from `VARINT_INIT` (R123). -/
theorem varintFrom_value_ge (bit : Nat → Bool) (rem pos acc : Nat) : acc ≤ (varintFrom bit rem pos acc).1 := by
  induction rem using Nat.twoStepInduction generalizing pos acc with
  | zero => simp [varintFrom]
  | one => simp [varintFrom]
  | more n ih _ =>
    by_cases h : bit pos
    · simp [varintFrom, h]
    · have := ih (pos + 2) (2 * acc + (bit (pos + 1)).toNat)
      simp [varintFrom, h]; omega

/-- A varint depends on the bits that are left only. -/
theorem varintFrom_congr {bit bit' : Nat → Bool} {rem pos acc : Nat}
    (h : ∀ i, i < rem → bit (pos + i) = bit' (pos + i)) :
    varintFrom bit rem pos acc = varintFrom bit' rem pos acc := by
  induction rem using Nat.twoStepInduction generalizing pos acc with
  | zero => rfl
  | one => rfl
  | more n ih _ =>
    have h0 := h 0 (by omega)
    have h1 := h 1 (by omega)
    rw [Nat.add_zero] at h0
    rw [varintFrom, varintFrom, h0, h1,
      ih (fun i hi => by have := h (i + 2) (by omega); rwa [show pos + (i + 2) = pos + 2 + i by omega] at this)]

theorem Config.saturated_pos (c : Config) {v : Nat} (h : 1 ≤ v) : 1 ≤ c.saturated v := by
  unfold Config.saturated
  split
  · exact h
  · rename_i w _
    have : 2 ^ 16 ≤ 2 ^ max w 16 := Nat.pow_le_pow_right (by decide) (by omega)
    omega

/-- Inside `DECOMP` no width shows (U8): a value at or above the space left, of at most 65535, behaves like any other. -/
theorem Config.saturated_min (c : Config) (v k : Nat) {x : Nat} (h : x ≤ 65535) :
    min (c.saturated v + k) x = min (v + k) x := by
  unfold Config.saturated
  split
  · rfl
  · rename_i w _
    have : 2 ^ 16 ≤ 2 ^ max w 16 := Nat.pow_le_pow_right (by decide) (by omega)
    omega

/-- Which values an instance's accumulator is too narrow for (R11). -/
theorem Config.varintTooWide_iff (c : Config) (v : Nat) :
    c.varintTooWide v = true ↔ v < 2 ^ 32 ∧ ∃ w, c.varintW = some w ∧ 2 ^ w ≤ v := by
  unfold Config.varintTooWide
  cases c.varintW with
  | none => simp
  | some w => simp [and_comm]

theorem bitlen_pos {x : Nat} (h : x ≠ 0) : 1 ≤ bitlen x := by simp [bitlen, h]

theorem lt_two_pow_bitlen (x : Nat) : x < 2 ^ bitlen x := by
  by_cases h : x = 0
  · simp [bitlen, h]
  · simpa [bitlen, h] using Nat.lt_log2_self

/-- A position below 2^16 has a source field of at most 16 bits (R99, R145). -/
theorem bitlen_le_of_lt {x k : Nat} (h : x < 2 ^ k) : bitlen x ≤ k := by
  by_cases h0 : x = 0
  · simp [bitlen, h0]
  · simp only [bitlen, h0, if_false]
    exact Nat.succ_le_of_lt ((Nat.log2_lt h0).mpr h)

/-! ## Tokens -/

/-- What a token read can answer: each due place with its own instruction, no more bits than are left. -/
theorem decodeToken_cases {due : StreamDue} {dp pos rem n : Nat} {bit : Nat → Bool} {i : Instr}
    (h : decodeToken due dp bit pos rem = .ok (i, n)) :
    n ≤ rem ∧
      ((due = .header ∧ n = 32 ∧ i = .blockhdr (BitVec.ofNat 16 (bitsValue bit pos 16))
          (BitVec.ofNat 16 (bitsValue bit (pos + 16) 16)))
      ∨ (due = .lit ∧ ∃ v, i = .lit v ∧ (v, n) = varintFrom bit rem pos 1 ∧ 1 ≤ v)
      ∨ (due = .ref ∧ ∃ v k, i = .ref (bitsValue bit pos (bitlen dp)) v ∧ n = bitlen dp + k ∧ bitlen dp ≤ rem
          ∧ (v, k) = varintFrom bit (rem - bitlen dp) (pos + bitlen dp) 1 ∧ 1 ≤ v)
      ∨ (due = .cmdbit ∧ n = 1 ∧ i = .cmdbit (bit pos))
      ∨ (due = .varint ∧ ∃ v, i = .varint v ∧ (v, n) = varintFrom bit rem pos 1 ∧ 1 ≤ v)) := by
  cases due with
  | header =>
    simp only [decodeToken] at h
    split at h
    · cases h
    · cases h; exact ⟨by omega, .inl ⟨rfl, rfl, rfl⟩⟩
  | lit =>
    simp only [decodeToken, varintInit, Except.ok.injEq, Prod.mk.injEq] at h
    obtain ⟨rfl, rfl⟩ := h
    exact ⟨varintFrom_consumed_le .., .inr (.inl ⟨rfl, _, rfl, rfl, varintFrom_value_ge bit rem pos 1⟩)⟩
  | ref =>
    simp only [decodeToken, varintInit] at h
    split at h
    · cases h
    · cases h
      have := varintFrom_consumed_le bit (rem - bitlen dp) (pos + bitlen dp) 1
      exact ⟨by omega,
        .inr (.inr (.inl ⟨rfl, _, _, rfl, rfl, by omega, rfl, varintFrom_value_ge bit (rem - bitlen dp) (pos + bitlen dp) 1⟩))⟩
  | cmdbit =>
    simp only [decodeToken] at h
    split at h
    · cases h
    · cases h; exact ⟨by omega, .inr (.inr (.inr (.inl ⟨rfl, rfl, rfl⟩)))⟩
  | varint =>
    simp only [decodeToken, varintInit, Except.ok.injEq, Prod.mk.injEq] at h
    obtain ⟨rfl, rfl⟩ := h
    exact ⟨varintFrom_consumed_le .., .inr (.inr (.inr (.inr ⟨rfl, _, rfl, rfl, varintFrom_value_ge bit rem pos 1⟩)))⟩

/-! ## Command words -/

/-- What the check of a word answers. -/
theorem checkedCommand_ok {c m : Word} {i j : Instr} (h : checkedCommand c m i = .ok j) :
    j = i ∧ c &&& m = 0#32 ∧ i.wellFormed = true := by
  unfold checkedCommand at h
  split at h
  · split at h
    · cases h; exact ⟨rfl, ‹_›, ‹_›⟩
    · cases h
  · cases h

/-- A word that passes the check. -/
theorem checkedCommand_of {c m : Word} {i : Instr} (hm : c &&& m = 0#32) (hw : i.wellFormed = true) :
    checkedCommand c m i = .ok i := by simp [checkedCommand, hm, hw]

end Sys2Proof
end

