-- ==== Sys2Proof/Laws/Memory.lean ====
section
/-! SUPPORT. The laws of a memory: a read after a write, the canonical form, the extents that are specified, and what the
two copies of the decompressor do. -/

namespace Sys2Proof.Machine

open Sys2Proof

variable {w : Nat}

/-! ## Lists of cells -/

theorem cellsLookup_insert_same (a : Nat) (v : BitVec w) (l : List (Nat × BitVec w)) :
    cellsLookup (cellsInsert a v l) a = some v := by
  induction l with
  | nil => simp [cellsInsert, cellsLookup]
  | cons c t ih =>
    obtain ⟨k, x⟩ := c
    by_cases h : a < k
    · simp [cellsInsert, cellsLookup, h]
    · by_cases h' : a = k
      · subst h'; simp [cellsInsert, cellsLookup]
      · have hk : ¬ k = a := fun e => h' e.symm
        simp [cellsInsert, cellsLookup, h, h', hk, ih]

theorem cellsLookup_insert_other {a b : Nat} (hab : b ≠ a) (v : BitVec w) (l : List (Nat × BitVec w)) :
    cellsLookup (cellsInsert a v l) b = cellsLookup l b := by
  have hba : ¬ a = b := fun e => hab e.symm
  induction l with
  | nil => simp [cellsInsert, cellsLookup, hba]
  | cons c t ih =>
    obtain ⟨k, x⟩ := c
    by_cases h : a < k
    · simp [cellsInsert, cellsLookup, h, hba]
    · by_cases h' : a = k
      · subst h'; simp [cellsInsert, cellsLookup, hba]
      · by_cases hk : k = b
        · rw [cellsInsert, if_neg h, if_neg h']; simp [cellsLookup, hk]
        · rw [cellsInsert, if_neg h, if_neg h']; simp [cellsLookup, hk, ih]

theorem mem_cellsInsert {a : Nat} {v : BitVec w} {l : List (Nat × BitVec w)} {c : Nat × BitVec w}
    (h : c ∈ cellsInsert a v l) : c = (a, v) ∨ c ∈ l := by
  induction l with
  | nil => simp only [cellsInsert, List.mem_singleton] at h; exact .inl h
  | cons d t ih =>
    obtain ⟨k, x⟩ := d
    by_cases h1 : a < k
    · simp only [cellsInsert, h1, if_true, List.mem_cons] at h ⊢; exact h
    · by_cases h2 : a = k
      · rw [cellsInsert, if_neg h1, if_pos h2] at h
        rcases List.mem_cons.mp h with h | h
        · exact .inl h
        · exact .inr (List.mem_cons_of_mem _ h)
      · simp only [cellsInsert, h1, h2, if_false, List.mem_cons] at h ⊢
        rcases h with h | h
        · exact .inr (.inl h)
        · rcases ih h with e | e
          · exact .inl e
          · exact .inr (.inr e)

theorem cellsInsert_sorted (a : Nat) (v : BitVec w) {l : List (Nat × BitVec w)}
    (h : l.Pairwise fun x y => x.1 < y.1) : (cellsInsert a v l).Pairwise fun x y => x.1 < y.1 := by
  induction l with
  | nil => simp [cellsInsert]
  | cons c t ih =>
    obtain ⟨k, x⟩ := c
    obtain ⟨hk, ht⟩ := List.pairwise_cons.mp h
    by_cases h1 : a < k
    · simp only [cellsInsert, h1, if_true]
      refine List.pairwise_cons.mpr ⟨fun c hc => ?_, h⟩
      rcases List.mem_cons.mp hc with rfl | hc
      · exact h1
      · exact Nat.lt_trans h1 (hk c hc)
    · by_cases h2 : a = k
      · subst h2
        simp only [cellsInsert, lt_irrefl, if_false, if_true]
        exact List.pairwise_cons.mpr ⟨hk, ht⟩
      · simp only [cellsInsert, h1, h2, if_false]
        refine List.pairwise_cons.mpr ⟨fun c hc => ?_, ih ht⟩
        rcases mem_cellsInsert hc with rfl | hc
        · exact Nat.lt_of_le_of_ne (Nat.le_of_not_lt h1) (fun e => h2 e.symm)
        · exact hk c hc

theorem cellsLookup_from (l : List (BitVec w)) (i a : Nat) :
    cellsLookup (cellsFrom i l) a = if i ≤ a then l[a - i]? else none := by
  induction l generalizing i with
  | nil => simp [cellsFrom, cellsLookup]
  | cons v t ih =>
    by_cases h : i = a
    · subst h; simp [cellsFrom, cellsLookup]
    · by_cases h1 : i ≤ a
      · have h2 : i + 1 ≤ a := by omega
        have h3 : a - i = (a - (i + 1)) + 1 := by omega
        simp [cellsFrom, cellsLookup, h, h1, h2, ih, h3]
      · have h2 : ¬ i + 1 ≤ a := by omega
        simp [cellsFrom, cellsLookup, h, h1, h2, ih]

theorem cellsFrom_keys_ge (l : List (BitVec w)) (i : Nat) : ∀ c ∈ cellsFrom i l, i ≤ c.1 := by
  induction l generalizing i with
  | nil => simp [cellsFrom]
  | cons v t ih =>
    intro c hc
    rcases List.mem_cons.mp hc with rfl | hc
    · exact Nat.le_refl _
    · exact Nat.le_trans (Nat.le_succ i) (ih (i + 1) c hc)

theorem cellsFrom_sorted (l : List (BitVec w)) (i : Nat) : (cellsFrom i l).Pairwise fun x y => x.1 < y.1 := by
  induction l generalizing i with
  | nil => simp [cellsFrom]
  | cons v t ih =>
    exact List.pairwise_cons.mpr ⟨fun c hc => cellsFrom_keys_ge t (i + 1) c hc, ih (i + 1)⟩

/-! ## Reads and writes -/

@[simp] theorem Memory.lookup_write_same (m : Memory w) (a : Nat) (v : BitVec w) :
    (m.write a v).lookup a = some v := cellsLookup_insert_same a v m.cells

theorem Memory.lookup_write_other (m : Memory w) {a b : Nat} (h : b ≠ a) (v : BitVec w) :
    (m.write a v).lookup b = m.lookup b := cellsLookup_insert_other h v m.cells

@[simp] theorem Memory.write_gen (m : Memory w) (a : Nat) (v : BitVec w) : (m.write a v).gen = m.gen := rfl

theorem Memory.read_eq (m : Memory w) (a : Nat) :
    m.read a = (m.lookup a).getD (Config.freeElem w m.gen a) := rfl

theorem Memory.read_of_lookup {m : Memory w} {a : Nat} {v : BitVec w} (h : m.lookup a = some v) : m.read a = v := by
  rw [Memory.read_eq, h]; rfl

@[simp] theorem Memory.read_write_same (m : Memory w) (a : Nat) (v : BitVec w) : (m.write a v).read a = v :=
  Memory.read_of_lookup (m.lookup_write_same a v)

theorem Memory.read_write_other (m : Memory w) {a b : Nat} (h : b ≠ a) (v : BitVec w) :
    (m.write a v).read b = m.read b := by
  rw [Memory.read_eq, Memory.read_eq, Memory.lookup_write_other m h, Memory.write_gen]

theorem Memory.read_congr {m n : Memory w} (hg : m.gen = n.gen) {a : Nat} (h : m.lookup a = n.lookup a) :
    m.read a = n.read a := by
  rw [Memory.read_eq, Memory.read_eq, h, hg]

@[simp] theorem Memory.lookup_unspecified (g a : Nat) : (Memory.unspecified g : Memory w).lookup a = none := rfl

theorem Memory.lookup_ofList (g : Nat) (l : List (BitVec w)) (a : Nat) : (Memory.ofList g l).lookup a = l[a]? := by
  simpa [Memory.lookup, Memory.ofList] using cellsLookup_from l 0 a

theorem Memory.readList_length (m : Memory w) (a n : Nat) : (m.readList a n).length = n := by
  induction n generalizing a with
  | zero => rfl
  | succ n ih => simp [Memory.readList, ih]

theorem Memory.readList_getElem? (m : Memory w) (a n i : Nat) :
    (m.readList a n)[i]? = if i < n then some (m.read (a + i)) else none := by
  induction n generalizing a i with
  | zero => simp [Memory.readList]
  | succ n ih =>
    cases i with
    | zero => simp [Memory.readList]
    | succ i =>
      have h : a + 1 + i = a + (i + 1) := by omega
      simp [Memory.readList, ih, h]

/-! ## The canonical form -/

theorem Memory.wf_unspecified (g : Nat) : (Memory.unspecified g : Memory w).wf := List.Pairwise.nil

theorem Memory.wf_ofList (g : Nat) (l : List (BitVec w)) : (Memory.ofList g l).wf := cellsFrom_sorted l 0

theorem Memory.wf_write {m : Memory w} (h : m.wf) (a : Nat) (v : BitVec w) : (m.write a v).wf :=
  cellsInsert_sorted a v h

theorem wf_copyAcross (src : Memory 8) (n a d : Nat) {m : Memory 8} (h : m.wf) : (copyAcross src n a d m).wf := by
  induction n generalizing a d m with
  | zero => exact h
  | succ n ih => exact ih (a + 1) (d + 1) (Memory.wf_write h d _)

theorem wf_copyWithin (n a d : Nat) {m : Memory 8} (h : m.wf) : (copyWithin n a d m).wf := by
  induction n generalizing a d m with
  | zero => exact h
  | succ n ih => exact ih (a + 1) (d + 1) (Memory.wf_write h d _)

/-! ## What the copies do -/

@[simp] theorem copyAcross_gen (src : Memory 8) (n a d : Nat) (m : Memory 8) :
    (copyAcross src n a d m).gen = m.gen := by
  induction n generalizing a d m with
  | zero => rfl
  | succ n ih => exact ih (a + 1) (d + 1) _

@[simp] theorem copyWithin_gen (n a d : Nat) (m : Memory 8) : (copyWithin n a d m).gen = m.gen := by
  induction n generalizing a d m with
  | zero => rfl
  | succ n ih => exact ih (a + 1) (d + 1) _

/-- The literal copy writes the addresses `d … d + n - 1`, each with its source element, and no other. -/
theorem lookup_copyAcross (src : Memory 8) (n a d : Nat) (m : Memory 8) (k : Nat) :
    (copyAcross src n a d m).lookup k =
      if d ≤ k ∧ k < d + n then some (src.read (a + (k - d))) else m.lookup k := by
  induction n generalizing a d m with
  | zero =>
    have h : ¬ (d ≤ k ∧ k < d + 0) := by omega
    rw [if_neg h]; rfl
  | succ n ih =>
    rw [copyAcross, ih]
    by_cases hk : k = d
    · subst hk
      have h1 : ¬ (k + 1 ≤ k ∧ k < k + 1 + n) := by omega
      have h2 : k ≤ k ∧ k < k + (n + 1) := by omega
      rw [if_neg h1, if_pos h2]; simp
    · by_cases h : d ≤ k ∧ k < d + (n + 1)
      · have h1 : d + 1 ≤ k ∧ k < d + 1 + n := by omega
        have h2 : a + 1 + (k - (d + 1)) = a + (k - d) := by omega
        rw [if_pos h, if_pos h1, h2]
      · have h1 : ¬ (d + 1 ≤ k ∧ k < d + 1 + n) := by omega
        rw [if_neg h, if_neg h1, Memory.lookup_write_other m hk]

/-- The overlapping copy leaves every address outside `d … d + n - 1` as it was. -/
theorem lookup_copyWithin_outside (n a d : Nat) (m : Memory 8) {k : Nat} (h : k < d ∨ d + n ≤ k) :
    (copyWithin n a d m).lookup k = m.lookup k := by
  induction n generalizing a d m with
  | zero => rfl
  | succ n ih =>
    rw [copyWithin, ih (a + 1) (d + 1) _ (by omega), Memory.lookup_write_other m (by omega)]

/-- The overlapping copy writes every address of `d … d + n - 1`. -/
theorem lookup_copyWithin_inside (n a d : Nat) (m : Memory 8) {k : Nat} (h : d ≤ k ∧ k < d + n) :
    ((copyWithin n a d m).lookup k).isSome = true := by
  induction n generalizing a d m with
  | zero => omega
  | succ n ih =>
    rw [copyWithin]
    by_cases hk : k = d
    · subst hk
      rw [lookup_copyWithin_outside n (a + 1) (k + 1) _ (.inl (Nat.lt_succ_self k))]; simp
    · exact ih (a + 1) (d + 1) _ (by omega)

/-- One byte of the overlapping copy, as it is when it is read: every earlier byte of the copy has been written. -/
theorem copyWithin_succ_last (n a d : Nat) (m : Memory 8) :
    copyWithin (n + 1) a d m = (copyWithin n a d m).write (d + n) ((copyWithin n a d m).read (a + n)) := by
  induction n generalizing a d m with
  | zero => rfl
  | succ n ih =>
    rw [copyWithin, ih (a + 1) (d + 1), copyWithin]
    have h1 : d + 1 + n = d + (n + 1) := by omega
    have h2 : a + 1 + n = a + (n + 1) := by omega
    rw [h1, h2]

/-! ## Specified extents -/

theorem Memory.covers_mono {m : Memory w} {n k : Nat} (h : m.Covers n) (hk : k ≤ n) : m.Covers k :=
  fun i hi => h i (Nat.lt_of_lt_of_le hi hk)

theorem Memory.covers_zero (m : Memory w) : m.Covers 0 := fun i hi => absurd hi (Nat.not_lt_zero i)

theorem Memory.covers_ofList (g : Nat) (l : List (BitVec w)) : (Memory.ofList g l).Covers l.length := by
  intro i hi
  rw [Memory.lookup_ofList]; simp [hi]

theorem Memory.covers_write_next {m : Memory w} {n : Nat} (h : m.Covers n) (v : BitVec w) :
    (m.write n v).Covers (n + 1) := by
  intro i hi
  by_cases e : i = n
  · subst e; simp
  · rw [Memory.lookup_write_other m e]; exact h i (by omega)

theorem covers_copyAcross (src : Memory 8) {n a d : Nat} {m : Memory 8} (h : m.Covers d) :
    (copyAcross src n a d m).Covers (d + n) := by
  intro i hi
  rw [lookup_copyAcross]
  by_cases e : d ≤ i ∧ i < d + n
  · simp [e]
  · rw [if_neg e]; exact h i (by omega)

theorem covers_copyWithin {n a d : Nat} {m : Memory 8} (h : m.Covers d) : (copyWithin n a d m).Covers (d + n) := by
  intro i hi
  by_cases e : d ≤ i ∧ i < d + n
  · exact lookup_copyWithin_inside n a d m e
  · rw [lookup_copyWithin_outside n a d m (by omega)]; exact h i (by omega)

end Sys2Proof.Machine
end

