-- ==== Sys2Proof/Laws/State.lean ====
section
/-! SUPPORT. What each shared update of the state leaves in each field: one lemma per field per update, so that no proof
unfolds a record update. -/

namespace Sys2Proof.Machine

open Sys2Proof

/-! ## Taking the HOST's next action -/

@[simp] theorem State.popHost_cfg (s : State) : (s.popHost).cfg = s.cfg := rfl
@[simp] theorem State.popHost_st (s : State) : (s.popHost).st = s.st := rfl
@[simp] theorem State.popHost_done (s : State) : (s.popHost).done = s.done := rfl
@[simp] theorem State.popHost_litV (s : State) : (s.popHost).litV = s.litV := rfl
@[simp] theorem State.popHost_outV (s : State) : (s.popHost).outV = s.outV := rfl
@[simp] theorem State.popHost_tileV (s : State) : (s.popHost).tileV = s.tileV := rfl
@[simp] theorem State.popHost_palV (s : State) : (s.popHost).palV = s.palV := rfl
@[simp] theorem State.popHost_ntV (s : State) : (s.popHost).ntV = s.ntV := rfl
@[simp] theorem State.popHost_fbV (s : State) : (s.popHost).fbV = s.fbV := rfl
@[simp] theorem State.popHost_err (s : State) : (s.popHost).err = s.err := rfl
@[simp] theorem State.popHost_result (s : State) : (s.popHost).result = s.result := rfl
@[simp] theorem State.popHost_srcLen (s : State) : (s.popHost).srcLen = s.srcLen := rfl
@[simp] theorem State.popHost_bitPos (s : State) : (s.popHost).bitPos = s.bitPos := rfl
@[simp] theorem State.popHost_litLen (s : State) : (s.popHost).litLen = s.litLen := rfl
@[simp] theorem State.popHost_dataPos (s : State) : (s.popHost).dataPos = s.dataPos := rfl
@[simp] theorem State.popHost_outLen (s : State) : (s.popHost).outLen = s.outLen := rfl
@[simp] theorem State.popHost_decompPos (s : State) : (s.popHost).decompPos = s.decompPos := rfl
@[simp] theorem State.popHost_nextCmd (s : State) : (s.popHost).nextCmd = s.nextCmd := rfl
@[simp] theorem State.popHost_tileCnt (s : State) : (s.popHost).tileCnt = s.tileCnt := rfl
@[simp] theorem State.popHost_tileBpp (s : State) : (s.popHost).tileBpp = s.tileBpp := rfl
@[simp] theorem State.popHost_palCnt (s : State) : (s.popHost).palCnt = s.palCnt := rfl
@[simp] theorem State.popHost_ntCnt (s : State) : (s.popHost).ntCnt = s.ntCnt := rfl
@[simp] theorem State.popHost_imgW (s : State) : (s.popHost).imgW = s.imgW := rfl
@[simp] theorem State.popHost_imgH (s : State) : (s.popHost).imgH = s.imgH := rfl
@[simp] theorem State.popHost_src (s : State) : (s.popHost).src = s.src := rfl
@[simp] theorem State.popHost_lit (s : State) : (s.popHost).lit = s.lit := rfl
@[simp] theorem State.popHost_out (s : State) : (s.popHost).out = s.out := rfl
@[simp] theorem State.popHost_tile (s : State) : (s.popHost).tile = s.tile := rfl
@[simp] theorem State.popHost_pal (s : State) : (s.popHost).pal = s.pal := rfl
@[simp] theorem State.popHost_nt (s : State) : (s.popHost).nt = s.nt := rfl
@[simp] theorem State.popHost_fb (s : State) : (s.popHost).fb = s.fb := rfl
@[simp] theorem State.popHost_phase (s : State) : (s.popHost).phase = s.phase := rfl
@[simp] theorem State.popHost_hostq (s : State) : (s.popHost).hostq = s.hostq.tail := rfl
@[simp] theorem State.popHost_rdata (s : State) : (s.popHost).rdata = s.rdata := rfl
@[simp] theorem State.popHost_freeCtr (s : State) : (s.popHost).freeCtr = s.freeCtr := rfl

/-! ## Accepting a command -/

@[simp] theorem State.accept_cfg (s : State) : (s.accept).cfg = s.cfg := rfl
@[simp] theorem State.accept_st (s : State) : (s.accept).st = .busy := rfl
@[simp] theorem State.accept_done (s : State) : (s.accept).done = false := rfl
@[simp] theorem State.accept_litV (s : State) : (s.accept).litV = s.litV := rfl
@[simp] theorem State.accept_outV (s : State) : (s.accept).outV = s.outV := rfl
@[simp] theorem State.accept_tileV (s : State) : (s.accept).tileV = s.tileV := rfl
@[simp] theorem State.accept_palV (s : State) : (s.accept).palV = s.palV := rfl
@[simp] theorem State.accept_ntV (s : State) : (s.accept).ntV = s.ntV := rfl
@[simp] theorem State.accept_fbV (s : State) : (s.accept).fbV = s.fbV := rfl
@[simp] theorem State.accept_err (s : State) : (s.accept).err = s.err := rfl
@[simp] theorem State.accept_result (s : State) : (s.accept).result = s.result := rfl
@[simp] theorem State.accept_srcLen (s : State) : (s.accept).srcLen = s.srcLen := rfl
@[simp] theorem State.accept_bitPos (s : State) : (s.accept).bitPos = s.bitPos := rfl
@[simp] theorem State.accept_litLen (s : State) : (s.accept).litLen = s.litLen := rfl
@[simp] theorem State.accept_dataPos (s : State) : (s.accept).dataPos = s.dataPos := rfl
@[simp] theorem State.accept_outLen (s : State) : (s.accept).outLen = s.outLen := rfl
@[simp] theorem State.accept_decompPos (s : State) : (s.accept).decompPos = s.decompPos := rfl
@[simp] theorem State.accept_nextCmd (s : State) : (s.accept).nextCmd = s.nextCmd := rfl
@[simp] theorem State.accept_tileCnt (s : State) : (s.accept).tileCnt = s.tileCnt := rfl
@[simp] theorem State.accept_tileBpp (s : State) : (s.accept).tileBpp = s.tileBpp := rfl
@[simp] theorem State.accept_palCnt (s : State) : (s.accept).palCnt = s.palCnt := rfl
@[simp] theorem State.accept_ntCnt (s : State) : (s.accept).ntCnt = s.ntCnt := rfl
@[simp] theorem State.accept_imgW (s : State) : (s.accept).imgW = s.imgW := rfl
@[simp] theorem State.accept_imgH (s : State) : (s.accept).imgH = s.imgH := rfl
@[simp] theorem State.accept_src (s : State) : (s.accept).src = s.src := rfl
@[simp] theorem State.accept_lit (s : State) : (s.accept).lit = s.lit := rfl
@[simp] theorem State.accept_out (s : State) : (s.accept).out = s.out := rfl
@[simp] theorem State.accept_tile (s : State) : (s.accept).tile = s.tile := rfl
@[simp] theorem State.accept_pal (s : State) : (s.accept).pal = s.pal := rfl
@[simp] theorem State.accept_nt (s : State) : (s.accept).nt = s.nt := rfl
@[simp] theorem State.accept_fb (s : State) : (s.accept).fb = s.fb := rfl
@[simp] theorem State.accept_phase (s : State) : (s.accept).phase = s.phase := rfl
@[simp] theorem State.accept_hostq (s : State) : (s.accept).hostq = s.hostq := rfl
@[simp] theorem State.accept_rdata (s : State) : (s.accept).rdata = s.rdata := rfl
@[simp] theorem State.accept_freeCtr (s : State) : (s.accept).freeCtr = s.freeCtr := rfl

/-! ## Ending ok -/

@[simp] theorem State.endOk_cfg (s : State) : (s.endOk).cfg = s.cfg := rfl
@[simp] theorem State.endOk_st (s : State) : (s.endOk).st = .idle := rfl
@[simp] theorem State.endOk_done (s : State) : (s.endOk).done = true := rfl
@[simp] theorem State.endOk_litV (s : State) : (s.endOk).litV = s.litV := rfl
@[simp] theorem State.endOk_outV (s : State) : (s.endOk).outV = s.outV := rfl
@[simp] theorem State.endOk_tileV (s : State) : (s.endOk).tileV = s.tileV := rfl
@[simp] theorem State.endOk_palV (s : State) : (s.endOk).palV = s.palV := rfl
@[simp] theorem State.endOk_ntV (s : State) : (s.endOk).ntV = s.ntV := rfl
@[simp] theorem State.endOk_fbV (s : State) : (s.endOk).fbV = s.fbV := rfl
@[simp] theorem State.endOk_err (s : State) : (s.endOk).err = s.err := rfl
@[simp] theorem State.endOk_result (s : State) : (s.endOk).result = s.result := rfl
@[simp] theorem State.endOk_srcLen (s : State) : (s.endOk).srcLen = s.srcLen := rfl
@[simp] theorem State.endOk_bitPos (s : State) : (s.endOk).bitPos = s.bitPos := rfl
@[simp] theorem State.endOk_litLen (s : State) : (s.endOk).litLen = s.litLen := rfl
@[simp] theorem State.endOk_dataPos (s : State) : (s.endOk).dataPos = s.dataPos := rfl
@[simp] theorem State.endOk_outLen (s : State) : (s.endOk).outLen = s.outLen := rfl
@[simp] theorem State.endOk_decompPos (s : State) : (s.endOk).decompPos = s.decompPos := rfl
@[simp] theorem State.endOk_nextCmd (s : State) : (s.endOk).nextCmd = s.nextCmd := rfl
@[simp] theorem State.endOk_tileCnt (s : State) : (s.endOk).tileCnt = s.tileCnt := rfl
@[simp] theorem State.endOk_tileBpp (s : State) : (s.endOk).tileBpp = s.tileBpp := rfl
@[simp] theorem State.endOk_palCnt (s : State) : (s.endOk).palCnt = s.palCnt := rfl
@[simp] theorem State.endOk_ntCnt (s : State) : (s.endOk).ntCnt = s.ntCnt := rfl
@[simp] theorem State.endOk_imgW (s : State) : (s.endOk).imgW = s.imgW := rfl
@[simp] theorem State.endOk_imgH (s : State) : (s.endOk).imgH = s.imgH := rfl
@[simp] theorem State.endOk_src (s : State) : (s.endOk).src = s.src := rfl
@[simp] theorem State.endOk_lit (s : State) : (s.endOk).lit = s.lit := rfl
@[simp] theorem State.endOk_out (s : State) : (s.endOk).out = s.out := rfl
@[simp] theorem State.endOk_tile (s : State) : (s.endOk).tile = s.tile := rfl
@[simp] theorem State.endOk_pal (s : State) : (s.endOk).pal = s.pal := rfl
@[simp] theorem State.endOk_nt (s : State) : (s.endOk).nt = s.nt := rfl
@[simp] theorem State.endOk_fb (s : State) : (s.endOk).fb = s.fb := rfl
@[simp] theorem State.endOk_phase (s : State) : (s.endOk).phase = .none := rfl
@[simp] theorem State.endOk_hostq (s : State) : (s.endOk).hostq = s.hostq := rfl
@[simp] theorem State.endOk_rdata (s : State) : (s.endOk).rdata = s.rdata := rfl
@[simp] theorem State.endOk_freeCtr (s : State) : (s.endOk).freeCtr = s.freeCtr := rfl

/-! ## Taking a fault -/

@[simp] theorem raise_cfg (k : FaultKind) (info : Info) (op : BitVec 8) (s : State) : (raise k info op s).cfg = s.cfg := rfl
@[simp] theorem raise_st (k : FaultKind) (info : Info) (op : BitVec 8) (s : State) : (raise k info op s).st = .fault := rfl
@[simp] theorem raise_done (k : FaultKind) (info : Info) (op : BitVec 8) (s : State) : (raise k info op s).done = false := rfl
@[simp] theorem raise_litV (k : FaultKind) (info : Info) (op : BitVec 8) (s : State) : (raise k info op s).litV = s.litV := rfl
@[simp] theorem raise_outV (k : FaultKind) (info : Info) (op : BitVec 8) (s : State) : (raise k info op s).outV = s.outV := rfl
@[simp] theorem raise_tileV (k : FaultKind) (info : Info) (op : BitVec 8) (s : State) : (raise k info op s).tileV = s.tileV := rfl
@[simp] theorem raise_palV (k : FaultKind) (info : Info) (op : BitVec 8) (s : State) : (raise k info op s).palV = s.palV := rfl
@[simp] theorem raise_ntV (k : FaultKind) (info : Info) (op : BitVec 8) (s : State) : (raise k info op s).ntV = s.ntV := rfl
@[simp] theorem raise_fbV (k : FaultKind) (info : Info) (op : BitVec 8) (s : State) : (raise k info op s).fbV = s.fbV := rfl
@[simp] theorem raise_err (k : FaultKind) (info : Info) (op : BitVec 8) (s : State) : (raise k info op s).err = errWord k info op := rfl
@[simp] theorem raise_result (k : FaultKind) (info : Info) (op : BitVec 8) (s : State) : (raise k info op s).result = s.result := rfl
@[simp] theorem raise_srcLen (k : FaultKind) (info : Info) (op : BitVec 8) (s : State) : (raise k info op s).srcLen = s.srcLen := rfl
@[simp] theorem raise_bitPos (k : FaultKind) (info : Info) (op : BitVec 8) (s : State) : (raise k info op s).bitPos = s.bitPos := rfl
@[simp] theorem raise_litLen (k : FaultKind) (info : Info) (op : BitVec 8) (s : State) : (raise k info op s).litLen = s.litLen := rfl
@[simp] theorem raise_dataPos (k : FaultKind) (info : Info) (op : BitVec 8) (s : State) : (raise k info op s).dataPos = s.dataPos := rfl
@[simp] theorem raise_outLen (k : FaultKind) (info : Info) (op : BitVec 8) (s : State) : (raise k info op s).outLen = s.outLen := rfl
@[simp] theorem raise_decompPos (k : FaultKind) (info : Info) (op : BitVec 8) (s : State) : (raise k info op s).decompPos = s.decompPos := rfl
@[simp] theorem raise_nextCmd (k : FaultKind) (info : Info) (op : BitVec 8) (s : State) : (raise k info op s).nextCmd = s.nextCmd := rfl
@[simp] theorem raise_tileCnt (k : FaultKind) (info : Info) (op : BitVec 8) (s : State) : (raise k info op s).tileCnt = s.tileCnt := rfl
@[simp] theorem raise_tileBpp (k : FaultKind) (info : Info) (op : BitVec 8) (s : State) : (raise k info op s).tileBpp = s.tileBpp := rfl
@[simp] theorem raise_palCnt (k : FaultKind) (info : Info) (op : BitVec 8) (s : State) : (raise k info op s).palCnt = s.palCnt := rfl
@[simp] theorem raise_ntCnt (k : FaultKind) (info : Info) (op : BitVec 8) (s : State) : (raise k info op s).ntCnt = s.ntCnt := rfl
@[simp] theorem raise_imgW (k : FaultKind) (info : Info) (op : BitVec 8) (s : State) : (raise k info op s).imgW = s.imgW := rfl
@[simp] theorem raise_imgH (k : FaultKind) (info : Info) (op : BitVec 8) (s : State) : (raise k info op s).imgH = s.imgH := rfl
@[simp] theorem raise_src (k : FaultKind) (info : Info) (op : BitVec 8) (s : State) : (raise k info op s).src = s.src := rfl
@[simp] theorem raise_lit (k : FaultKind) (info : Info) (op : BitVec 8) (s : State) : (raise k info op s).lit = s.lit := rfl
@[simp] theorem raise_out (k : FaultKind) (info : Info) (op : BitVec 8) (s : State) : (raise k info op s).out = s.out := rfl
@[simp] theorem raise_tile (k : FaultKind) (info : Info) (op : BitVec 8) (s : State) : (raise k info op s).tile = s.tile := rfl
@[simp] theorem raise_pal (k : FaultKind) (info : Info) (op : BitVec 8) (s : State) : (raise k info op s).pal = s.pal := rfl
@[simp] theorem raise_nt (k : FaultKind) (info : Info) (op : BitVec 8) (s : State) : (raise k info op s).nt = s.nt := rfl
@[simp] theorem raise_fb (k : FaultKind) (info : Info) (op : BitVec 8) (s : State) : (raise k info op s).fb = s.fb := rfl
@[simp] theorem raise_phase (k : FaultKind) (info : Info) (op : BitVec 8) (s : State) : (raise k info op s).phase = .none := rfl
@[simp] theorem raise_hostq (k : FaultKind) (info : Info) (op : BitVec 8) (s : State) : (raise k info op s).hostq = s.hostq := rfl
@[simp] theorem raise_rdata (k : FaultKind) (info : Info) (op : BitVec 8) (s : State) : (raise k info op s).rdata = s.rdata := rfl
@[simp] theorem raise_freeCtr (k : FaultKind) (info : Info) (op : BitVec 8) (s : State) : (raise k info op s).freeCtr = s.freeCtr := rfl

/-! ## Returning from a fault -/

@[simp] theorem State.clearFault_cfg (s : State) : (s.clearFault).cfg = s.cfg := rfl
@[simp] theorem State.clearFault_st (s : State) : (s.clearFault).st = .idle := rfl
@[simp] theorem State.clearFault_done (s : State) : (s.clearFault).done = true := rfl
@[simp] theorem State.clearFault_litV (s : State) : (s.clearFault).litV = s.litV := rfl
@[simp] theorem State.clearFault_outV (s : State) : (s.clearFault).outV = s.outV := rfl
@[simp] theorem State.clearFault_tileV (s : State) : (s.clearFault).tileV = s.tileV := rfl
@[simp] theorem State.clearFault_palV (s : State) : (s.clearFault).palV = s.palV := rfl
@[simp] theorem State.clearFault_ntV (s : State) : (s.clearFault).ntV = s.ntV := rfl
@[simp] theorem State.clearFault_fbV (s : State) : (s.clearFault).fbV = s.fbV := rfl
@[simp] theorem State.clearFault_err (s : State) : (s.clearFault).err = 0#32 := rfl
@[simp] theorem State.clearFault_result (s : State) : (s.clearFault).result = s.result := rfl
@[simp] theorem State.clearFault_srcLen (s : State) : (s.clearFault).srcLen = s.srcLen := rfl
@[simp] theorem State.clearFault_bitPos (s : State) : (s.clearFault).bitPos = s.bitPos := rfl
@[simp] theorem State.clearFault_litLen (s : State) : (s.clearFault).litLen = s.litLen := rfl
@[simp] theorem State.clearFault_dataPos (s : State) : (s.clearFault).dataPos = s.dataPos := rfl
@[simp] theorem State.clearFault_outLen (s : State) : (s.clearFault).outLen = s.outLen := rfl
@[simp] theorem State.clearFault_decompPos (s : State) : (s.clearFault).decompPos = s.decompPos := rfl
@[simp] theorem State.clearFault_nextCmd (s : State) : (s.clearFault).nextCmd = s.nextCmd := rfl
@[simp] theorem State.clearFault_tileCnt (s : State) : (s.clearFault).tileCnt = s.tileCnt := rfl
@[simp] theorem State.clearFault_tileBpp (s : State) : (s.clearFault).tileBpp = s.tileBpp := rfl
@[simp] theorem State.clearFault_palCnt (s : State) : (s.clearFault).palCnt = s.palCnt := rfl
@[simp] theorem State.clearFault_ntCnt (s : State) : (s.clearFault).ntCnt = s.ntCnt := rfl
@[simp] theorem State.clearFault_imgW (s : State) : (s.clearFault).imgW = s.imgW := rfl
@[simp] theorem State.clearFault_imgH (s : State) : (s.clearFault).imgH = s.imgH := rfl
@[simp] theorem State.clearFault_src (s : State) : (s.clearFault).src = s.src := rfl
@[simp] theorem State.clearFault_lit (s : State) : (s.clearFault).lit = s.lit := rfl
@[simp] theorem State.clearFault_out (s : State) : (s.clearFault).out = s.out := rfl
@[simp] theorem State.clearFault_tile (s : State) : (s.clearFault).tile = s.tile := rfl
@[simp] theorem State.clearFault_pal (s : State) : (s.clearFault).pal = s.pal := rfl
@[simp] theorem State.clearFault_nt (s : State) : (s.clearFault).nt = s.nt := rfl
@[simp] theorem State.clearFault_fb (s : State) : (s.clearFault).fb = s.fb := rfl
@[simp] theorem State.clearFault_phase (s : State) : (s.clearFault).phase = .none := rfl
@[simp] theorem State.clearFault_hostq (s : State) : (s.clearFault).hostq = s.hostq := rfl
@[simp] theorem State.clearFault_rdata (s : State) : (s.clearFault).rdata = s.rdata := rfl
@[simp] theorem State.clearFault_freeCtr (s : State) : (s.clearFault).freeCtr = s.freeCtr := rfl

/-! ## Moving the cursor -/

@[simp] theorem State.advance_cfg (s : State) (n : Nat) : (s.advance n).cfg = s.cfg := rfl
@[simp] theorem State.advance_st (s : State) (n : Nat) : (s.advance n).st = s.st := rfl
@[simp] theorem State.advance_done (s : State) (n : Nat) : (s.advance n).done = s.done := rfl
@[simp] theorem State.advance_litV (s : State) (n : Nat) : (s.advance n).litV = s.litV := rfl
@[simp] theorem State.advance_outV (s : State) (n : Nat) : (s.advance n).outV = s.outV := rfl
@[simp] theorem State.advance_tileV (s : State) (n : Nat) : (s.advance n).tileV = s.tileV := rfl
@[simp] theorem State.advance_palV (s : State) (n : Nat) : (s.advance n).palV = s.palV := rfl
@[simp] theorem State.advance_ntV (s : State) (n : Nat) : (s.advance n).ntV = s.ntV := rfl
@[simp] theorem State.advance_fbV (s : State) (n : Nat) : (s.advance n).fbV = s.fbV := rfl
@[simp] theorem State.advance_err (s : State) (n : Nat) : (s.advance n).err = s.err := rfl
@[simp] theorem State.advance_result (s : State) (n : Nat) : (s.advance n).result = s.result := rfl
@[simp] theorem State.advance_srcLen (s : State) (n : Nat) : (s.advance n).srcLen = s.srcLen := rfl
@[simp] theorem State.advance_bitPos (s : State) (n : Nat) : (s.advance n).bitPos = s.bitPos + BitVec.ofNat 32 n := rfl
@[simp] theorem State.advance_litLen (s : State) (n : Nat) : (s.advance n).litLen = s.litLen := rfl
@[simp] theorem State.advance_dataPos (s : State) (n : Nat) : (s.advance n).dataPos = s.dataPos := rfl
@[simp] theorem State.advance_outLen (s : State) (n : Nat) : (s.advance n).outLen = s.outLen := rfl
@[simp] theorem State.advance_decompPos (s : State) (n : Nat) : (s.advance n).decompPos = s.decompPos := rfl
@[simp] theorem State.advance_nextCmd (s : State) (n : Nat) : (s.advance n).nextCmd = s.nextCmd := rfl
@[simp] theorem State.advance_tileCnt (s : State) (n : Nat) : (s.advance n).tileCnt = s.tileCnt := rfl
@[simp] theorem State.advance_tileBpp (s : State) (n : Nat) : (s.advance n).tileBpp = s.tileBpp := rfl
@[simp] theorem State.advance_palCnt (s : State) (n : Nat) : (s.advance n).palCnt = s.palCnt := rfl
@[simp] theorem State.advance_ntCnt (s : State) (n : Nat) : (s.advance n).ntCnt = s.ntCnt := rfl
@[simp] theorem State.advance_imgW (s : State) (n : Nat) : (s.advance n).imgW = s.imgW := rfl
@[simp] theorem State.advance_imgH (s : State) (n : Nat) : (s.advance n).imgH = s.imgH := rfl
@[simp] theorem State.advance_src (s : State) (n : Nat) : (s.advance n).src = s.src := rfl
@[simp] theorem State.advance_lit (s : State) (n : Nat) : (s.advance n).lit = s.lit := rfl
@[simp] theorem State.advance_out (s : State) (n : Nat) : (s.advance n).out = s.out := rfl
@[simp] theorem State.advance_tile (s : State) (n : Nat) : (s.advance n).tile = s.tile := rfl
@[simp] theorem State.advance_pal (s : State) (n : Nat) : (s.advance n).pal = s.pal := rfl
@[simp] theorem State.advance_nt (s : State) (n : Nat) : (s.advance n).nt = s.nt := rfl
@[simp] theorem State.advance_fb (s : State) (n : Nat) : (s.advance n).fb = s.fb := rfl
@[simp] theorem State.advance_phase (s : State) (n : Nat) : (s.advance n).phase = s.phase := rfl
@[simp] theorem State.advance_hostq (s : State) (n : Nat) : (s.advance n).hostq = s.hostq := rfl
@[simp] theorem State.advance_rdata (s : State) (n : Nat) : (s.advance n).rdata = s.rdata := rfl
@[simp] theorem State.advance_freeCtr (s : State) (n : Nat) : (s.advance n).freeCtr = s.freeCtr := rfl

/-! ## Ending a DECOMP ok -/

@[simp] theorem decompDone_cfg (s : State) : (decompDone s).cfg = s.cfg := rfl
@[simp] theorem decompDone_st (s : State) : (decompDone s).st = .idle := rfl
@[simp] theorem decompDone_done (s : State) : (decompDone s).done = true := rfl
@[simp] theorem decompDone_litV (s : State) : (decompDone s).litV = true := rfl
@[simp] theorem decompDone_outV (s : State) : (decompDone s).outV = true := rfl
@[simp] theorem decompDone_tileV (s : State) : (decompDone s).tileV = s.tileV := rfl
@[simp] theorem decompDone_palV (s : State) : (decompDone s).palV = s.palV := rfl
@[simp] theorem decompDone_ntV (s : State) : (decompDone s).ntV = s.ntV := rfl
@[simp] theorem decompDone_fbV (s : State) : (decompDone s).fbV = s.fbV := rfl
@[simp] theorem decompDone_err (s : State) : (decompDone s).err = s.err := rfl
@[simp] theorem decompDone_result (s : State) : (decompDone s).result = s.result := rfl
@[simp] theorem decompDone_srcLen (s : State) : (decompDone s).srcLen = s.srcLen := rfl
@[simp] theorem decompDone_bitPos (s : State) : (decompDone s).bitPos = s.bitPos := rfl
@[simp] theorem decompDone_litLen (s : State) : (decompDone s).litLen = s.litLen := rfl
@[simp] theorem decompDone_dataPos (s : State) : (decompDone s).dataPos = s.dataPos := rfl
@[simp] theorem decompDone_outLen (s : State) : (decompDone s).outLen = s.outLen := rfl
@[simp] theorem decompDone_decompPos (s : State) : (decompDone s).decompPos = s.decompPos := rfl
@[simp] theorem decompDone_nextCmd (s : State) : (decompDone s).nextCmd = s.nextCmd := rfl
@[simp] theorem decompDone_tileCnt (s : State) : (decompDone s).tileCnt = s.tileCnt := rfl
@[simp] theorem decompDone_tileBpp (s : State) : (decompDone s).tileBpp = s.tileBpp := rfl
@[simp] theorem decompDone_palCnt (s : State) : (decompDone s).palCnt = s.palCnt := rfl
@[simp] theorem decompDone_ntCnt (s : State) : (decompDone s).ntCnt = s.ntCnt := rfl
@[simp] theorem decompDone_imgW (s : State) : (decompDone s).imgW = s.imgW := rfl
@[simp] theorem decompDone_imgH (s : State) : (decompDone s).imgH = s.imgH := rfl
@[simp] theorem decompDone_src (s : State) : (decompDone s).src = s.src := rfl
@[simp] theorem decompDone_lit (s : State) : (decompDone s).lit = s.lit := rfl
@[simp] theorem decompDone_out (s : State) : (decompDone s).out = s.out := rfl
@[simp] theorem decompDone_tile (s : State) : (decompDone s).tile = s.tile := rfl
@[simp] theorem decompDone_pal (s : State) : (decompDone s).pal = s.pal := rfl
@[simp] theorem decompDone_nt (s : State) : (decompDone s).nt = s.nt := rfl
@[simp] theorem decompDone_fb (s : State) : (decompDone s).fb = s.fb := rfl
@[simp] theorem decompDone_phase (s : State) : (decompDone s).phase = .none := rfl
@[simp] theorem decompDone_hostq (s : State) : (decompDone s).hostq = s.hostq := rfl
@[simp] theorem decompDone_rdata (s : State) : (decompDone s).rdata = s.rdata := rfl
@[simp] theorem decompDone_freeCtr (s : State) : (decompDone s).freeCtr = s.freeCtr := rfl

/-! ## Reset -/

@[simp] theorem State.resetNow_cfg (s : State) : (s.resetNow).cfg = s.cfg := rfl
@[simp] theorem State.resetNow_st (s : State) : (s.resetNow).st = .idle := rfl
@[simp] theorem State.resetNow_done (s : State) : (s.resetNow).done = false := rfl
@[simp] theorem State.resetNow_litV (s : State) : (s.resetNow).litV = false := rfl
@[simp] theorem State.resetNow_outV (s : State) : (s.resetNow).outV = false := rfl
@[simp] theorem State.resetNow_tileV (s : State) : (s.resetNow).tileV = false := rfl
@[simp] theorem State.resetNow_palV (s : State) : (s.resetNow).palV = false := rfl
@[simp] theorem State.resetNow_ntV (s : State) : (s.resetNow).ntV = false := rfl
@[simp] theorem State.resetNow_fbV (s : State) : (s.resetNow).fbV = false := rfl
@[simp] theorem State.resetNow_err (s : State) : (s.resetNow).err = 0#32 := rfl
@[simp] theorem State.resetNow_result (s : State) : (s.resetNow).result = 0#32 := rfl
@[simp] theorem State.resetNow_srcLen (s : State) : (s.resetNow).srcLen = 0#32 := rfl
@[simp] theorem State.resetNow_bitPos (s : State) : (s.resetNow).bitPos = 0#32 := rfl
@[simp] theorem State.resetNow_litLen (s : State) : (s.resetNow).litLen = 0#32 := rfl
@[simp] theorem State.resetNow_dataPos (s : State) : (s.resetNow).dataPos = 0#32 := rfl
@[simp] theorem State.resetNow_outLen (s : State) : (s.resetNow).outLen = 0#32 := rfl
@[simp] theorem State.resetNow_decompPos (s : State) : (s.resetNow).decompPos = 0#32 := rfl
@[simp] theorem State.resetNow_nextCmd (s : State) : (s.resetNow).nextCmd = 0#32 := rfl
@[simp] theorem State.resetNow_tileCnt (s : State) : (s.resetNow).tileCnt = 0#32 := rfl
@[simp] theorem State.resetNow_tileBpp (s : State) : (s.resetNow).tileBpp = 0#32 := rfl
@[simp] theorem State.resetNow_palCnt (s : State) : (s.resetNow).palCnt = 0#32 := rfl
@[simp] theorem State.resetNow_ntCnt (s : State) : (s.resetNow).ntCnt = 0#32 := rfl
@[simp] theorem State.resetNow_imgW (s : State) : (s.resetNow).imgW = 0#32 := rfl
@[simp] theorem State.resetNow_imgH (s : State) : (s.resetNow).imgH = 0#32 := rfl
@[simp] theorem State.resetNow_src (s : State) : (s.resetNow).src = Memory.unspecified s.freeCtr := rfl
@[simp] theorem State.resetNow_lit (s : State) : (s.resetNow).lit = Memory.unspecified (s.freeCtr + 1) := rfl
@[simp] theorem State.resetNow_out (s : State) : (s.resetNow).out = Memory.unspecified (s.freeCtr + 2) := rfl
@[simp] theorem State.resetNow_tile (s : State) : (s.resetNow).tile = Memory.unspecified (s.freeCtr + 3) := rfl
@[simp] theorem State.resetNow_pal (s : State) : (s.resetNow).pal = Memory.unspecified (s.freeCtr + 4) := rfl
@[simp] theorem State.resetNow_nt (s : State) : (s.resetNow).nt = Memory.unspecified (s.freeCtr + 5) := rfl
@[simp] theorem State.resetNow_fb (s : State) : (s.resetNow).fb = Memory.unspecified (s.freeCtr + 6) := rfl
@[simp] theorem State.resetNow_phase (s : State) : (s.resetNow).phase = .none := rfl
@[simp] theorem State.resetNow_hostq (s : State) : (s.resetNow).hostq = s.hostq := rfl
@[simp] theorem State.resetNow_rdata (s : State) : (s.resetNow).rdata = s.rdata := rfl
@[simp] theorem State.resetNow_freeCtr (s : State) : (s.resetNow).freeCtr = s.freeCtr + 7 := rfl

end Sys2Proof.Machine
end

