-- ==== Sys2Proof/Laws/Ops.lean ====
section
/-! SUPPORT. What the shared operations can do: the state gate, a bulk decoder's checks, and the bitstream reader. -/

namespace Sys2Proof.Machine

open Sys2Proof

/-! ## The state gate -/

theorem issue_idle {work : State → State} {s : State} (h : s.st = .idle) : issue work s = work s.accept := by
  simp [issue, h]

theorem issue_busy {work : State → State} {s : State} (h : s.st = .busy) : issue work s = s := by simp [issue, h]

theorem issue_fault {work : State → State} {s : State} (h : s.st = .fault) : issue work s = s := by simp [issue, h]

/-- A gated command is ignored, or it is accepted in IDLE and runs (R249 step 1). -/
theorem issue_cases (work : State → State) (s : State) :
    (s.st ≠ .idle ∧ issue work s = s) ∨ (s.st = .idle ∧ issue work s = work s.accept) := by
  cases h : s.st with
  | idle => exact .inr ⟨rfl, issue_idle h⟩
  | busy => exact .inl ⟨by simp, issue_busy h⟩
  | fault => exact .inl ⟨by simp, issue_fault h⟩

theorem issueAlways_idle {work : State → State} {s : State} (h : s.st = .idle) :
    issueAlways work s = work s.accept := by simp [issueAlways, h]

theorem issueAlways_busy {work : State → State} {s : State} (h : s.st = .busy) : issueAlways work s = s := by
  simp [issueAlways, h]

theorem issueAlways_fault {work : State → State} {s : State} (h : s.st = .fault) : issueAlways work s = work s := by
  simp [issueAlways, h]

/-- `CLRERR` and `SRESET` are ignored in BUSY, accepted in IDLE, and run in FAULT. -/
theorem issueAlways_cases (work : State → State) (s : State) :
    (s.st = .busy ∧ issueAlways work s = s) ∨ (s.st = .idle ∧ issueAlways work s = work s.accept)
      ∨ (s.st = .fault ∧ issueAlways work s = work s) := by
  cases h : s.st with
  | idle => exact .inr (.inl ⟨rfl, issueAlways_idle h⟩)
  | busy => exact .inl ⟨rfl, issueAlways_busy h⟩
  | fault => exact .inr (.inr ⟨rfl, issueAlways_fault h⟩)

/-- A bulk decoder stops at the first failing check of R249 steps 5 and 6, or does its work. -/
theorem withInput_cases (op : BitVec 8) (sel : Sel) (fits : Bool) (work : State → State) (s : State) :
    (s.inputPresent sel = false ∧ withInput op sel fits work s = raise .illegalCommand .noInput op s)
    ∨ (s.inputPresent sel = true ∧ (s.inputInCapacity sel && fits) = false
        ∧ withInput op sel fits work s = raise .illegalCommand .capacity op s)
    ∨ (s.inputPresent sel = true ∧ s.inputInCapacity sel = true ∧ fits = true
        ∧ withInput op sel fits work s = work s) := by
  unfold withInput
  cases hp : s.inputPresent sel <;> cases hc : s.inputInCapacity sel <;> cases fits <;> simp

/-! ## Bit depths -/

/-- A legal `bpp` field is a depth, and the depth's number is the field's (R92). -/
theorem Bpp.ofField_of_legal {f : BitVec 4} (h : bppLegal f = true) : ∃ b, Bpp.ofField f = some b ∧ b.bits = f.toNat := by
  simp only [bppLegal, Bool.or_eq_true, beq_iff_eq] at h
  rcases h with (rfl | rfl) | rfl
  · exact ⟨.two, rfl, rfl⟩
  · exact ⟨.four, rfl, rfl⟩
  · exact ⟨.eight, rfl, rfl⟩

theorem Bpp.ofField_of_illegal {f : BitVec 4} (h : bppLegal f = false) : Bpp.ofField f = none := by
  revert h; revert f; decide

theorem Bpp.ofField_some {f : BitVec 4} {b : Bpp} (h : Bpp.ofField f = some b) :
    bppLegal f = true ∧ b.bits = f.toNat := by
  revert h; cases b <;> revert f <;> decide

/-- A sub-palette has `2^bpp` entries at every depth (R190). -/
theorem Bpp.subpalSize_eq (b : Bpp) : b.subpalSize = 2 ^ b.bits := by cases b <;> rfl

theorem Bpp.tileBytes_pos (b : Bpp) : 0 < b.tileBytes := by cases b <;> decide

/-! ## The bitstream reader -/

/-- `ReadBits` fails exactly when too few bits are left, and its value fits `n` bits (R121). -/
theorem State.readBits_cases (s : State) (n : Nat) :
    (s.rem < n ∧ s.readBits n = none)
    ∨ (n ≤ s.rem ∧ s.readBits n = some (bitsValue s.streamBit s.bitPos.toNat n)
        ∧ bitsValue s.streamBit s.bitPos.toNat n < 2 ^ n) := by
  unfold State.readBits
  by_cases h : s.rem < n
  · exact .inl ⟨h, if_pos h⟩
  · exact .inr ⟨Nat.le_of_not_lt h, if_neg h, bitsValue_lt ..⟩

/-- `ReadBytes`: alignment first, then the bytes left, then the bytes (R122). -/
theorem State.readBytes_cases (s : State) (n : Nat) :
    (s.bitPos.toNat % 8 ≠ 0 ∧ s.readBytes n = .error .misaligned)
    ∨ (s.bitPos.toNat % 8 = 0 ∧ s.rem < 8 * n ∧ s.readBytes n = .error .underrun)
    ∨ (s.bitPos.toNat % 8 = 0 ∧ 8 * n ≤ s.rem
        ∧ s.readBytes n = .ok (s.src.readList (s.bitPos.toNat / 8) n)) := by
  unfold State.readBytes
  by_cases h : s.bitPos.toNat % 8 ≠ 0
  · exact .inl ⟨h, if_pos h⟩
  · have h' : s.bitPos.toNat % 8 = 0 := by omega
    rw [if_neg h]
    by_cases hr : s.rem < 8 * n
    · exact .inr (.inl ⟨h', hr, if_pos hr⟩)
    · exact .inr (.inr ⟨h', Nat.le_of_not_lt hr, if_neg hr⟩)

/-- A cursor moved within the stream does not wrap when the stream's bit count fits a register (R28). -/
theorem State.advance_toNat {s : State} {n : Nat} (hs : s.srcBits < 2 ^ 32) (hn : n ≤ s.rem) :
    (s.bitPos + BitVec.ofNat 32 n).toNat = s.bitPos.toNat + n := by
  unfold State.rem at hn
  have := s.bitPos.isLt
  simp only [BitVec.toNat_add, BitVec.toNat_ofNat]
  omega

/-- `SRC_LEN ≤ SRC_CAP` under a sound configuration bounds the stream (R28). -/
theorem State.srcBits_lt {s : State} (hc : s.cfg.Sound) (h : s.srcLen.toNat ≤ s.cfg.srcCap) : s.srcBits < 2 ^ 32 := by
  have := hc.1
  unfold State.srcBits; omega

/-! ## The flags -/

/-- The four parts of a word of R26's layout, and that no other bit is set. -/
theorem errLayout (op i : BitVec 8) (k : BitVec 4) :
    (0#8 ++ op ++ i ++ 0#4 ++ k).extractLsb' 0 4 = k ∧ (0#8 ++ op ++ i ++ 0#4 ++ k).extractLsb' 8 8 = i
      ∧ (0#8 ++ op ++ i ++ 0#4 ++ k).extractLsb' 16 8 = op
      ∧ (0#8 ++ op ++ i ++ 0#4 ++ k) &&& 0xFF0000F0#32 = 0#32 := by
  refine ⟨?_, ?_, ?_, ?_⟩
  · ext j hj
    simp only [BitVec.getElem_extractLsb', BitVec.getLsbD_append, Nat.zero_add, hj, if_true,
      BitVec.getLsbD_eq_getElem]
  · ext j hj
    simp only [BitVec.getElem_extractLsb', BitVec.getLsbD_append, show ¬ 8 + j < 4 by omega,
      show ¬ 8 + j - 4 < 4 by omega, show 8 + j - 4 - 4 = j by omega, hj, if_false, if_true,
      BitVec.getLsbD_eq_getElem]
  · ext j hj
    simp only [BitVec.getElem_extractLsb', BitVec.getLsbD_append, show ¬ 16 + j < 4 by omega,
      show ¬ 16 + j - 4 < 4 by omega, show 16 + j - 4 - 4 - 8 = j by omega, show ¬ 16 + j - 4 - 4 < 8 by omega,
      hj, if_false, if_true, BitVec.getLsbD_eq_getElem]
  · ext j hj
    have hm : ∀ j, j < 32 → (4 ≤ j ∧ j < 8 ∨ 24 ≤ j) ∨ (0xFF0000F0#32).getLsbD j = false := by decide
    rw [BitVec.getElem_and, ← BitVec.getLsbD_eq_getElem, ← BitVec.getLsbD_eq_getElem]
    rcases hm j hj with h | h
    · have h0 : (0#8 ++ op ++ i ++ 0#4 ++ k).getLsbD j = false := by
        rcases h with h | h
        · simp only [BitVec.getLsbD_append, show ¬ j < 4 by omega, show j - 4 < 4 by omega, if_false, if_true,
            BitVec.getLsbD_zero]
        · simp only [BitVec.getLsbD_append, show ¬ j < 4 by omega, show ¬ j - 4 < 4 by omega,
            show ¬ j - 4 - 4 < 8 by omega, show ¬ j - 4 - 4 - 8 < 8 by omega, if_false, BitVec.getLsbD_zero]
      rw [h0]; simp
    · rw [h]; simp

/-- A fault's code, info and opcode byte stand in `ERR` where R26 puts them. -/
theorem raise_fields (k : FaultKind) (info : Info) (op : BitVec 8) (s : State) :
    (raise k info op s).errCode = k.code ∧ (raise k info op s).errInfo = info.code
      ∧ (raise k info op s).errOp = op ∧ (raise k info op s).err &&& 0xFF0000F0#32 = 0#32 :=
  errLayout op info.code k.code

end Sys2Proof.Machine
end

