-- ==== Sys2Proof/Laws/Tokens.lean ====
section
/-! SUPPORT. What each token and data word can do, said once; and what a faulted token leaves. -/

namespace Sys2Proof.Machine

open Sys2Proof

/-- A failed `DECOMP` (R250): latched, both valid bits 0, and everything the spec does not list as it was. -/
theorem decompFault_frame (info : Info) (s : State) :
    decompFault info s =
      { raise .corruptStream info 0x10#8 s with
        litV := false, outV := false, lit := (decompFault info s).lit, out := (decompFault info s).out,
        bitPos := (decompFault info s).bitPos, litLen := (decompFault info s).litLen,
        dataPos := (decompFault info s).dataPos, outLen := (decompFault info s).outLen,
        decompPos := (decompFault info s).decompPos, nextCmd := (decompFault info s).nextCmd,
        freeCtr := (decompFault info s).freeCtr } := rfl

@[simp] theorem decompFault_st (info : Info) (s : State) : (decompFault info s).st = .fault := rfl
@[simp] theorem decompFault_phase (info : Info) (s : State) : (decompFault info s).phase = .none := rfl

/-- The ending of a step's copy (R143, R144). -/
theorem afterCopy_cases (next : Phase) (s : State) :
    (s.decompPos = s.outLen ∧ afterCopy next s = decompDone s)
    ∨ (s.decompPos ≠ s.outLen ∧ afterCopy next s = { s with phase := next }) := by
  unfold afterCopy
  by_cases h : s.decompPos = s.outLen
  · exact .inl ⟨h, if_pos h⟩
  · exact .inr ⟨h, if_neg h⟩

/-- `BLOCKHDR`: a bad header, a payload that is not there, or the framing (R141, R142). -/
theorem headerStep_cases (u v : BitVec 16) (s : State) :
    (v.toNat < 2 ∧ headerStep u v s = decompFault .badHeader s)
    ∨ (2 ≤ v.toNat ∧ (s.bitPos.toNat % 8 ≠ 0 ∨ s.rem < 8 * (v.toNat - 2))
        ∧ headerStep u v s = decompFault .underrun s)
    ∨ (2 ≤ v.toNat ∧ s.bitPos.toNat % 8 = 0 ∧ 8 * (v.toNat - 2) ≤ s.rem
        ∧ headerStep u v s =
          { s.advance (8 * (v.toNat - 2)) with
            lit := Memory.ofList s.freeCtr (s.src.readList (s.bitPos.toNat / 8) (v.toNat - 2))
            litLen := BitVec.ofNat 32 (v.toNat - 2)
            outLen := u.setWidth 32
            decompPos := 0#32
            dataPos := 0#32
            nextCmd := 0#32
            phase := .lit
            freeCtr := s.freeCtr + 1 }) := by
  unfold headerStep hdrSelf
  by_cases hv : v.toNat < 2
  · exact .inl ⟨hv, if_pos hv⟩
  · rw [if_neg hv]
    rcases s.readBytes_cases (v.toNat - 2) with ⟨h, e⟩ | ⟨_, h, e⟩ | ⟨h, h', e⟩
    · exact .inr (.inl ⟨by omega, .inl h, by rw [e]⟩)
    · exact .inr (.inl ⟨by omega, .inr h, by rw [e]⟩)
    · exact .inr (.inr ⟨by omega, h, h', by rw [e]⟩)

/-- What a literal step copies (R143): the clamped amount. -/
def litCopied (n : Nat) (s : State) : State :=
  { s with
    out := copyAcross s.lit (min (s.cfg.saturated n) (s.outLen.toNat - s.decompPos.toNat)) s.dataPos.toNat s.decompPos.toNat s.out
    decompPos := s.decompPos + BitVec.ofNat 32 (min (s.cfg.saturated n) (s.outLen.toNat - s.decompPos.toNat))
    dataPos := s.dataPos + BitVec.ofNat 32 (min (s.cfg.saturated n) (s.outLen.toNat - s.decompPos.toNat)) }

/-- `LIT`: too little payload, or the copy (R143). -/
theorem litStep_cases (n : Nat) (s : State) :
    (s.litLen.toNat < s.dataPos.toNat + min (s.cfg.saturated n) (s.outLen.toNat - s.decompPos.toNat)
        ∧ litStep n s = decompFault .literalOverrun s)
    ∨ (s.dataPos.toNat + min (s.cfg.saturated n) (s.outLen.toNat - s.decompPos.toNat) ≤ s.litLen.toNat
        ∧ litStep n s = afterCopy .ref (litCopied n s)) := by
  unfold litStep litCopied
  by_cases h : s.litLen.toNat < s.dataPos.toNat + min (s.cfg.saturated n) (s.outLen.toNat - s.decompPos.toNat)
  · exact .inl ⟨h, if_pos h⟩
  · exact .inr ⟨by omega, if_neg h⟩

/-- What a back-reference step copies (R144, R146). -/
def refCopied (source m : Nat) (s : State) : State :=
  { s with
    out := copyWithin (min (s.cfg.saturated m + 2) (s.outLen.toNat - s.decompPos.toNat)) source s.decompPos.toNat s.out
    decompPos := s.decompPos + BitVec.ofNat 32 (min (s.cfg.saturated m + 2) (s.outLen.toNat - s.decompPos.toNat)) }

/-- `REF`: a source not yet written, or the copy (R144, R147). -/
theorem refStep_cases (source m : Nat) (s : State) :
    (s.decompPos.toNat ≤ source ∧ refStep source m s = decompFault .backrefUnwritten s)
    ∨ (source < s.decompPos.toNat ∧ refStep source m s = afterCopy .cmdbit (refCopied source m s)) := by
  unfold refStep refCopied refBias
  by_cases h : s.decompPos.toNat ≤ source
  · exact .inl ⟨h, if_pos h⟩
  · exact .inr ⟨by omega, if_neg h⟩

/-- `CMDBIT` (R148). -/
theorem cmdbitStep_cases (c : Bool) (s : State) :
    (c = s.cfg.litBit ∧ cmdbitStep c s = { s with nextCmd := 0#32, phase := .lit })
    ∨ (c ≠ s.cfg.litBit ∧ cmdbitStep c s = { s with nextCmd := 1#32, phase := .ref }) := by
  unfold cmdbitStep
  by_cases h : c = s.cfg.litBit
  · exact .inl ⟨h, if_pos h⟩
  · exact .inr ⟨h, if_neg h⟩

/-- `VARINT`: the result, or `RESULT_RANGE` with the cursor somewhere (R126, U4). -/
theorem varintStep_cases (v : Nat) (s : State) :
    (v < 2 ^ 32 ∧ varintStep v s = { s.endOk with result := BitVec.ofNat 32 v })
    ∨ (2 ^ 32 ≤ v ∧ ∃ p c, varintStep v s =
        { raise .illegalCommand .resultRange 0x03#8 s with bitPos := p, freeCtr := c }) := by
  unfold varintStep
  by_cases h : v < 2 ^ 32
  · exact .inl ⟨h, if_pos h⟩
  · exact .inr ⟨by omega, _, _, if_neg h⟩

/-- `RDVARINT` with its varint read: refused where the accumulator is too narrow (R11), else its end (R126). -/
theorem varintOutcome_cases (v : Nat) (s : State) :
    (s.cfg.varintTooWide v = true ∧ varintOutcome v s = .refused .varintTooWide)
    ∨ (s.cfg.varintTooWide v = false ∧ varintOutcome v s = .next (varintStep v s)) := by
  unfold varintOutcome
  cases s.cfg.varintTooWide v
  · exact .inr ⟨rfl, rfl⟩
  · exact .inl ⟨rfl, rfl⟩

/-- The output cursor of a copy clamped to the output does not wrap, and does not pass the output's length. -/
theorem copyCursor_toNat {dp u : Word} (n : Nat) (h : dp.toNat ≤ u.toNat) :
    (dp + BitVec.ofNat 32 (min n (u.toNat - dp.toNat))).toNat = dp.toNat + min n (u.toNat - dp.toNat) := by
  have := u.isLt
  have hm := Nat.min_le_right n (u.toNat - dp.toNat)
  simp only [BitVec.toNat_add, BitVec.toNat_ofNat]
  omega

end Sys2Proof.Machine
end

