-- ==== Sys2Proof/Laws/Engine.lean ====
section
/-! SUPPORT. What one token's work can do, how a property is carried through a whole command, and why every command that
runs tokens ends. -/

namespace Sys2Proof.Machine

open Sys2Proof

/-! ## One token -/

/-- The header, when it is due. -/
theorem engineStep_header {s : State} (h : s.phase = .header) :
    (s.rem < 32 ∧ engineStep s = decompFault .underrun s)
    ∨ (32 ≤ s.rem ∧ engineStep s =
        headerStep (BitVec.ofNat 16 (bitsValue s.streamBit s.bitPos.toNat 16))
          (BitVec.ofNat 16 (bitsValue s.streamBit (s.bitPos.toNat + 16) 16)) (s.advance 32)) := by
  by_cases hr : s.rem < 32
  · exact .inl ⟨hr, by simp [engineStep, engineFetch, h, fetchToken, decodeToken, hr]⟩
  · exact .inr ⟨by omega, by simp [engineStep, engineFetch, h, fetchToken, decodeToken, hr, runToken]⟩

/-- A literal step, when it is due; its varint is at least 1. -/
theorem engineStep_lit {s : State} (h : s.phase = .lit) :
    engineStep s = litStep s.readVarint.1 (s.advance s.readVarint.2)
      ∧ s.readVarint.2 ≤ s.rem ∧ 1 ≤ s.readVarint.1 :=
  ⟨by simp [engineStep, engineFetch, h, fetchToken, decodeToken, runToken, State.readVarint],
    varintFrom_consumed_le .., varintFrom_value_ge s.streamBit s.rem s.bitPos.toNat 1⟩

/-- A back-reference step, when it is due. -/
theorem engineStep_ref {s : State} (h : s.phase = .ref) :
    (s.rem < bitlen s.decompPos.toNat ∧ engineStep s = decompFault .underrun s)
    ∨ (bitlen s.decompPos.toNat ≤ s.rem ∧ ∃ m k,
        (m, k) = varintFrom s.streamBit (s.rem - bitlen s.decompPos.toNat)
          (s.bitPos.toNat + bitlen s.decompPos.toNat) 1
        ∧ bitlen s.decompPos.toNat + k ≤ s.rem ∧ 1 ≤ m
        ∧ engineStep s =
          refStep (bitsValue s.streamBit s.bitPos.toNat (bitlen s.decompPos.toNat)) m
            (s.advance (bitlen s.decompPos.toNat + k))) := by
  by_cases hr : s.rem < bitlen s.decompPos.toNat
  · exact .inl ⟨hr, by simp [engineStep, engineFetch, h, fetchToken, decodeToken, hr]⟩
  · have hk := varintFrom_consumed_le s.streamBit (s.rem - bitlen s.decompPos.toNat)
      (s.bitPos.toNat + bitlen s.decompPos.toNat) 1
    refine .inr ⟨by omega, _, _, rfl, by omega, varintFrom_value_ge _ _ _ 1, ?_⟩
    simp [engineStep, engineFetch, h, fetchToken, decodeToken, hr, runToken, varintInit]

/-- The command bit, when it is due. -/
theorem engineStep_cmdbit {s : State} (h : s.phase = .cmdbit) :
    (s.rem < 1 ∧ engineStep s = decompFault .underrun s)
    ∨ (1 ≤ s.rem ∧ engineStep s = cmdbitStep (s.streamBit s.bitPos.toNat) (s.advance 1)) := by
  by_cases hr : s.rem < 1
  · exact .inl ⟨hr, by simp [engineStep, engineFetch, h, fetchToken, decodeToken, hr]⟩
  · refine .inr ⟨by omega, ?_⟩
    have hr' : s.rem ≠ 0 := by omega
    simp [engineStep, engineFetch, h, fetchToken, decodeToken, hr', runToken]

/-- The varint of `RDVARINT`. -/
theorem engineStep_varint {s : State} {start : Word} (h : s.phase = .varint start) :
    engineStep s = varintStep s.readVarint.1 (s.advance s.readVarint.2) := by
  simp [engineStep, engineFetch, h, fetchToken, decodeToken, runToken, State.readVarint]

/-- The next colour word, or the end of `PALLOAD`. -/
theorem engineStep_colour {s : State} {sel : Sel} (h : s.phase = .colour sel) :
    (s.palCnt.toNat < s.inputLen sel / 2 ∧ engineStep s =
        colourStep ((s.inputWord sel s.palCnt.toNat).extractLsb' 10 5)
          ((s.inputWord sel s.palCnt.toNat).extractLsb' 5 5) ((s.inputWord sel s.palCnt.toNat).extractLsb' 0 5) s)
    ∨ (s.inputLen sel / 2 ≤ s.palCnt.toNat ∧ engineStep s = palloadDone s) := by
  by_cases hc : s.palCnt.toNat < s.inputLen sel / 2
  · exact .inl ⟨hc, by simp [engineStep, engineFetch, h, hc, runToken, decodeColour]⟩
  · exact .inr ⟨by omega, by simp [engineStep, engineFetch, h, hc]⟩

/-- The fields of a word put together again are the word (R105). -/
theorem entryWord_fields (w : BitVec 16) :
    entryWord (w.getLsbD 15) (w.getLsbD 14) (w.getLsbD 13) (w.extractLsb' 10 3) (w.extractLsb' 0 10) = w := by
  ext j hj
  have : j < 10 ∨ (10 ≤ j ∧ j < 13) ∨ j = 13 ∨ j = 14 ∨ j = 15 := by omega
  rw [← BitVec.getLsbD_eq_getElem, ← BitVec.getLsbD_eq_getElem]
  unfold entryWord
  rcases this with h | ⟨h, h'⟩ | rfl | rfl | rfl
  · simp only [BitVec.getLsbD_append, h, if_true, BitVec.getLsbD_extractLsb', decide_true, Bool.true_and, Nat.zero_add]
  · simp only [BitVec.getLsbD_append, show ¬ j < 10 by omega, show j - 10 < 3 by omega, if_false, if_true,
      BitVec.getLsbD_extractLsb', decide_true, Bool.true_and, show 10 + (j - 10) = j by omega]
  · simp only [BitVec.getLsbD_append]; simp
  · simp only [BitVec.getLsbD_append]; simp
  · simp only [BitVec.getLsbD_append]; simp

/-- The next entry word, or the end of `NTPARSE`. -/
theorem engineStep_entry {s : State} {sel : Sel} (h : s.phase = .entry sel) :
    (s.ntCnt.toNat < s.inputLen sel / 2 ∧ engineStep s = entryStep (s.inputWord sel s.ntCnt.toNat) s)
    ∨ (s.inputLen sel / 2 ≤ s.ntCnt.toNat ∧ engineStep s = ntparseDone s) := by
  by_cases hc : s.ntCnt.toNat < s.inputLen sel / 2
  · refine .inl ⟨hc, ?_⟩
    simp only [engineStep, engineFetch, h, hc, if_true, decodeEntry, runToken, entryWord_fields]
  · exact .inr ⟨by omega, by simp [engineStep, engineFetch, h, hc]⟩

theorem engineStep_none {s : State} (h : s.phase = .none) : engineStep s = s := by
  simp [engineStep, engineFetch, h]

/-! ## A whole command -/

theorem engineRun_ended {s : State} (h : s.st ≠ .busy) (n : Nat) : engineRun n s = s := by
  cases n with
  | zero => rfl
  | succ n =>
    rw [engineRun]
    split
    · exact absurd ‹_› h
    · rfl

theorem engineRun_succ {s : State} (h : s.st = .busy) (n : Nat) :
    engineRun (n + 1) s = engineRun n (engineStep s) := by simp [engineRun, h]

/-- A property that every token keeps is kept by the command. -/
theorem engineRun_keeps {P : State → Prop} (hk : ∀ s, P s → s.st = .busy → P (engineStep s)) (n : Nat) {s : State}
    (h : P s) : P (engineRun n s) := by
  induction n generalizing s with
  | zero => exact h
  | succ n ih =>
    by_cases hb : s.st = .busy
    · rw [engineRun_succ hb]; exact ih (hk s h hb)
    · rw [engineRun_ended hb]; exact h

/-- A command whose tokens lower a measure ends within that many tokens. -/
theorem engineRun_ends {P : State → Prop} (μ : State → Nat) (hk : ∀ s, P s → s.st = .busy → P (engineStep s))
    (hμ : ∀ s, P s → s.st = .busy → (engineStep s).st = .busy → μ (engineStep s) < μ s) (n : Nat) {s : State}
    (h : P s) (hn : μ s < n) : (engineRun n s).st ≠ .busy := by
  induction n generalizing s with
  | zero => exact absurd hn (Nat.not_lt_zero _)
  | succ n ih =>
    by_cases hb : s.st = .busy
    · rw [engineRun_succ hb]
      by_cases hb' : (engineStep s).st = .busy
      · exact ih (hk s h hb) (by have := hμ s h hb hb'; omega)
      · rw [engineRun_ended hb']; exact hb'
    · rw [engineRun_ended hb]; exact hb

/-- What stays true during a `DECOMP`: it is at the header or in the block, with the cursor within the output. -/
def DecompRunning (s : State) : Prop :=
  s.st = .busy → s.phase = .header ∨
    ((s.phase = .lit ∨ s.phase = .ref ∨ s.phase = .cmdbit)
      ∧ s.decompPos.toNat ≤ s.outLen.toNat ∧ s.outLen.toNat ≤ 65535)

theorem decompRunning_of_ended {s : State} (h : s.st ≠ .busy) : DecompRunning s := fun hb => absurd hb h

theorem afterCopy_running {next : Phase} {s : State} (hn : next = .ref ∨ next = .cmdbit)
    (h : s.decompPos.toNat ≤ s.outLen.toNat) (hu : s.outLen.toNat ≤ 65535) : DecompRunning (afterCopy next s) := by
  rcases afterCopy_cases next s with ⟨_, e⟩ | ⟨_, e⟩ <;> rw [e]
  · exact decompRunning_of_ended (by simp)
  · exact fun _ => .inr ⟨by rcases hn with rfl | rfl <;> simp, h, hu⟩

/-- Every token of a `DECOMP` keeps it. -/
theorem engineStep_decompRunning {s : State} (h : DecompRunning s) (hb : s.st = .busy) :
    DecompRunning (engineStep s) := by
  rcases h hb with hp | ⟨hp | hp | hp, hd, hu⟩
  · rcases engineStep_header hp with ⟨_, e⟩ | ⟨_, e⟩ <;> rw [e]
    · exact decompRunning_of_ended (by simp)
    · rcases headerStep_cases _ _ (s.advance 32) with ⟨_, e⟩ | ⟨_, _, e⟩ | ⟨_, _, _, e⟩ <;> rw [e]
      · exact decompRunning_of_ended (by simp)
      · exact decompRunning_of_ended (by simp)
      · refine fun _ => .inr ⟨.inl rfl, Nat.zero_le _, ?_⟩
        simp only [BitVec.toNat_setWidth, BitVec.toNat_ofNat]; omega
  · obtain ⟨e, _, _⟩ := engineStep_lit hp
    rw [e]
    rcases litStep_cases s.readVarint.1 (s.advance s.readVarint.2) with ⟨_, e⟩ | ⟨_, e⟩ <;> rw [e]
    · exact decompRunning_of_ended (by simp)
    · refine afterCopy_running (.inl rfl) ?_ hu
      show (s.decompPos + BitVec.ofNat 32 (min (s.cfg.saturated s.readVarint.1) (s.outLen.toNat - s.decompPos.toNat))).toNat
        ≤ s.outLen.toNat
      rw [copyCursor_toNat _ hd]; omega
  · rcases engineStep_ref hp with ⟨_, e⟩ | ⟨_, m, k, _, _, _, e⟩ <;> rw [e]
    · exact decompRunning_of_ended (by simp)
    · rcases refStep_cases _ m (s.advance _) with ⟨_, e⟩ | ⟨_, e⟩ <;> rw [e]
      · exact decompRunning_of_ended (by simp)
      · refine afterCopy_running (.inr rfl) ?_ hu
        show (s.decompPos + BitVec.ofNat 32 (min (s.cfg.saturated m + 2) (s.outLen.toNat - s.decompPos.toNat))).toNat
          ≤ s.outLen.toNat
        rw [copyCursor_toNat _ hd]; omega
  · rcases engineStep_cmdbit hp with ⟨_, e⟩ | ⟨_, e⟩ <;> rw [e]
    · exact decompRunning_of_ended (by simp)
    · rcases cmdbitStep_cases _ (s.advance 1) with ⟨_, e⟩ | ⟨_, e⟩ <;> rw [e]
      · exact fun _ => .inr ⟨.inl rfl, hd, hu⟩
      · exact fun _ => .inr ⟨.inr (.inl rfl), hd, hu⟩

/-- How many tokens a `DECOMP` may still have: every step that does not end it writes a byte (R151 (a)). -/
def decompLeft (s : State) : Nat :=
  match s.phase with
  | .header => 2 * 65535 + 1
  | .cmdbit => 2 * (s.outLen.toNat - s.decompPos.toNat) + 1
  | _ => 2 * (s.outLen.toNat - s.decompPos.toNat)

theorem afterCopy_left {next : Phase} {s t : State} (hn : next = .ref ∨ next = .cmdbit)
    (hd : t.decompPos.toNat < s.decompPos.toNat ∨ s.decompPos = s.outLen)
    (hu : s.decompPos.toNat ≤ s.outLen.toNat) (hp : t.phase = .lit ∨ t.phase = .ref) (ho : t.outLen = s.outLen)
    (hb : (afterCopy next s).st = .busy) : decompLeft (afterCopy next s) < decompLeft t := by
  rcases afterCopy_cases next s with ⟨_, e⟩ | ⟨hne, e⟩
  · rw [e] at hb; cases hb
  · rw [e]
    have hlt : t.decompPos.toNat < s.decompPos.toNat := by
      rcases hd with h | h
      · exact h
      · exact absurd h hne
    rcases hn with rfl | rfl <;> rcases hp with hp | hp <;> simp only [decompLeft, hp, ho] <;> omega

/-- Every token of a `DECOMP` that does not end it leaves fewer tokens. -/
theorem engineStep_decompLeft {s : State} (h : DecompRunning s) (hb : s.st = .busy)
    (hb' : (engineStep s).st = .busy) : decompLeft (engineStep s) < decompLeft s := by
  rcases h hb with hp | ⟨hp | hp | hp, hd, hu⟩
  · rcases engineStep_header hp with ⟨_, e⟩ | ⟨_, e⟩ <;> rw [e] at hb' ⊢
    · cases hb'
    · rcases headerStep_cases _ _ (s.advance 32) with ⟨_, e⟩ | ⟨_, _, e⟩ | ⟨_, _, _, e⟩ <;> rw [e] at hb' ⊢
      · cases hb'
      · cases hb'
      · simp only [decompLeft, hp, BitVec.toNat_setWidth, BitVec.toNat_ofNat]; omega
  · obtain ⟨e, _, hv⟩ := engineStep_lit hp
    have hv := s.cfg.saturated_pos hv
    rw [e] at hb' ⊢
    rcases litStep_cases s.readVarint.1 (s.advance s.readVarint.2) with ⟨_, e⟩ | ⟨_, e⟩ <;> rw [e] at hb' ⊢
    · cases hb'
    · have hc : (litCopied s.readVarint.1 (s.advance s.readVarint.2)).decompPos.toNat
          = s.decompPos.toNat + min (s.cfg.saturated s.readVarint.1) (s.outLen.toNat - s.decompPos.toNat) := copyCursor_toNat _ hd
      have ho : (litCopied s.readVarint.1 (s.advance s.readVarint.2)).outLen = s.outLen := rfl
      refine afterCopy_left (.inl rfl) ?_ (by rw [hc, ho]; omega) (.inl hp) rfl hb'
      by_cases hz : s.outLen.toNat - s.decompPos.toNat = 0
      · exact .inr (BitVec.eq_of_toNat_eq (by rw [hc, ho]; omega))
      · exact .inl (by rw [hc]; omega)
  · rcases engineStep_ref hp with ⟨_, e⟩ | ⟨_, m, k, _, _, _, e⟩ <;> rw [e] at hb' ⊢
    · cases hb'
    · rcases refStep_cases _ m (s.advance _) with ⟨_, e⟩ | ⟨_, e⟩ <;> rw [e] at hb' ⊢
      · cases hb'
      · generalize hs : bitsValue s.streamBit s.bitPos.toNat (bitlen s.decompPos.toNat) = source at hb' ⊢
        generalize ha : s.advance (bitlen s.decompPos.toNat + k) = a at hb' ⊢
        have hc : (refCopied source m a).decompPos.toNat
            = s.decompPos.toNat + min (s.cfg.saturated m + 2) (s.outLen.toNat - s.decompPos.toNat) := by
          subst ha; exact copyCursor_toNat _ hd
        have ho : (refCopied source m a).outLen = s.outLen := by subst ha; rfl
        refine afterCopy_left (.inr rfl) ?_ (by rw [hc, ho]; omega) (.inr hp) ho.symm hb'
        by_cases hz : s.outLen.toNat - s.decompPos.toNat = 0
        · exact .inr (BitVec.eq_of_toNat_eq (by rw [hc, ho]; omega))
        · exact .inl (by rw [hc]; omega)
  · rcases engineStep_cmdbit hp with ⟨_, e⟩ | ⟨_, e⟩ <;> rw [e] at hb' ⊢
    · cases hb'
    · rcases cmdbitStep_cases _ (s.advance 1) with ⟨_, e⟩ | ⟨_, e⟩ <;> rw [e] at hb' ⊢ <;>
        simp only [decompLeft, hp, State.advance_outLen, State.advance_decompPos] <;> omega

/-- The tokens of a `DECOMP` always end (R151, R280). -/
theorem decompRun_ends (s : State) : (engineRun decompFuel (decompStart s)).st ≠ .busy :=
  engineRun_ends (P := DecompRunning) decompLeft (fun _ h hb => engineStep_decompRunning h hb)
    (fun _ h hb hb' => engineStep_decompLeft h hb hb') decompFuel (fun _ => .inl rfl)
    (by show 2 * 65535 + 1 < decompFuel; decide)

/-- What stays true during a `PALLOAD`. -/
theorem engineStep_colour_keeps {s : State} {sel : Sel} (hp : s.phase = .colour sel) :
    ((engineStep s).st = .idle ∧ s.inputLen sel / 2 ≤ s.palCnt.toNat)
    ∨ ((engineStep s).st = s.st ∧ (engineStep s).phase = .colour sel ∧ (engineStep s).inputLen sel = s.inputLen sel
        ∧ (engineStep s).palCnt.toNat = s.palCnt.toNat + 1 ∧ s.palCnt.toNat < s.inputLen sel / 2) := by
  rcases engineStep_colour hp with ⟨h, e⟩ | ⟨h, e⟩ <;> rw [e]
  · have : s.inputLen sel < 2 ^ 32 := by cases sel <;> exact BitVec.isLt _
    refine .inr ⟨rfl, hp, by cases sel <;> rfl, ?_, h⟩
    simp only [colourStep, BitVec.toNat_add]
    simp; omega
  · exact .inl ⟨rfl, h⟩

/-- The tokens of a `PALLOAD` always end. -/
theorem palloadRun_ends (sel : Sel) (s : State) :
    (engineRun (s.inputLen sel / 2 + 1) (palloadStart sel s)).st ≠ .busy := by
  refine engineRun_ends (P := fun t => t.st = .busy → t.phase = .colour sel)
    (fun t => t.inputLen sel / 2 - t.palCnt.toNat) ?_ ?_ _ (fun _ => rfl) ?_
  · intro t h hb hb'
    rcases engineStep_colour_keeps (h hb) with ⟨e, _⟩ | ⟨_, e, _⟩
    · rw [e] at hb'; cases hb'
    · exact e
  · intro t h hb hb'
    rcases engineStep_colour_keeps (h hb) with ⟨e, _⟩ | ⟨_, _, e, e', _⟩
    · rw [e] at hb'; cases hb'
    · show (engineStep t).inputLen sel / 2 - _ < _
      rw [e, e']; omega
  · cases sel <;> simp [palloadStart, State.inputLen]

/-- What stays true during an `NTPARSE`. -/
theorem engineStep_entry_keeps {s : State} {sel : Sel} (hp : s.phase = .entry sel) :
    ((engineStep s).st = .idle ∧ s.inputLen sel / 2 ≤ s.ntCnt.toNat)
    ∨ ((engineStep s).st = s.st ∧ (engineStep s).phase = .entry sel ∧ (engineStep s).inputLen sel = s.inputLen sel
        ∧ (engineStep s).ntCnt.toNat = s.ntCnt.toNat + 1 ∧ s.ntCnt.toNat < s.inputLen sel / 2) := by
  rcases engineStep_entry hp with ⟨h, e⟩ | ⟨h, e⟩ <;> rw [e]
  · have : s.inputLen sel < 2 ^ 32 := by cases sel <;> exact BitVec.isLt _
    refine .inr ⟨rfl, hp, by cases sel <;> rfl, ?_, h⟩
    simp only [entryStep, BitVec.toNat_add]
    simp; omega
  · exact .inl ⟨rfl, h⟩

/-- The tokens of an `NTPARSE` always end. -/
theorem ntparseRun_ends (sel : Sel) (s : State) :
    (engineRun (s.inputLen sel / 2 + 1) (ntparseStart sel s)).st ≠ .busy := by
  refine engineRun_ends (P := fun t => t.st = .busy → t.phase = .entry sel)
    (fun t => t.inputLen sel / 2 - t.ntCnt.toNat) ?_ ?_ _ (fun _ => rfl) ?_
  · intro t h hb hb'
    rcases engineStep_entry_keeps (h hb) with ⟨e, _⟩ | ⟨_, e, _⟩
    · rw [e] at hb'; cases hb'
    · exact e
  · intro t h hb hb'
    rcases engineStep_entry_keeps (h hb) with ⟨e, _⟩ | ⟨_, _, e, e', _⟩
    · rw [e] at hb'; cases hb'
    · show (engineStep t).inputLen sel / 2 - _ < _
      rw [e, e']; omega
  · cases sel <;> simp [ntparseStart, State.inputLen]

end Sys2Proof.Machine
end

