-- ==== Sys2Proof/Laws/PerInstr.lean ====
section
/-! SUPPORT. The per-instruction family `OpcodeForm`: what shape each instruction's code has. -/

namespace Sys2Proof.Laws

open Sys2Proof

/-- The opcode byte of a host command's row (`30_encoding.md` R93); the other rows have none (R12, R100). -/
def OpcodeForm.opcode : Instr → Option Byte
  | .nop => some 0x00#8
  | .rdbits _ => some 0x01#8
  | .rdbytes _ => some 0x02#8
  | .rdvarint => some 0x03#8
  | .decomp => some 0x10#8
  | .tiledec _ _ => some 0x20#8
  | .palload _ => some 0x30#8
  | .getcolor _ _ _ => some 0x31#8
  | .subpalcnt _ => some 0x32#8
  | .ntparse _ => some 0x40#8
  | .compose _ _ => some 0x50#8
  | .clrerr => some 0xF0#8
  | .sreset => some 0xF1#8
  | .lit _ | .ref _ _ | .cmdbit _ | .varint _ | .blockhdr _ _ | .colorword _ _ _ _ | .ntword _ _ _ _ _ => none

/-- A command's code is one word with its row's opcode in bits 7..0; a stream token's is stream bits; the two data words
are byte pairs. -/
def OpcodeForm.Statement (i : Instr) : Prop :=
  ∀ dp, match encode dp i with
    | .word c => OpcodeForm.opcode i = some (c.extractLsb' 0 8)
    | .bits _ => OpcodeForm.opcode i = none ∧ Machine.dueOf i ≠ none
    | .bytes l => OpcodeForm.opcode i = none ∧ Machine.dueOf i = none ∧ l.length = 2

/-- The low byte of a word built above an opcode byte. -/
theorem low_byte {n : Nat} (a : BitVec n) (op : Byte) : (a ++ op).extractLsb' 0 8 = op := by
  ext j hj
  simp only [BitVec.getElem_extractLsb', BitVec.getLsbD_append, Nat.zero_add, hj, if_true, BitVec.getLsbD_eq_getElem]

theorem OpcodeForm.nop : OpcodeForm.Statement .nop := fun _ => rfl
theorem OpcodeForm.rdbits (n : BitVec 24) : OpcodeForm.Statement (.rdbits n) :=
  fun _ => congrArg some (low_byte n 0x01#8).symm
theorem OpcodeForm.rdbytes (n : BitVec 24) : OpcodeForm.Statement (.rdbytes n) :=
  fun _ => congrArg some (low_byte n 0x02#8).symm
theorem OpcodeForm.rdvarint : OpcodeForm.Statement .rdvarint := fun _ => rfl
theorem OpcodeForm.decomp : OpcodeForm.Statement .decomp := fun _ => rfl
theorem OpcodeForm.tiledec (sel : Sel) (bpp : BitVec 4) : OpcodeForm.Statement (.tiledec sel bpp) :=
  fun _ => congrArg some (low_byte (0#4 ++ bpp ++ 0#15 ++ sel.bit) 0x20#8).symm
theorem OpcodeForm.palload (sel : Sel) : OpcodeForm.Statement (.palload sel) :=
  fun _ => congrArg some (low_byte (0#23 ++ sel.bit) 0x30#8).symm
theorem OpcodeForm.getcolor (sp ci : BitVec 8) (bpp : BitVec 4) : OpcodeForm.Statement (.getcolor sp ci bpp) :=
  fun _ => congrArg some (low_byte (0#4 ++ bpp ++ sp ++ ci) 0x31#8).symm
theorem OpcodeForm.subpalcnt (bpp : BitVec 4) : OpcodeForm.Statement (.subpalcnt bpp) :=
  fun _ => congrArg some (low_byte (0#4 ++ bpp ++ 0#16) 0x32#8).symm
theorem OpcodeForm.ntparse (sel : Sel) : OpcodeForm.Statement (.ntparse sel) :=
  fun _ => congrArg some (low_byte (0#23 ++ sel.bit) 0x40#8).symm
theorem OpcodeForm.compose (tw : BitVec 16) (bpp : BitVec 4) : OpcodeForm.Statement (.compose tw bpp) :=
  fun _ => congrArg some (low_byte (0#4 ++ bpp ++ tw) 0x50#8).symm
theorem OpcodeForm.clrerr : OpcodeForm.Statement .clrerr := fun _ => rfl
theorem OpcodeForm.sreset : OpcodeForm.Statement .sreset := fun _ => rfl
theorem OpcodeForm.lit (n : Nat) : OpcodeForm.Statement (.lit n) := fun _ => ⟨rfl, by simp [Machine.dueOf]⟩
theorem OpcodeForm.ref (source m : Nat) : OpcodeForm.Statement (.ref source m) :=
  fun _ => ⟨rfl, by simp [Machine.dueOf]⟩
theorem OpcodeForm.cmdbit (c : Bool) : OpcodeForm.Statement (.cmdbit c) := fun _ => ⟨rfl, by simp [Machine.dueOf]⟩
theorem OpcodeForm.varint (v : Nat) : OpcodeForm.Statement (.varint v) := fun _ => ⟨rfl, by simp [Machine.dueOf]⟩
theorem OpcodeForm.blockhdr (u v : BitVec 16) : OpcodeForm.Statement (.blockhdr u v) :=
  fun _ => ⟨rfl, by simp [Machine.dueOf]⟩
theorem OpcodeForm.colorword (x : Bool) (b g r : BitVec 5) : OpcodeForm.Statement (.colorword x b g r) :=
  fun _ => ⟨rfl, rfl, rfl⟩
theorem OpcodeForm.ntword (v h p : Bool) (sp : BitVec 3) (tile : BitVec 10) :
    OpcodeForm.Statement (.ntword v h p sp tile) := fun _ => ⟨rfl, rfl, rfl⟩

end Sys2Proof.Laws
end

