-- ==== Sys2Proof/Laws/Step.lean ====
section
/-! SUPPORT. What a step can do, said once: every proof about `step` starts from `step_cases`. -/

namespace Sys2Proof.Machine

open Sys2Proof

/-- The memories of the reset state are in canonical form. -/
theorem reset_memoriesWf : State.reset.MemoriesWf :=
  ⟨.nil, .nil, .nil, .nil, .nil, .nil, .nil⟩

/-- Every instruction has a next state, but for a varint too wide for the instance's accumulator (R11). -/
theorem exec_next_or_refused (i : Instr) (s : State) :
    (∃ t, exec i s = .next t)
    ∨ ((i = .rdvarint ∨ ∃ v, i = .varint v) ∧ s.cfg.varintW ≠ none ∧ exec i s = .refused .varintTooWide) := by
  have hw : ∀ v, s.cfg.varintTooWide v = true → s.cfg.varintW ≠ none := by
    intro v h
    obtain ⟨_, w, e, _⟩ := (s.cfg.varintTooWide_iff v).mp h
    rw [e]; exact Option.some_ne_none w
  cases i with
  | varint v =>
    rcases varintOutcome_cases v s with ⟨h, e⟩ | ⟨_, e⟩
    · exact .inr ⟨.inr ⟨v, rfl⟩, hw v h, e⟩
    · exact .inl ⟨_, e⟩
  | rdvarint =>
    show (∃ t, issueOutcome rdvarint s = .next t) ∨ (_ ∧ _ ∧ issueOutcome rdvarint s = _)
    unfold issueOutcome
    split
    · unfold rdvarint
      split
      · rcases varintOutcome_cases s.accept.readVarint.1
          { s.accept.advance s.accept.readVarint.2 with phase := .varint s.accept.bitPos } with ⟨h, e⟩ | ⟨_, e⟩
        · exact .inr ⟨.inl rfl, hw _ h, e⟩
        · exact .inl ⟨_, e⟩
      · exact .inl ⟨_, rfl⟩
    · exact .inl ⟨_, rfl⟩
    · exact .inl ⟨_, rfl⟩
  | _ => exact .inl ⟨_, rfl⟩

/-- Where no instance limits the varint, every instruction has a next state. -/
theorem exec_next {s : State} (h : s.cfg.varintW = none) (i : Instr) : ∃ t, exec i s = .next t :=
  (exec_next_or_refused i s).resolve_right fun e => e.2.1 h

/-- Inside a command an instruction's work is its meaning. -/
theorem exec_runToken {i : Instr} (h : isCommand i = false) (s : State) :
    exec i s = .next (runToken i s) ∨ ((∃ v, i = .varint v) ∧ exec i s = .refused .varintTooWide) := by
  cases i with
  | varint v =>
    rcases varintOutcome_cases v s with ⟨_, e⟩ | ⟨_, e⟩
    · exact .inr ⟨⟨v, rfl⟩, e⟩
    · exact .inl e
  | _ => first | exact .inl rfl | cases h

/-- The ENGINE meets stream tokens and data words only. -/
theorem engineFetch_token {s s' : State} {i : Instr} (h : engineFetch s = .token i s') : isCommand i = false := by
  unfold engineFetch at h
  have key : ∀ due, fetchToken due s = .token i s' → isCommand i = false := by
    intro due h
    unfold fetchToken at h
    split at h
    · rename_i j n hd
      cases h
      rcases (decodeToken_cases hd).2 with ⟨_, _, rfl⟩ | ⟨_, _, rfl, _⟩ | ⟨_, _, _, rfl, _⟩ | ⟨_, _, rfl⟩ | ⟨_, _, rfl, _⟩
        <;> rfl
    · cases h
  split at h
  · cases h
  · exact key _ h
  · exact key _ h
  · exact key _ h
  · exact key _ h
  · exact key _ h
  · split at h <;> cases h; rfl
  · split at h <;> cases h; rfl

/-- A varint is met in `RDVARINT` only. -/
theorem engineFetch_varint {s s' : State} {v : Nat} (h : engineFetch s = .token (.varint v) s') :
    ∃ start, s.phase = .varint start := by
  unfold engineFetch at h
  have key : ∀ due, fetchToken due s = .token (.varint v) s' → due = .varint := by
    intro due h
    unfold fetchToken at h
    split at h
    · rename_i j n hd
      cases h
      rcases (decodeToken_cases hd).2 with
        ⟨_, _, e⟩ | ⟨_, _, e, _⟩ | ⟨_, _, _, e, _⟩ | ⟨_, _, e⟩ | ⟨e, _⟩ <;> first | exact e | cases e
    · cases h
  split at h
  all_goals first
    | exact ⟨_, ‹_›⟩
    | exact absurd (key _ h) (by decide)
    | cases h
    | (split at h <;> cases h)

/-- With no HOST action a command in progress goes on by one token's work, or its varint is refused. -/
theorem step_engine {s : State} (hq : s.hostq = []) (hb : s.st = .busy) :
    step s = .next (engineStep s) ∨ ((∃ start, s.phase = .varint start) ∧ step s = .refused .varintTooWide) := by
  unfold step fetch engineStep
  rw [hq]
  simp only [hb]
  cases he : engineFetch s with
  | token i s' =>
    rcases exec_runToken (engineFetch_token he) s' with e | ⟨⟨v, rfl⟩, e⟩
    · exact .inl e
    · exact .inr ⟨engineFetch_varint he, e⟩
  | settled s' => exact .inl rfl

/-- Outside `RDVARINT` a command in progress goes on. -/
theorem step_engine_next {s : State} (hq : s.hostq = []) (hb : s.st = .busy) (hp : ∀ start, s.phase ≠ .varint start) :
    step s = .next (engineStep s) :=
  (step_engine hq hb).resolve_right fun ⟨⟨start, e⟩, _⟩ => hp start e

/-- A command word is decoded and run, or rejected. -/
theorem step_command {s : State} {a c : Word} {rest : List HostOp} (hq : s.hostq = .write a c :: rest)
    (ha : resolve s.cfg a = some (.reg 0)) :
    step s = match decodeCommand c with
      | .ok i => exec i s.popHost
      | .error e => .next (rejectCommand e c s.popHost) := by
  cases hd : decodeCommand c <;> simp only [step, fetch, hq, ha, hd, if_true]

/-- Every other HOST action is what the HOST's port does with it. -/
theorem step_host {s : State} {op : HostOp} {rest : List HostOp} (hq : s.hostq = op :: rest)
    (h : ∀ a d, op = .write a d → resolve s.cfg a ≠ some (.reg 0)) : step s = hostAct op s.popHost := by
  cases op with
  | write a d => simp only [step, fetch, hq, h a d rfl, if_false]
  | read a => simp only [step, fetch, hq]
  | reset => simp only [step, fetch, hq]

/-- What a step that answers a next state has done: one HOST action, or one token's work, or nothing. -/
theorem step_cases {s t : State} (h : step s = .next t) :
    (∃ a c rest i, s.hostq = .write a c :: rest ∧ resolve s.cfg a = some (.reg 0) ∧ decodeCommand c = .ok i
        ∧ exec i s.popHost = .next t)
    ∨ (∃ a c rest e, s.hostq = .write a c :: rest ∧ resolve s.cfg a = some (.reg 0) ∧ decodeCommand c = .error e
        ∧ t = rejectCommand e c s.popHost)
    ∨ (∃ a rest, s.hostq = .read a :: rest ∧ t = s.popHost.hostRead a)
    ∨ (∃ rest, s.hostq = .reset :: rest ∧ t = s.popHost.resetNow)
    ∨ (∃ a d rest, s.hostq = .write a d :: rest ∧ s.st ≠ .busy ∧ resolve s.cfg a ≠ some (.reg 0)
        ∧ t = s.popHost.hostWrite (resolve s.cfg a) d)
    ∨ (s.hostq = [] ∧ s.st = .busy ∧ t = engineStep s)
    ∨ (s.hostq = [] ∧ s.st ≠ .busy ∧ t = s) := by
  cases hq : s.hostq with
  | nil =>
    by_cases hb : s.st = .busy
    · rcases step_engine hq hb with e | ⟨_, e⟩ <;> rw [e] at h <;> cases h
      exact .inr (.inr (.inr (.inr (.inr (.inl ⟨rfl, hb, rfl⟩)))))
    · have he : step s = .next s := by
        unfold step fetch
        rw [hq]
        cases hs : s.st <;> first | exact absurd hs hb | simp
      rw [he] at h; cases h
      exact .inr (.inr (.inr (.inr (.inr (.inr ⟨rfl, hb, rfl⟩)))))
  | cons op rest =>
    cases op with
    | read a =>
      rw [step_host hq (by intro _ _ e; cases e)] at h; cases h
      exact .inr (.inr (.inl ⟨a, rest, rfl, rfl⟩))
    | reset =>
      rw [step_host hq (by intro _ _ e; cases e)] at h; cases h
      exact .inr (.inr (.inr (.inl ⟨rest, rfl, rfl⟩)))
    | write a d =>
      by_cases ha : resolve s.cfg a = some (.reg 0)
      · rw [step_command hq ha] at h
        split at h
        · exact .inl ⟨a, d, rest, _, rfl, ha, ‹_›, h⟩
        · cases h; exact .inr (.inl ⟨a, d, rest, _, rfl, ha, ‹_›, rfl⟩)
      · rw [step_host hq (by intro _ _ e; cases e; exact ha)] at h
        unfold hostAct at h
        simp only [State.popHost_st, State.popHost_cfg] at h
        cases hst : s.st with
        | busy => simp only [hst] at h; cases h
        | idle =>
          simp only [hst] at h; cases h
          exact .inr (.inr (.inr (.inr (.inl ⟨a, d, rest, rfl, by simp, ha, rfl⟩))))
        | fault =>
          simp only [hst] at h; cases h
          exact .inr (.inr (.inr (.inr (.inl ⟨a, d, rest, rfl, by simp, ha, rfl⟩))))

/-- What a HOST write other than to `CMD` changes (R36, R76, R77). -/
theorem hostWrite_cases (s : State) (t : Option Target) (d : Word) :
    (t = some (.reg 0x10) ∧ s.hostWrite t d = { s with srcLen := d })
    ∨ (t = some (.reg 0x14) ∧ s.hostWrite t d = { s with bitPos := d })
    ∨ (∃ i, t = some (.elem .src i) ∧ s.hostWrite t d = { s with src := s.src.write i (d.setWidth 8) })
    ∨ (t ≠ some (.reg 0x10) ∧ t ≠ some (.reg 0x14) ∧ (∀ i, t ≠ some (.elem .src i)) ∧ s.hostWrite t d = s) := by
  unfold State.hostWrite
  split
  · exact .inl ⟨rfl, rfl⟩
  · exact .inr (.inl ⟨rfl, rfl⟩)
  · exact .inr (.inr (.inl ⟨_, rfl, rfl⟩))
  · rename_i h1 h2 h3
    exact .inr (.inr (.inr ⟨fun e => h1 e, fun e => h2 e, fun i e => h3 i e, rfl⟩))

/-- The offset of an address in the register window (R36, R76). -/
theorem registerOffset_eq (base a : Word) (o : Nat) :
    registerOffset base a = some o ↔ a.toNat = base.toNat + o ∧ o < 0x100 ∧ (o % 4 = 0 ∨ 0x44 ≤ o) := by
  unfold registerOffset
  split
  · rw [Option.some.injEq]; omega
  · simp only [reduceCtorEq, false_iff]; omega

/-- The element of an address in a window (R76). -/
theorem windowIndex_eq (base : Word) {size : Nat} (count : Nat) (hs : 0 < size) (a : Word) (i : Nat) :
    windowIndex base size count a = some i ↔ a.toNat = base.toNat + size * i ∧ i < count := by
  unfold windowIndex
  split
  · rename_i h
    rw [Option.some.injEq]
    have := Nat.div_add_mod (a.toNat - base.toNat) size
    constructor
    · rintro rfl; exact ⟨by omega, h.2.2⟩
    · rintro ⟨e, _⟩
      rw [show a.toNat - base.toNat = size * i by omega, Nat.mul_div_cancel_left _ hs]
  · rename_i h
    simp only [reduceCtorEq, false_iff]
    rintro ⟨e, hi⟩
    refine h ⟨by omega, ?_, ?_⟩ <;> rw [show a.toNat - base.toNat = size * i by omega]
    · exact Nat.mul_mod_right _ _
    · rwa [Nat.mul_div_cancel_left _ hs]

/-- What an address can name (R76): the first window of R76's table that has it, or nothing. -/
theorem resolve_cases (c : Config) (a : Word) :
    (∃ o, resolve c a = some (.reg o) ∧ a.toNat = c.regBase.toNat + o ∧ o < 0x100 ∧ (o % 4 = 0 ∨ 0x44 ≤ o))
    ∨ (∃ i, resolve c a = some (.elem .src i) ∧ a.toNat = c.srcBase.toNat + 1 * i ∧ i < c.srcCap)
    ∨ (∃ i, resolve c a = some (.elem .lit i) ∧ a.toNat = c.litBase.toNat + 1 * i ∧ i < litCap)
    ∨ (∃ i, resolve c a = some (.elem .out i) ∧ a.toNat = c.outBase.toNat + 1 * i ∧ i < outCap)
    ∨ (∃ i, resolve c a = some (.elem .tile i) ∧ a.toNat = c.tileBase.toNat + 1 * i ∧ i < 64 * c.tileCap)
    ∨ (∃ i, resolve c a = some (.elem .pal i) ∧ a.toNat = c.palBase.toNat + 4 * i ∧ i < c.palCap)
    ∨ (∃ i, resolve c a = some (.elem .nt i) ∧ a.toNat = c.ntBase.toNat + 2 * i ∧ i < c.ntCap)
    ∨ (∃ i, resolve c a = some (.elem .fb i) ∧ a.toNat = c.fbBase.toNat + 1 * i ∧ i < c.fbCap)
    ∨ (resolve c a = none ∧ registerOffset c.regBase a = none ∧ windowIndex c.srcBase 1 c.srcCap a = none
        ∧ windowIndex c.litBase 1 litCap a = none ∧ windowIndex c.outBase 1 outCap a = none
        ∧ windowIndex c.tileBase 1 (64 * c.tileCap) a = none ∧ windowIndex c.palBase 4 c.palCap a = none
        ∧ windowIndex c.ntBase 2 c.ntCap a = none ∧ windowIndex c.fbBase 1 c.fbCap a = none) := by
  unfold resolve
  split
  · exact .inl ⟨_, rfl, (registerOffset_eq _ _ _).mp ‹_›⟩
  refine .inr ?_
  split
  · exact .inl ⟨_, rfl, (windowIndex_eq _ _ (by decide) _ _).mp ‹_›⟩
  refine .inr ?_
  split
  · exact .inl ⟨_, rfl, (windowIndex_eq _ _ (by decide) _ _).mp ‹_›⟩
  refine .inr ?_
  split
  · exact .inl ⟨_, rfl, (windowIndex_eq _ _ (by decide) _ _).mp ‹_›⟩
  refine .inr ?_
  split
  · exact .inl ⟨_, rfl, (windowIndex_eq _ _ (by decide) _ _).mp ‹_›⟩
  refine .inr ?_
  split
  · exact .inl ⟨_, rfl, (windowIndex_eq _ _ (by decide) _ _).mp ‹_›⟩
  refine .inr ?_
  split
  · exact .inl ⟨_, rfl, (windowIndex_eq _ _ (by decide) _ _).mp ‹_›⟩
  refine .inr ?_
  split
  · exact .inl ⟨_, rfl, (windowIndex_eq _ _ (by decide) _ _).mp ‹_›⟩
  · exact .inr ⟨rfl, ‹_›, ‹_›, ‹_›, ‹_›, ‹_›, ‹_›, ‹_›, ‹_›⟩

/-- A word whose upper 24 bits are 0 is its opcode byte. -/
theorem word_of_opcode {c v : Word} (hm : c &&& 0xFFFFFF00#32 = 0#32)
    (ho : (c.extractLsb' 0 8).toNat = v.toNat) : c = v := by
  have hz : c.toNat &&& 0xFFFFFF00 = 0 := by have := congrArg BitVec.toNat hm; simpa using this
  have hlt : c.toNat < 256 := by
    by_contra hge
    obtain ⟨j, hj, hj'⟩ := Nat.exists_ge_and_testBit_of_ge_two_pow (n := 8) (x := c.toNat) (by omega)
    have hj32 : j < 32 := by
      by_contra h
      rw [Nat.testBit_lt_two_pow (Nat.lt_of_lt_of_le c.isLt (Nat.pow_le_pow_right (by decide) (by omega)))] at hj'
      cases hj'
    have hb : ∀ k, k < 32 → 8 ≤ k → (0xFFFFFF00 : Nat).testBit k = true := by decide
    have := congrArg (fun n => n.testBit j) hz
    simp [Nat.testBit_and, hj', hb j hj32 hj] at this
  refine BitVec.eq_of_toNat_eq ?_
  rw [BitVec.extractLsb'_toNat] at ho
  simp only [Nat.shiftRight_zero] at ho
  omega

/-- What decodes is a well-formed command, and the two that FAULT accepts are exactly their words (R94, R249). -/
theorem decodeCommand_isCommand {c : Word} {i : Instr} (h : decodeCommand c = .ok i) :
    isCommand i = true ∧ i.wellFormed = true ∧ (i = .clrerr → c = 0x000000F0#32)
      ∧ (i = .sreset → c = 0x000000F1#32) := by
  unfold decodeCommand at h
  split at h
  all_goals first
    | (obtain ⟨rfl, hm, hw⟩ := checkedCommand_ok h
       refine ⟨rfl, hw, fun e => ?_, fun e => ?_⟩ <;> first
         | exact word_of_opcode hm (by assumption)
         | cases e)
    | cases h

end Sys2Proof.Machine
end

