-- ==== Sys2Proof/Tests/Slice0.lean ====
section
/-! SUPPORT. The model's own tests, each expected value from the spec (the vector it comes from is named), and for every
statement with hypotheses a witness that meets them. -/

/- One proof at a time: elaborated side by side, these theorems need more memory than a check gives. -/
set_option Elab.async false

namespace Sys2Proof.Tests

open Sys2Proof Sys2Proof.Machine

/-! ## Helpers -/

/-- Reset, then the bytes in SRC with `BITPOS` at 0 (`LOAD`, R272). -/
def loaded (l : List Byte) : State :=
  { State.reset with src := Memory.ofList 0 l, srcLen := BitVec.ofNat 32 l.length }

/-- A command in progress on those bytes. -/
def busyAt (p : Phase) (l : List Byte) : State := { loaded l with st := .busy, phase := p }

/-- The fault of T62. -/
def faulted : State := { State.reset with st := .fault, err := 0x00FF1005#32 }

/-- The HOST writes a command word next. -/
def commanded (c : Word) (s : State) : State := { s with hostq := [.write 0#32 c] }

/-- The outcome is a next state with a property. -/
def ends (o : Host.Outcome State Fault Refusal) (p : State → Bool) : Bool :=
  match o with
  | .next t => p t
  | .fault _ => false
  | .refused _ => false

/-- A memory's elements from `a` on, if all are specified. -/
def elems {w : Nat} (m : Memory w) (a n : Nat) : List (Option (BitVec w)) := (List.range n).map fun i => m.lookup (a + i)

/-- The stream bits of a list. -/
def bitOf (l : List Bool) : Nat → Bool := fun k => l.getD k false

/-- Stream bits from a number's binary digits, `n` of them, the first most significant. -/
def bits (n v : Nat) : List Bool := encodeField v n

/-- Tile A of T20 and tile B of T21. -/
def tileA : List Byte := [0x81, 0x41, 0xFF, 0x00, 0x00, 0xFF, 0xFF, 0xFF, 0x0F, 0x33, 0x00, 0x00, 0x00, 0x00, 0x01, 0x80]
def tileB : List Byte := [0xF0, 0xCC, 0xF0, 0xCC, 0xF0, 0xCC, 0xF0, 0xCC, 0xF0, 0xCC, 0xF0, 0xCC, 0xF0, 0xCC, 0xF0, 0xCC]

/-- The palette bytes of H1. -/
def paletteBytes : List Byte :=
  [0x21, 0x04, 0x1F, 0x00, 0xE0, 0x03, 0x00, 0x7C, 0xFF, 0x7F, 0x1F, 0x7C, 0xE0, 0x7F, 0xFF, 0x03]

/-- The tiles block of H1, and the block of S1. -/
def tilesBlock : List Byte :=
  [0x00, 0x20, 0x00, 0x14, 0x81, 0x41, 0xFF, 0x00, 0x00, 0xFF, 0xFF, 0xFF, 0x0F, 0x33, 0x00, 0x00, 0x00, 0x00, 0x01, 0x80,
    0xF0, 0xCC, 0x04, 0xC1, 0x08]
def blockS1 : List Byte := [0x00, 0x08, 0x00, 0x04, 0x41, 0x42, 0x20, 0x40]

/-- The palette of T50 as entries. -/
def paletteEntries : List (BitVec 24) :=
  [0x080808, 0xFF0000, 0x00FF00, 0x0000FF, 0xFFFFFF, 0xFF00FF, 0x00FFFF, 0xFFFF00]

/-- The state of H1 before `COMPOSE`, with a nametable of its own. -/
def composing (nt : List (BitVec 16)) : State :=
  { State.reset with
    tile := Memory.ofList 3 (decodeTiles .two (fun i => (tileA ++ tileB).getD i 0#8) 2)
    tileCnt := 2#32
    tileV := true
    pal := Memory.ofList 4 paletteEntries
    palCnt := 8#32
    palV := true
    nt := Memory.ofList 5 nt
    ntCnt := BitVec.ofNat 32 nt.length
    ntV := true }

/-! ## Well-formedness: each check refuses an ill-formed term -/

theorem test_wf_rdbits : (Instr.rdbits 33#24).wellFormed = false := by decide
theorem test_wf_tiledec : (Instr.tiledec .src 3#4).wellFormed = false := by decide
theorem test_wf_getcolor : (Instr.getcolor 0#8 0#8 0#4).wellFormed = false := by decide
theorem test_wf_subpalcnt : (Instr.subpalcnt 1#4).wellFormed = false := by decide
theorem test_wf_compose_bpp : (Instr.compose 1#16 5#4).wellFormed = false := by decide
theorem test_wf_compose_tw : (Instr.compose 0#16 2#4).wellFormed = false := by decide
theorem test_wf_lit : (Instr.lit 0).wellFormed = false := by decide
theorem test_wf_ref_varint : (Instr.ref 0 0).wellFormed = false := by decide
theorem test_wf_ref_source : (Instr.ref 65536 1).wellFormed = false := by decide
theorem test_wf_varint : (Instr.varint 0).wellFormed = false := by decide

/-! ## Decoding: words written out from R92, R93, R95 to R105 -/

-- R93's opcodes with the operands of H1, H2, T1, T33
theorem test_decode_nop : decodeCommand 0x00000000#32 = .ok .nop := by decide
theorem test_decode_rdbits : decodeCommand 0x00000B01#32 = .ok (.rdbits 11#24) := by decide
theorem test_decode_rdbytes : decodeCommand 0x00000202#32 = .ok (.rdbytes 2#24) := by decide
theorem test_decode_rdvarint : decodeCommand 0x00000003#32 = .ok .rdvarint := by decide
theorem test_decode_decomp : decodeCommand 0x00000010#32 = .ok .decomp := by decide
theorem test_decode_tiledec : decodeCommand 0x02000120#32 = .ok (.tiledec .out 2#4) := by decide
theorem test_decode_palload : decodeCommand 0x00000030#32 = .ok (.palload .src) := by decide
theorem test_decode_getcolor : decodeCommand 0x02010331#32 = .ok (.getcolor 1#8 3#8 2#4) := by decide
theorem test_decode_subpalcnt : decodeCommand 0x04000032#32 = .ok (.subpalcnt 4#4) := by decide
theorem test_decode_ntparse : decodeCommand 0x00000140#32 = .ok (.ntparse .out) := by decide
theorem test_decode_compose : decodeCommand 0x02000350#32 = .ok (.compose 3#16 2#4) := by decide
theorem test_decode_clrerr : decodeCommand 0x000000F0#32 = .ok .clrerr := by decide
theorem test_decode_sreset : decodeCommand 0x000000F1#32 = .ok .sreset := by decide
-- T60
theorem test_decode_bad_opcode : decodeCommand 0x00000011#32 = .error .badOpcode := by decide
theorem test_decode_reserved : decodeCommand 0x02000220#32 = .error .reservedBits := by decide
theorem test_decode_bad_param : decodeCommand 0x05000150#32 = .error .badParam := by decide
-- T4: 6 = 0 1 0 0 1, with other bits after it; as the operand of a literal step and as a varint
theorem test_decode_lit :
    decodeToken .lit 0 (bitOf [false, true, false, false, true, false]) 0 6 = .ok (.lit 6, 5) := by decide
theorem test_decode_varint :
    decodeToken .varint 0 (bitOf [false, true, false, false, true, false]) 0 6 = .ok (.varint 6, 5) := by decide
-- T16: w = 5, source 00101, varint 1
theorem test_decode_ref :
    decodeToken .ref 17 (bitOf [false, false, true, false, true, true]) 0 6 = .ok (.ref 5 1, 6) := by decide
theorem test_decode_cmdbit : decodeToken .cmdbit 5 (bitOf [true]) 0 1 = .ok (.cmdbit true, 1) := by decide
-- T16: 00 14 00 13
theorem test_decode_blockhdr :
    decodeToken .header 0 (bitOf (bits 32 0x00140013)) 0 32 = .ok (.blockhdr 20#16 19#16, 32) := by decide +kernel
-- R104: bit 15, blue 31, green 1, red 2: 1 11111 00001 00010, low byte first
theorem test_decode_colorword :
    decodeColour (littleEndian16 0x22#8 0xFC#8) = .colorword true 31#5 1#5 2#5 := by decide
-- H1: 0x4401 is tile 1, sub-palette 1, flip_h; X5: 0x8000 is flip_v
theorem test_decode_ntword :
    decodeEntry (littleEndian16 0x01#8 0x44#8) = .ntword false true false 1#3 1#10 := by decide
theorem test_decode_ntword_flip_v : decodeEntry 0x8000#16 = .ntword true false false 0#3 0#10 := by decide

/-! ## The words step fetches -/

theorem test_table_command : decodeTableWord 32 0x00000B01 = some (.rdbits 11#24) := by decide
theorem test_table_entry : decodeTableWord 16 0x4401 = some (.ntword false true false 1#3 1#10) := by decide
theorem test_table_bit : decodeTableWord 8 1 = some (.cmdbit true) := by decide
theorem test_fetch_command : step (State.reset.withFetchWord 32 0x00000001) = exec (.rdbits 0#24) State.reset := by rfl
theorem test_fetch_entry :
    ends (step (State.reset.withFetchWord 16 0x4401)) (fun t => t.nt.lookup 0 == some 0x4401#16 && t.ntCnt == 1#32)
      = true := by decide +kernel
theorem test_fetch_bit :
    ends (step (State.reset.withFetchWord 8 1)) (fun t => t.nextCmd == 1#32 && t.bitPos == 8#32) = true := by
  decide +kernel

/-! ## One step each -/

-- T61, T62
theorem test_nop : ends (step (commanded 0x00000000#32 State.reset)) (fun t => t.status == 0x0000000C#32) = true := by
  decide +kernel
theorem test_nop_in_fault :
    ends (step (commanded 0x00000000#32 faulted)) (fun t => t.status == 0x0000000A#32 && t.err == 0x00FF1005#32) = true := by
  decide +kernel
-- T1 (the last row), T2 (the first)
theorem test_rdbits :
    ends (step (commanded 0x00000B01#32 { loaded [0xA5, 0x3C, 0xF0, 0x0F] with bitPos := 21#32 }))
      (fun t => t.result == 0xF#32 && t.bitPos == 32#32 && t.status == 0x0000000C#32) = true := by decide +kernel
theorem test_rdbits_word :
    ends (step (commanded 0x00002001#32 (loaded [0xA5, 0x3C, 0xF0, 0x0F]))) (fun t => t.result == 0xA53CF00F#32) = true := by
  decide +kernel
-- T3 (the first row, the last)
theorem test_rdbytes :
    ends (step (commanded 0x00000202#32 { loaded [0x11, 0x22, 0x33, 0x44] with bitPos := 8#32 }))
      (fun t => elems t.lit 0 2 == [some 0x22, some 0x33] && t.litLen == 2#32 && t.litV && t.bitPos == 24#32) = true := by
  decide +kernel
theorem test_rdbytes_misaligned :
    ends (step (commanded 0x00000502#32 { loaded [0x11, 0x22, 0x33, 0x44] with bitPos := 12#32 }))
      (fun t => t.err == 0x00021305#32 && t.bitPos == 12#32 && !t.litV) = true := by decide +kernel
-- T5 (data bits 1 1 1 0; value 2^33 - 1)
theorem test_rdvarint :
    ends (step (commanded 0x00000003#32 (loaded [0x54]))) (fun t => t.result == 30#32 && t.bitPos == 8#32) = true := by
  decide +kernel
theorem test_rdvarint_range :
    ends (step (commanded 0x00000003#32 (loaded [0x55, 0x55, 0x55, 0x55, 0x55, 0x55, 0x55, 0x55])))
      (fun t => t.err == 0x00031605#32 && t.result == 0#32) = true := by decide +kernel
-- T14 (an overlapping copy), T17 (a source that is not written)
theorem test_decomp :
    ends (step (commanded 0x00000010#32 (loaded [0x00, 0x05, 0x00, 0x03, 0x7A, 0x90, 0x12])))
      (fun t => elems t.out 0 6 == [some 0x7A, some 0x7A, some 0x7A, some 0x7A, some 0x7A, none] && t.bitPos == 55#32
        && t.outLen == 5#32 && t.decompPos == 5#32 && t.litLen == 1#32 && t.dataPos == 1#32 && t.litV && t.outV)
      = true := by decide +kernel
theorem test_decomp_fault :
    ends (step (commanded 0x00000010#32 (loaded [0x00, 0x04, 0x00, 0x03, 0x61, 0xE0])))
      (fun t => t.err == 0x00100402#32 && !t.litV && !t.outV) = true := by decide +kernel
-- T20, T22
theorem test_tiledec :
    ends (step (commanded 0x02000020#32 (loaded tileA)))
      (fun t => elems t.tile 0 8 == [some 1, some 2, some 0, some 0, some 0, some 0, some 0, some 3]
        && elems t.tile 32 8 == [some 0, some 0, some 2, some 2, some 1, some 1, some 3, some 3]
        && t.status == 0x00000404#32 && t.tileCnt == 1#32 && t.tileBpp == 2#32) = true := by decide +kernel
theorem test_tiledec_four :
    ends (step (commanded 0x04000020#32 (loaded
      [0x80, 0x40, 0xFF, 0xFF, 0, 0, 0, 0, 0, 0, 0, 0, 0, 0, 0x01, 0, 0x20, 0x10, 0xFF, 0xFF, 0, 0, 0, 0, 0, 0, 0, 0, 0, 0, 0,
        0x01])))
      (fun t => elems t.tile 0 9 == [some 1, some 2, some 4, some 8, some 0, some 0, some 0, some 0, some 15]
        && t.tile.lookup 63 == some 9) = true := by decide +kernel
-- H1 row 2
theorem test_palload :
    ends (step (commanded 0x00000030#32 (loaded paletteBytes)))
      (fun t => elems t.pal 0 8 == paletteEntries.map some && t.palCnt == 8#32 && t.status == 0x00000804#32) = true := by
  decide +kernel
-- H1 rows 10 and 13
theorem test_getcolor :
    ends (step (commanded 0x02010331#32 (composing []))) (fun t => t.result == 0x00FFFF00#32) = true := by decide +kernel
theorem test_getcolor_bound :
    ends (step (commanded 0x02020031#32 (composing [])))
      (fun t => t.err == 0x00310604#32 && t.result == 0#32 && t.palV) = true := by decide +kernel
-- H1 rows 11 and 12
theorem test_subpalcnt :
    ends (step (commanded 0x02000032#32 (composing []))) (fun t => t.result == 2#32) = true := by decide +kernel
theorem test_subpalcnt_four :
    ends (step (commanded 0x04000032#32 (composing []))) (fun t => t.result == 0#32) = true := by decide +kernel
-- H1 row 8, the same bytes with a trailing one (R71)
theorem test_ntparse :
    ends (step (commanded 0x00000040#32 (loaded [0x00, 0x00, 0x01, 0x44, 0x00, 0x84, 0xFF])))
      (fun t => elems t.nt 0 4 == [some 0x0000, some 0x4401, some 0x8400, none] && t.ntCnt == 3#32 && t.ntV) = true := by
  decide +kernel
-- T54 (both flips: image row 0 is 1 0 0 0 0 0 0 2), T53 (the tile lookup comes first)
theorem test_compose :
    ends (step (commanded 0x02000150#32 (composing [0xC000])))
      (fun t => elems t.fb 0 8 == [some 0xFF, some 0x00, some 0x00, some 0xFF, some 0x08, some 0x08, some 0x08, some 0x00]
        && elems t.fb 28 4 == [some 0x00, some 0xFF, some 0x00, some 0xFF]
        && elems t.fb 508 5 == [some 0x00, some 0x00, some 0x00, some 0x00, none]
        && t.imgW == 8#32 && t.imgH == 16#32 && t.fbV) = true := by decide +kernel
theorem test_compose_fault :
    ends (step (commanded 0x02000150#32 (composing [0x0C02]))) (fun t => t.err == 0x00500704#32 && !t.fbV) = true := by
  decide +kernel
-- T62
theorem test_clrerr :
    ends (step (commanded 0x000000F0#32 faulted)) (fun t => t.status == 0x0000000C#32 && t.err == 0#32) = true := by
  decide +kernel
theorem test_sreset :
    ends (step (commanded 0x000000F1#32 faulted)) (fun t => t.status == 0x00000008#32 && t.err == 0#32) = true := by
  decide +kernel
-- T15: varint 1 = LIT 1; then w = 1, source 0, varint 1: length 3, clamped to 2
theorem test_lit :
    ends (exec (.lit 1) { busyAt .lit [] with lit := Memory.ofList 1 [0x51], litLen := 1#32, outLen := 3#32 })
      (fun t => t.out.lookup 0 == some 0x51 && t.decompPos == 1#32 && t.dataPos == 1#32 && t.phase == .ref) = true := by
  decide +kernel
theorem test_ref :
    ends (exec (.ref 0 1)
      { busyAt .ref [] with out := Memory.ofList 2 [0x51], decompPos := 1#32, dataPos := 1#32, outLen := 3#32 })
      (fun t => elems t.out 0 4 == [some 0x51, some 0x51, some 0x51, none] && t.decompPos == 3#32 && t.outV
        && t.st == .idle) = true := by decide +kernel
-- T19: w = 2, source 00, varint 1 at DECOMP_POS = 2 of 16: the three bytes 61 62 61
theorem test_ref_overlap :
    ends (exec (.ref 0 1) { busyAt .ref [] with out := Memory.ofList 2 [0x61, 0x62], decompPos := 2#32, outLen := 16#32 })
      (fun t => elems t.out 0 6 == [some 0x61, some 0x62, some 0x61, some 0x62, some 0x61, none]
        && t.phase == .cmdbit) = true := by decide +kernel
-- R148 with LIT_BIT = 0, and with LIT_BIT = 1
theorem test_cmdbit : ends (exec (.cmdbit false) (busyAt .cmdbit [])) (fun t => t.nextCmd == 0#32 && t.phase == .lit) = true := by
  decide +kernel
theorem test_cmdbit_polarity :
    ends (exec (.cmdbit false) { busyAt .cmdbit [] with cfg := { Config.standard with litBit := true } })
      (fun t => t.nextCmd == 1#32 && t.phase == .ref) = true := by decide +kernel
-- T5: 65535; a value of 2^32
theorem test_varint :
    ends (exec (.varint 65535) (busyAt (.varint 0#32) [])) (fun t => t.result == 65535#32 && t.st == .idle) = true := by
  decide +kernel
theorem test_varint_range :
    ends (exec (.varint (2 ^ 32)) (busyAt (.varint 0#32) [])) (fun t => t.err == 0x00031605#32) = true := by decide +kernel
-- R11: a value a 16-bit accumulator does not hold is refused, by the command too; 2^32 is still R126's fault (U8)
theorem test_varint_refused :
    exec (.varint 65536) { busyAt (.varint 0#32) [] with cfg := { Config.standard with varintW := some 16 } }
      = .refused .varintTooWide := by rfl
theorem test_rdvarint_refused :
    (match exec .rdvarint { loaded [0x55, 0x55, 0x55, 0x55] with cfg := { Config.standard with varintW := some 16 } } with
      | .refused r => r == .varintTooWide
      | _ => false) = true := by decide +kernel
theorem test_varint_narrow_range :
    ends (exec (.varint (2 ^ 32)) { busyAt (.varint 0#32) [] with cfg := { Config.standard with varintW := some 16 } })
      (fun t => t.err == 0x00031605#32) = true := by decide +kernel
-- U8: in DECOMP its saturation does not show
theorem test_lit_saturated :
    ends (exec (.lit 65537) { busyAt .lit [] with
        cfg := { Config.standard with varintW := some 16 }, lit := Memory.ofList 1 [0x51], litLen := 1#32, outLen := 1#32 })
      (fun t => t.out.lookup 0 == some 0x51 && t.decompPos == 1#32) = true := by decide +kernel
-- T12: U = 1, V = 3, payload 41; T19a: V = 1
theorem test_blockhdr :
    ends (exec (.blockhdr 1#16 3#16) { busyAt .header [0x00, 0x01, 0x00, 0x03, 0x41] with bitPos := 32#32 })
      (fun t => t.lit.lookup 0 == some 0x41 && t.litLen == 1#32 && t.outLen == 1#32 && t.bitPos == 40#32
        && t.phase == .lit) = true := by decide +kernel
theorem test_blockhdr_bad :
    ends (exec (.blockhdr 4#16 1#16) { busyAt .header [0x00, 0x04, 0x00, 0x01] with bitPos := 32#32 })
      (fun t => t.err == 0x00100202#32) = true := by decide +kernel
-- X2: 0x7C00 is blue 255, 0x0001 red 8
theorem test_colorword :
    ends (exec (.colorword false 31#5 0#5 0#5) (busyAt (.colour .src) []))
      (fun t => t.pal.lookup 0 == some 0x0000FF && t.palCnt == 1#32) = true := by decide +kernel
theorem test_colorword_red :
    ends (exec (.colorword true 0#5 0#5 1#5) (busyAt (.colour .src) [])) (fun t => t.pal.lookup 0 == some 0x080000)
      = true := by decide +kernel
-- X4
theorem test_ntword :
    ends (exec (.ntword false false false 7#3 0#10) (busyAt (.entry .src) []))
      (fun t => t.nt.lookup 0 == some 0x1C00 && t.ntCnt == 1#32) = true := by decide +kernel
-- T60: a word that does not decode
theorem test_rejected :
    ends (step (commanded 0x12000020#32 State.reset)) (fun t => t.err == 0x00201105#32 && t.status == 0x0000000A#32)
      = true := by decide +kernel

/-! ## The HOST's side (R36, R76) -/

/-- A HOST action next. -/
def acting (op : HostOp) (s : State) : State := { s with hostq := [op] }

-- reserved offsets read 0 and ignore writes, inside a word too; a write to CMD's neighbour STATUS is ignored
theorem test_read_reserved :
    ends (step (acting (.read 0x00000045#32) { State.reset with rdata := 1#32 })) (fun t => t.rdata == 0#32) = true := by
  decide +kernel
theorem test_write_reserved :
    ends (step (acting (.write 0x00000045#32 7#32) State.reset)) (fun t => t == State.reset) = true := by decide +kernel
-- inside an element of a read-only window, and in no window
theorem test_write_inside_element :
    ends (step (acting (.write 0x00800001#32 7#32) State.reset)) (fun t => t == State.reset) = true := by decide +kernel
theorem test_write_nowhere :
    ends (step (acting (.write 0x000FFFFF#32 7#32) State.reset)) (fun t => t == State.reset) = true := by decide +kernel
-- PAL entry 1 at PAL_BASE + 4, and SRC's last byte
theorem test_read_pal :
    ends (step (acting (.read 0x00800004#32) (composing []))) (fun t => t.rdata == 0x00FF0000#32) = true := by
  decide +kernel
theorem test_write_src :
    ends (step (acting (.write 0x0013FFFF#32 0x123#32) State.reset)) (fun t => t.src.lookup 262143 == some 0x23#8) = true := by
  decide +kernel
-- R270: reset while BUSY
theorem test_reset_busy :
    ends (step (acting .reset (busyAt .lit [1]))) (fun t => t.status == 0x00000008#32 && t.srcLen == 0#32) = true := by
  decide +kernel
-- R141: two bytes hold no header
theorem test_decomp_short :
    ends (step (commanded 0x00000010#32 (loaded [0x00, 0x01]))) (fun t => t.err == 0x00100102#32) = true := by
  decide +kernel

/-! ## Witnesses: concrete states and operands that meet the hypotheses of each statement, clause by clause -/

/-- The standard configuration is sound. -/
theorem standard_sound : Config.standard.Sound := by unfold Config.Sound; decide

theorem witness_ResetAndSresetState :
    State.reset.st ≠ .busy ∧ faulted.st ≠ .busy ∧ (acting .reset (busyAt .lit [1])).hostq = [.reset] := by decide

theorem witness_IdleEngineStartsNothing : faulted.hostq = [] ∧ faulted.st ≠ .busy := by decide

theorem witness_StepRunsCommand :
    (commanded 0x00000B01#32 State.reset).hostq = [.write 0#32 0x00000B01#32]
      ∧ resolve State.reset.cfg 0#32 = some (.reg 0) ∧ decodeCommand 0x00000B01#32 = .ok (.rdbits 11#24) := by decide

theorem witness_StepRunsToken_token :
    (busyAt .header [0x00, 0x14, 0x00, 0x13]).hostq = [] ∧ (busyAt .header []).st = .busy
      ∧ decodeToken .header 0 (busyAt .header [0x00, 0x14, 0x00, 0x13]).streamBit 0 32 = .ok (.blockhdr 20#16 19#16, 32)
      ∧ decodeToken .lit 0 (busyAt .lit [0x20]).streamBit 0 8 = .ok (.lit 2, 3)
      ∧ decodeToken .ref 2 (busyAt .ref [0x08]).streamBit 0 8 = .ok (.ref 0 2, 5)
      ∧ decodeToken .cmdbit 2 (busyAt .cmdbit [0x80]).streamBit 0 8 = .ok (.cmdbit true, 1)
      ∧ decodeToken .varint 0 (busyAt (.varint 0#32) []).streamBit 0 0 = .ok (.varint 1, 0) := by decide +kernel

theorem witness_StepRunsToken_data :
    (busyAt (.colour .src) [0, 0]).phase = .colour .src
      ∧ (busyAt (.colour .src) [0, 0]).palCnt.toNat < (busyAt (.colour .src) [0, 0]).inputLen .src / 2
      ∧ (busyAt (.entry .src) [0, 0, 0]).phase = .entry .src
      ∧ (busyAt (.entry .src) [0, 0, 0]).ntCnt.toNat < (busyAt (.entry .src) [0, 0, 0]).inputLen .src / 2 := by
  decide +kernel

theorem witness_RejectedWordFaults :
    (0xFFFFFF04#32).extractLsb' 0 8 ∉ [0x00#8, 0x01#8, 0x02#8, 0x03#8, 0x10#8, 0x20#8, 0x30#8, 0x31#8, 0x32#8, 0x40#8,
        0x50#8, 0xF0#8, 0xF1#8]
      ∧ decodeCommand 0x000001F0#32 = .error .reservedBits
      -- both a reserved bit and a bad depth; a bad depth alone; a bad count; a bad width
      ∧ (0x93000220#32).extractLsb' 0 8 = 0x20#8 ∧ 0x93000220#32 &&& 0xF0FFFE00#32 ≠ 0#32
      ∧ 0x03000120#32 &&& 0xF0FFFE00#32 = 0#32 ∧ (0x03000120#32).extractLsb' 24 4 ∉ [2#4, 4#4, 8#4]
      ∧ 32 < ((0x00002101#32).extractLsb' 8 24).toNat ∧ (0x02000050#32).extractLsb' 8 16 = 0#16
      ∧ (DecodeError.reservedBits, 0x11#8) ∈ [(.badOpcode, 0x10#8), (.reservedBits, 0x11#8), (.badParam, 0x12#8)]
      ∧ (commanded 0x000001F0#32 State.reset).st = .idle ∧ (commanded 0x000001F0#32 faulted).st = .fault
      ∧ resolve State.reset.cfg 0#32 = some (.reg 0) ∧ resolve faulted.cfg 0#32 = some (.reg 0) := by decide

theorem witness_CommandDecodeOfEncode :
    (Instr.rdbits 32#24).wellFormed = true ∧ encode 0 (.rdbits 32#24) = .word 0x00002001#32
      ∧ (Instr.compose 1#16 8#4).wellFormed = true ∧ encode 0 (.compose 1#16 8#4) = .word 0x08000150#32 := by decide

theorem witness_CommandEncodeOfDecode : decodeCommand 0x08FFFF31#32 = .ok (.getcolor 255#8 255#8 8#4) := by decide

theorem witness_StreamTokenDecodeOfEncode :
    (Instr.ref 5 1).wellFormed = true ∧ dueOf (.ref 5 1) = some .ref ∧ fieldFits 17 (.ref 5 1)
      ∧ encode 17 (.ref 5 1) = .bits [false, false, true, false, true, true]
      ∧ StandsAt (bitOf [true, false, false, true, false, true, true]) 1 [false, false, true, false, true, true]
      ∧ [false, false, true, false, true, true].length ≤ 6 := by unfold fieldFits StandsAt; decide +kernel

theorem witness_VarintCodeIsUnique :
    varintFrom (bitOf [false, true, false, false, true]) 5 0 1 = (6, 5) ∧ 5 % 2 = 1
      ∧ bitOf [false, true, false, false, true] (0 + 5 - 1) = true := by decide

theorem witness_GateIgnoresCommands :
    isCommand .decomp = true ∧ faulted.st = .fault ∧ Instr.decomp ≠ .clrerr ∧ Instr.decomp ≠ .sreset
      ∧ isCommand .sreset = true ∧ (busyAt .lit []).st = .busy := by decide

theorem witness_NopAndClrerrResult : State.reset.st = .idle ∧ faulted.st ≠ .busy := by decide

theorem witness_ChecksBeforeStart :
    State.reset.st = .idle ∧ 32 < (33#24).toNat ∧ bppLegal 3#4 = false ∧ bppLegal 2#4 = true ∧ State.reset.outV = false
      ∧ State.reset.palV = false ∧ State.reset.ntV = false ∧ State.reset.tileV = false ∧ (1#16 : BitVec 16) ≠ 0#16
      ∧ { State.reset with srcLen := 262145#32 }.cfg.srcCap < { State.reset with srcLen := 262145#32 }.srcLen.toNat
      ∧ (32#24).toNat ≤ 32 := by decide

theorem witness_ResultCapacities :
    State.reset.st = .idle ∧ 65533 < (65534#24).toNat
      ∧ { loaded tileA with cfg := { Config.standard with tileCap := 0, palCap := 7, ntCap := 7 } }.cfg.tileCap
          < (loaded tileA).inputLen .src / (8 * (2#4).toNat)
      ∧ 7 < (loaded tileA).inputLen .src / 2
      ∧ (composing [0x0000]).ntV = true ∧ (composing [0x0000]).tileV = true ∧ (composing [0x0000]).palV = true
      ∧ (composing [0x0000]).cfg.fbCap
          < 256 * (65535#16).toNat * (((composing [0x0000]).ntCnt.toNat + (65535#16).toNat - 1) / (65535#16).toNat + 1) := by
  decide +kernel

theorem witness_RdbitsResult :
    (loaded [1, 2, 3, 4]).st = .idle ∧ (32#24).toNat ≤ 32 ∧ (loaded [1, 2, 3, 4]).srcLen.toNat ≤ Config.standard.srcCap
      ∧ (32#24).toNat ≤ 8 * (loaded [1, 2, 3, 4]).srcLen.toNat - (loaded [1, 2, 3, 4]).bitPos.toNat := by decide

theorem witness_RdbitsUnderrun :
    (loaded []).st = .idle ∧ (1#24).toNat ≤ 32 ∧ (loaded []).srcLen.toNat ≤ Config.standard.srcCap
      ∧ 8 * (loaded []).srcLen.toNat - (loaded []).bitPos.toNat < (1#24).toNat := by decide

theorem witness_ReadBitsSplit :
    (loaded [0xA5, 0x3C]).cfg.Sound ∧ (loaded [0xA5, 0x3C]).st = .idle ∧ (4#24).toNat + (12#24).toNat ≤ 32
      ∧ ∃ t u, exec (.rdbits 4#24) (loaded [0xA5, 0x3C]) = .next t ∧ t.st = .idle
          ∧ exec (.rdbits 12#24) t = .next u ∧ u.st = .idle :=
  ⟨standard_sound, rfl, by decide, _, _, rfl, by decide +kernel, rfl, by decide +kernel⟩

theorem witness_RdbytesResult :
    (loaded [1, 2]).st = .idle ∧ (2#24).toNat ≤ 65533 ∧ (loaded [1, 2]).srcLen.toNat ≤ Config.standard.srcCap
      ∧ (loaded [1, 2]).bitPos.toNat % 8 = 0
      ∧ 8 * (2#24).toNat ≤ 8 * (loaded [1, 2]).srcLen.toNat - (loaded [1, 2]).bitPos.toNat := by decide

theorem witness_RdbytesFaults :
    { loaded [1] with bitPos := 7#32 }.st = .idle ∧ { loaded [1] with bitPos := 7#32 }.bitPos.toNat % 8 ≠ 0
      ∧ (loaded [1]).bitPos.toNat % 8 = 0
      ∧ 8 * (loaded [1]).srcLen.toNat - (loaded [1]).bitPos.toNat < 8 * (2#24).toNat ∧ (2#24).toNat ≤ 65533
      ∧ (loaded [1]).srcLen.toNat ≤ Config.standard.srcCap := by decide

theorem witness_RdvarintResult :
    (loaded [0x2B]).st = .idle ∧ (loaded [0x20]).srcLen.toNat ≤ Config.standard.srcCap ∧ 1 ≤ 2 ∧ 2 < 2 ^ 32
      ∧ (∀ w, (loaded [0x20]).cfg.varintW = some w → 2 < 2 ^ w)
      ∧ StandsAt (loaded [0x20]).streamBit 0 (encodeVarint 2)
      ∧ 2 * bitlen 2 - 1 ≤ 8 * (loaded [0x20]).srcLen.toNat - (loaded [0x20]).bitPos.toNat :=
  ⟨rfl, by decide, by decide, by decide, fun _ h => (by cases h), by unfold StandsAt; decide +kernel, by decide +kernel⟩

theorem witness_RdvarintTruncated :
    8 * (loaded [0x55]).srcLen.toNat - (loaded [0x55]).bitPos.toNat = 2 * [true, true, true, true].length + false.toNat
      ∧ StandsAt (loaded [0x55]).streamBit 0
          ([true, true, true, true].flatMap (fun d => [false, d]) ++ (if false then [false] else []))
      ∧ 8 * { loaded [0x00] with bitPos := 7#32 }.srcLen.toNat - { loaded [0x00] with bitPos := 7#32 }.bitPos.toNat
          = 2 * ([] : List Bool).length + true.toNat
      ∧ StandsAt { loaded [0x00] with bitPos := 7#32 }.streamBit 7
          (([] : List Bool).flatMap (fun d => [false, d]) ++ (if true then [false] else []))
      ∧ [true, true, true, true].foldl (fun a d => 2 * a + d.toNat) 1 < 2 ^ 32
      ∧ (loaded [0x55]).srcLen.toNat ≤ Config.standard.srcCap ∧ (loaded [0x55]).st = .idle := by
  unfold StandsAt; decide +kernel

/-- The last stream of T5. -/
theorem witness_RdvarintResultRange :
    (loaded [0x55, 0x55, 0x55, 0x55, 0x55, 0x55, 0x55, 0x55]).cfg.Sound
      ∧ (loaded [0x55, 0x55, 0x55, 0x55, 0x55, 0x55, 0x55, 0x55]).st = .idle
      ∧ (loaded [0x55, 0x55, 0x55, 0x55, 0x55, 0x55, 0x55, 0x55]).srcLen.toNat ≤ Config.standard.srcCap
      ∧ 2 ^ 32 ≤ (varintFrom (loaded [0x55, 0x55, 0x55, 0x55, 0x55, 0x55, 0x55, 0x55]).streamBit (8 * 8 - 0) 0 1).1 :=
  ⟨standard_sound, rfl, by decide, by decide +kernel⟩

/-- Sixteen data bits, all 1, in an instance of 16 bits. -/
theorem witness_RdvarintResultRange_narrow :
    { Config.standard with varintW := some 16 }.Sound ∧ { Config.standard with varintW := some 16 }.varintW = some 16
      ∧ 2 ^ 16 ≤ (varintFrom (loaded [0x55, 0x55, 0x55, 0x55]).streamBit (8 * 4 - 0) 0 1).1
      ∧ (varintFrom (loaded [0x55, 0x55, 0x55, 0x55]).streamBit (8 * 4 - 0) 0 1).1 < 2 ^ 32 :=
  ⟨standard_sound, rfl, by decide +kernel, by decide +kernel⟩

theorem witness_VarintTokenResult : 2 ^ 32 - 1 < 2 ^ 32 ∧ ∀ w, State.reset.cfg.varintW = some w → 2 ^ 32 - 1 < 2 ^ w :=
  ⟨by decide, fun _ h => by cases h⟩

theorem witness_ReaderCursorBounds :
    (loaded [0x2B]).cfg.Sound ∧ (loaded [0x2B]).st = .idle
      ∧ (∃ t, exec (.rdbits 33#24) (loaded [0x2B]) = .next t) ∧ (∃ t, exec (.rdbytes 1#24) (loaded [0x2B]) = .next t)
      ∧ ∃ t, exec .rdvarint (loaded [0x2B]) = .next t :=
  ⟨standard_sound, rfl, ⟨_, rfl⟩, ⟨_, rfl⟩, ⟨_, rfl⟩⟩

theorem witness_BlockHeaderFrames :
    2 ≤ (2#16).toNat ∧ 2 ≤ (3#16).toNat ∧ { loaded [0, 1, 0, 3, 0x41] with bitPos := 32#32 }.bitPos.toNat % 8 = 0
      ∧ 8 * ((3#16).toNat - 2) ≤ 8 * (loaded [0, 1, 0, 3, 0x41]).srcLen.toNat - 32 := by decide

/-- The payload's last byte, with the output complete (T12) and not (T15). -/
theorem witness_LitStepCopies :
    1 = min (State.reset.cfg.saturated 1) ({ State.reset with outLen := 1#32 }.outLen.toNat - State.reset.decompPos.toNat)
      ∧ 1 = min (State.reset.cfg.saturated 1) ({ State.reset with outLen := 3#32 }.outLen.toNat - State.reset.decompPos.toNat)
      ∧ State.reset.dataPos.toNat + 1 ≤ { State.reset with litLen := 1#32 }.litLen.toNat := by decide

theorem witness_RefStepRepeats :
    0 < { State.reset with decompPos := 1#32, outLen := 3#32 }.decompPos.toNat
      ∧ 2 = min (State.reset.cfg.saturated 1 + 2) ({ State.reset with outLen := 3#32 }.outLen.toNat
          - { State.reset with decompPos := 1#32 }.decompPos.toNat)
      ∧ 3 = min (State.reset.cfg.saturated 1 + 2) ({ State.reset with outLen := 16#32 }.outLen.toNat
          - { State.reset with decompPos := 1#32 }.decompPos.toNat) := by decide

/-- T19, T17, and T19a's two headers. -/
theorem witness_DecompTokenFaults :
    { State.reset with litLen := 2#32 }.litLen.toNat
        < { State.reset with dataPos := 2#32 }.dataPos.toNat
          + min (State.reset.cfg.saturated 1) ({ State.reset with outLen := 16#32 }.outLen.toNat - { State.reset with decompPos := 5#32 }.decompPos.toNat)
      ∧ { State.reset with decompPos := 1#32 }.decompPos.toNat ≤ 1 ∧ (1#16).toNat < 2
      ∧ (busyAt .header [0, 1, 0]).hostq = [] ∧ (busyAt .header [0, 1, 0]).st = .busy
      ∧ 8 * (busyAt .header [0, 1, 0]).srcLen.toNat - (busyAt .header [0, 1, 0]).bitPos.toNat < 32
      ∧ 8 * (busyAt .ref [0]).srcLen.toNat - { busyAt .ref [0] with bitPos := 6#32 }.bitPos.toNat
          < bitlen { busyAt .ref [0] with decompPos := 4#32 }.decompPos.toNat
      ∧ 8 * (busyAt .cmdbit []).srcLen.toNat - (busyAt .cmdbit []).bitPos.toNat < 1
      ∧ 2 ≤ (10#16).toNat
      ∧ 8 * (loaded [0, 4, 0, 10, 1, 2, 3]).srcLen.toNat - { loaded [] with bitPos := 32#32 }.bitPos.toNat
          < 8 * ((10#16).toNat - 2) := by decide

theorem witness_CmdbitSelectsStep : false = State.reset.cfg.litBit ∧ true ≠ State.reset.cfg.litBit := by decide

theorem witness_DecompExactOutput : (loaded blockS1).st = .idle := rfl

/-- S1: `.block U=8`, literals 41 42, `LIT 2`, `REF 0, 6`. -/
theorem witness_AssembledBlockDecompresses :
    (loaded blockS1).cfg.Sound ∧ (loaded blockS1).st = .idle ∧ 8 ≤ 65535 ∧ [0x41#8, 0x42#8].length ≤ 65533
      ∧ stepsValid 8 [0x41#8, 0x42#8].length .first 0 0 [.lit 2, .ref 0 6] = true
      ∧ (loaded blockS1).src.Holds (assembleBlock (loaded blockS1).cfg.litBit 8 [0x41#8, 0x42#8] [.lit 2, .ref 0 6])
      ∧ (assembleBlock (loaded blockS1).cfg.litBit 8 [0x41#8, 0x42#8] [.lit 2, .ref 0 6]).length
          ≤ (loaded blockS1).srcLen.toNat
      ∧ (loaded blockS1).srcLen.toNat ≤ (loaded blockS1).cfg.srcCap :=
  ⟨standard_sound, rfl, by decide, by decide, by decide, by unfold Memory.Holds; decide +kernel, by decide +kernel,
    by decide⟩

theorem witness_DecompDependsOnlyOnBlock :
    (loaded blockS1).st = .idle ∧ { loaded blockS1 with result := 5#32, bitPos := 9#32 }.st = .idle
      ∧ (loaded blockS1).cfg.litBit = { loaded blockS1 with result := 5#32, bitPos := 9#32 }.cfg.litBit
      ∧ (loaded blockS1).srcLen.toNat ≤ (loaded blockS1).cfg.srcCap
      ∧ (∀ i, i < (loaded blockS1).srcLen.toNat →
          (loaded blockS1).src.read i = { loaded blockS1 with result := 5#32, bitPos := 9#32 }.src.read i)
      ∧ (∃ t, exec .decomp (loaded blockS1) = .next t)
      ∧ ∃ t, exec .decomp { loaded blockS1 with result := 5#32, bitPos := 9#32 } = .next t :=
  ⟨rfl, rfl, rfl, by decide, fun _ _ => rfl, exec_next rfl _, exec_next rfl _⟩

/-- T10, and a payload of one byte that nothing uses. -/
theorem witness_DecompEmptyOutput :
    (loaded [0, 0, 0, 2]).cfg.Sound ∧ (loaded [0, 0, 0, 2]).st = .idle ∧ 4 + 0 ≤ (loaded [0, 0, 0, 2]).srcLen.toNat
      ∧ 256 * ((loaded [0, 0, 0, 2]).src.read 2).toNat + ((loaded [0, 0, 0, 2]).src.read 3).toNat = 0 + 2
      ∧ (loaded [0, 0, 0, 2]).src.read 0 = 0#8 ∧ (loaded [0, 0, 0, 2]).src.read 1 = 0#8
      ∧ 4 + 1 ≤ (loaded [0, 0, 0, 3, 0x41]).srcLen.toNat
      ∧ 256 * ((loaded [0, 0, 0, 3, 0x41]).src.read 2).toNat + ((loaded [0, 0, 0, 3, 0x41]).src.read 3).toNat = 1 + 2 :=
  ⟨standard_sound, by decide⟩

theorem witness_EveryCommandEnds :
    (commanded 0x00000010#32 (loaded blockS1)).st ≠ .busy
      ∧ ∃ t, step (commanded 0x00000010#32 (loaded blockS1)) = .next t :=
  ⟨by decide, ⟨_, rfl⟩⟩

theorem witness_TiledecResult :
    (loaded tileA).st = .idle ∧ bppLegal 2#4 = true ∧ (loaded tileA).srcLen.toNat ≤ Config.standard.srcCap
      ∧ (loaded tileA).inputLen .src % (8 * (2#4).toNat) = 0
      ∧ (loaded tileA).inputLen .src / (8 * (2#4).toNat) ≤ Config.standard.tileCap := by decide

theorem witness_TiledecPartialTile :
    (loaded (0#8 :: tileA)).st = .idle ∧ bppLegal 2#4 = true
      ∧ (loaded (0#8 :: tileA)).srcLen.toNat ≤ Config.standard.srcCap
      ∧ (loaded (0#8 :: tileA)).inputLen .src % (8 * (2#4).toNat) ≠ 0
      ∧ (loaded (0#8 :: tileA)).inputLen .src / (8 * (2#4).toNat) ≤ Config.standard.tileCap := by decide

/-- The third clause at plane 3, row 7, column 7 of a 4bpp block. -/
theorem witness_SpecialTiles :
    (∀ j, j < 8 * Bpp.four.bits → (fun _ => 0x00#8) j = 0x00#8)
      ∧ (∀ j, j < 8 * Bpp.four.bits → (fun _ => 0xFF#8) j = 0xFF#8) ∧ 3 < Bpp.four.bits
      ∧ ∀ j, j < 8 * Bpp.four.bits → (fun j => if j = 31 then 1#8 else 0#8) j
          = if j = 16 * (3 / 2) + 2 * 7 + 3 % 2 then 0x80#8 >>> 7 else 0#8 := by decide

theorem witness_PalloadResult :
    (loaded paletteBytes).st = .idle ∧ (loaded paletteBytes).srcLen.toNat ≤ Config.standard.srcCap
      ∧ (loaded paletteBytes).inputLen .src / 2 ≤ Config.standard.palCap
      ∧ { loaded [] with outV := true }.outV = true := by decide

theorem witness_GetcolorResult :
    (composing []).st = .idle ∧ bppLegal 2#4 = true ∧ (composing []).palV = true
      ∧ (1#8).toNat * 2 ^ (2#4).toNat + (3#8).toNat < (composing []).palCnt.toNat
      ∧ (composing []).palCnt.toNat ≤ (2#8).toNat * 2 ^ (2#4).toNat + (0#8).toNat := by decide +kernel

theorem witness_SubpalcntResult :
    (composing []).st = .idle ∧ bppLegal 8#4 = true ∧ (composing []).palV = true := by decide

theorem witness_NtparseResult :
    (loaded [1, 2, 3]).st = .idle ∧ (loaded [1, 2, 3]).srcLen.toNat ≤ Config.standard.srcCap
      ∧ (loaded [1, 2, 3]).inputLen .src / 2 ≤ Config.standard.ntCap := by decide

/-- Every lookup of T50's entries is in range; cell (1, 1) of the grid has no entry. -/
theorem witness_ComposeResult :
    (composing [0x0000, 0x4401, 0x8400]).st = .idle ∧ (2#16 : BitVec 16) ≠ 0#16 ∧ bppLegal 2#4 = true
      ∧ (composing [0x0000, 0x4401, 0x8400]).ntV = true ∧ (composing [0x0000, 0x4401, 0x8400]).tileV = true
      ∧ (composing [0x0000, 0x4401, 0x8400]).palV = true
      ∧ 16 = 8 * (2#16).toNat ∧ 24 = 8 * ((3 + (2#16).toNat - 1) / (2#16).toNat) + 8
      ∧ 4 * 16 * 24 ≤ (composing [0x0000, 0x4401, 0x8400]).cfg.fbCap
      ∧ (∀ k, k < (composing [0x0000, 0x4401, 0x8400]).ntCnt.toNat →
          (parseEntry ((composing [0x0000, 0x4401, 0x8400]).nt.read k)).tileIndex.toNat
              < (composing [0x0000, 0x4401, 0x8400]).tileCnt.toNat
            ∧ ∀ j, j < 64 →
              (parseEntry ((composing [0x0000, 0x4401, 0x8400]).nt.read k)).subPaletteIndex.toNat * 2 ^ (2#4).toNat
                + ((composing [0x0000, 0x4401, 0x8400]).tile.read
                    (64 * (parseEntry ((composing [0x0000, 0x4401, 0x8400]).nt.read k)).tileIndex.toNat + j)).toNat
              < (composing [0x0000, 0x4401, 0x8400]).palCnt.toNat)
      ∧ 15 / 8 * (2#16).toNat + 7 / 8 = 2 ∧ 3 ≤ 15 / 8 * (2#16).toNat + 15 / 8 := by decide +kernel

/-- A tile at `TILE_CNT`; and a sub-palette beyond the table with the tile present. -/
theorem witness_ComposeFirstFault :
    0 < (composing [0x0002]).ntCnt.toNat
      ∧ (composing [0x0002]).tileCnt.toNat ≤ (parseEntry ((composing [0x0002]).nt.read 0)).tileIndex.toNat
      ∧ (parseEntry ((composing [0x0800]).nt.read 0)).tileIndex.toNat < (composing [0x0800]).tileCnt.toNat
      ∧ (composing [0x0800]).palCnt.toNat
          ≤ (parseEntry ((composing [0x0800]).nt.read 0)).subPaletteIndex.toNat * 2 ^ (2#4).toNat
            + ((composing [0x0800]).tile.read
                (64 * (parseEntry ((composing [0x0800]).nt.read 0)).tileIndex.toNat + 0)).toNat
      ∧ 4 * (8 * (1#16).toNat * (8 * ((1 + (1#16).toNat - 1) / (1#16).toNat) + 8)) ≤ (composing [0x0800]).cfg.fbCap := by
  decide +kernel

/-- T54: the words 0x0000 and 0x2000. -/
theorem witness_PriorityHasNoEffect :
    (∀ k, k < (composing [0x0000]).ntCnt.toNat →
        (Memory.ofList 5 [0x2000#16]).read k &&& 0xDFFF#16 = (composing [0x0000]).nt.read k &&& 0xDFFF#16)
      ∧ (∃ t, exec (.compose 1#16 2#4) (composing [0x0000]) = .next t)
      ∧ ∃ t, exec (.ntword false false true 0#3 0#10) (busyAt (.entry .src) [0x00, 0x20]) = .next t :=
  ⟨by decide +kernel, exec_next rfl _, exec_next rfl _⟩

theorem witness_StepKeepsMemoriesCanonical :
    (commanded 0x02000150#32 (composing [0x0000])).MemoriesWf
      ∧ ∃ t, step (commanded 0x02000150#32 (composing [0x0000])) = .next t :=
  ⟨by unfold State.MemoriesWf; decide +kernel, ⟨_, rfl⟩⟩

theorem witness_StepKeepsControlConsistent :
    faulted.Consistent ∧ (∃ t, step faulted = .next t) ∧ (busyAt .lit blockS1).Consistent
      ∧ ∃ t, step (busyAt .lit blockS1) = .next t :=
  ⟨⟨by decide, by decide, by decide, by decide, by decide, by decide, by decide⟩, ⟨_, rfl⟩,
    ⟨by decide, by decide, by decide, by decide, by decide, by decide, by decide⟩, ⟨_, step_engine_next (s := busyAt .lit blockS1) rfl rfl (fun _ h => by cases h)⟩⟩

/-- A `DECOMP` at its second step: one byte of three written. -/
def midBlock : State :=
  { busyAt .ref [0x00] with
    lit := Memory.ofList 1 [0x51], litLen := 1#32, out := Memory.ofList 2 [0x51], decompPos := 1#32, outLen := 3#32 }

theorem witness_StepKeepsExtentsWritten : midBlock.ExtentsWritten ∧ ∃ t, step midBlock = .next t :=
  ⟨{ lit := fun h => by cases h
     out := fun h => by cases h
     tile := fun h => by cases h
     pal := fun h => by cases h
     nt := fun h => by cases h
     fb := fun h => by cases h
     decompInvalid := fun _ => ⟨rfl, rfl⟩
     inBlock := fun _ =>
       ⟨by unfold Memory.Covers; decide, by decide, by decide, by unfold Memory.Covers; decide, by decide⟩
     inPalette := fun _ h => by cases h
     inNametable := fun _ h => by cases h },
    ⟨_, step_engine_next (s := midBlock) rfl rfl (fun _ h => by cases h)⟩⟩

theorem witness_MemoriesHaveOneProducer :
    (∃ t, exec .decomp (loaded blockS1) = .next t) ∧ mayWrite .src .decomp = false ∧ mayWrite .tile .decomp = false
      ∧ mayWrite .pal .decomp = false ∧ mayWrite .nt .decomp = false ∧ mayWrite .fb .decomp = false
      ∧ (∃ t, exec .nop (loaded blockS1) = .next t) ∧ mayWrite .lit .nop = false ∧ mayWrite .out .nop = false :=
  ⟨exec_next rfl _, rfl, rfl, rfl, rfl, rfl, exec_next rfl _, rfl, rfl⟩

theorem witness_ResultHasFourWriters :
    (∃ t, exec .decomp (loaded blockS1) = .next t) ∧ mayWriteResult .decomp = false
      ∧ ∃ t, exec (.rdbits 33#24) State.reset = .next t ∧ t.st = .fault :=
  ⟨exec_next rfl _, rfl, _, rfl, by decide +kernel⟩

theorem witness_LatchedFaultStays :
    (commanded 0x000001F0#32 faulted).st = .fault
      ∧ (commanded 0x000001F0#32 faulted).hostq = [.write 0#32 0x000001F0#32]
      ∧ HostOp.write 0#32 0x000001F0#32 ≠ .reset
      ∧ 0x000001F0#32 ≠ 0x000000F0#32 ∧ 0x000001F0#32 ≠ 0x000000F1#32
      ∧ ∃ t, step (commanded 0x000001F0#32 faulted) = .next t :=
  ⟨rfl, rfl, by decide, by decide, by decide, ⟨_, rfl⟩⟩

/-- The windows' first and last addresses, and those beside them. -/
theorem witness_AddressMap :
    WindowsApart Config.standard
      ∧ (0x000000FF#32).toNat = Config.standard.regBase.toNat + 0xFF
      ∧ (0x0013FFFF#32).toNat = Config.standard.srcBase.toNat + 262143 ∧ 262143 < Config.standard.srcCap
      ∧ (0x0020FFFC#32).toNat = Config.standard.litBase.toNat + 65532
      ∧ (0x0030FFFE#32).toNat = Config.standard.outBase.toNat + 65534
      ∧ (0x004FFFFF#32).toNat = Config.standard.tileBase.toNat + 1048575 ∧ 1048575 < 64 * Config.standard.tileCap
      ∧ (0x0087FFFF#32).toNat = Config.standard.palBase.toNat + 4 * 131071 + 3 ∧ 131071 < Config.standard.palCap
      ∧ (0x00C3FFFF#32).toNat = Config.standard.ntBase.toNat + 2 * 131071 + 1 ∧ 131071 < Config.standard.ntCap
      ∧ (0x01FFFFFF#32).toNat = Config.standard.fbBase.toNat + 16777215 ∧ 16777215 < Config.standard.fbCap
      ∧ ∀ w ∈ hostWindows Config.standard, (0x0020FFFD#32).toNat < w.1 ∨ w.1 + w.2 ≤ (0x0020FFFD#32).toNat := by
  unfold WindowsApart; decide +kernel

/-- A register, and for each memory an element in its valid extent. -/
theorem witness_HostReads :
    { faulted with hostq := [.read 0x40#32] }.st ≠ .busy ∧ resolve faulted.cfg 0x00#32 = some (.reg 0x00)
      ∧ resolve faulted.cfg 0x40#32 = some (.reg 0x40) ∧ resolve faulted.cfg 0xFF#32 = some (.reg 0xFF)
      ∧ resolve faulted.cfg 0x00100000#32 = some (.elem .src 0) ∧ 0 < (loaded [1]).srcLen.toNat
      ∧ resolve faulted.cfg 0x00200000#32 = some (.elem .lit 0)
      ∧ { faulted with litV := true, litLen := 1#32 }.litV = true ∧ 0 < { faulted with litLen := 1#32 }.litLen.toNat
      ∧ resolve faulted.cfg 0x00300000#32 = some (.elem .out 0)
      ∧ { faulted with outV := true }.outV = true ∧ 0 < { faulted with outLen := 1#32 }.outLen.toNat
      ∧ resolve faulted.cfg 0x0040007F#32 = some (.elem .tile 127) ∧ (composing [0]).tileV = true
      ∧ 127 < 64 * (composing [0]).tileCnt.toNat
      ∧ resolve faulted.cfg 0x0080001C#32 = some (.elem .pal 7) ∧ (composing [0]).palV = true
      ∧ 7 < (composing [0]).palCnt.toNat
      ∧ resolve faulted.cfg 0x00C00000#32 = some (.elem .nt 0) ∧ (composing [0]).ntV = true
      ∧ 0 < (composing [0]).ntCnt.toNat
      ∧ resolve faulted.cfg 0x01000003#32 = some (.elem .fb 3) ∧ { faulted with fbV := true }.fbV = true
      ∧ 3 < 4 * ({ faulted with imgW := 1#32 }.imgW.toNat * { faulted with imgH := 1#32 }.imgH.toNat) := by
  decide +kernel

/-- `SRC_LEN`, `BITPOS`, the last byte of SRC, `ERR`, a byte of FB. -/
theorem witness_HostWritesOnlyItsTarget :
    State.reset.st ≠ .busy ∧ resolve State.reset.cfg 0x10#32 = some (.reg 0x10)
      ∧ resolve State.reset.cfg 0x14#32 = some (.reg 0x14)
      ∧ resolve State.reset.cfg 0x0013FFFF#32 = some (.elem .src 262143)
      ∧ resolve State.reset.cfg 0x08#32 = some (.reg 0x08) ∧ resolve State.reset.cfg 0x01000000#32 = some (.elem .fb 0)
      ∧ resolve State.reset.cfg 0x00800001#32 = none := by
  decide +kernel

theorem witness_HostAccessWhileBusy :
    (busyAt .lit []).st = .busy ∧ resolve (busyAt .lit []).cfg 0#32 = some (.reg 0)
      ∧ resolve (busyAt .lit []).cfg 4#32 = some (.reg 4) ∧ resolve (busyAt .lit []).cfg 0x14#32 ≠ some (.reg 0) := by
  decide

end Sys2Proof.Tests
end

/-! PROOFS, the state family, part 1: what a command can end as, said once for all thirteen commands. Every statement
about `exec` of a command or about `step` is then a case split over `CommandEnds`. -/

namespace Sys2Proof.Machine

open Sys2Proof

/-! ## How a command's work ends -/

/-- What the command `i`, let through by the gate in the state `a`, can end as: one constructor per way to end, the
values that no statement here asks about left open. The commands that run tokens are left as their run. -/
inductive CommandEnds (a : State) : Instr → State → Prop
  | raised (i : Instr) (k : FaultKind) (info : Info) (op : BitVec 8) (hk : k ≠ .lengthMismatch) :
      CommandEnds a i (raise k info op a)
  | nop : CommandEnds a .nop a.endOk
  | rdbits (n : BitVec 24) (v : Word) : CommandEnds a (.rdbits n) { (a.advance n.toNat).endOk with result := v }
  | rdbytes (n : BitVec 24) (bytes : List Byte) (hlen : bytes.length = n.toNat) (hcap : n.toNat ≤ litCap) :
      CommandEnds a (.rdbytes n)
        { (a.advance (8 * n.toNat)).endOk with
          lit := Memory.ofList a.freeCtr bytes, litLen := BitVec.ofNat 32 n.toNat, litV := true
          freeCtr := a.freeCtr + 1 }
  | rdbytesFaulted (n : BitVec 24) (k : FaultKind) (info : Info) (hk : k ≠ .lengthMismatch) :
      CommandEnds a (.rdbytes n) (rdbytesFault k info a)
  | rdvarint (v n : Nat) : CommandEnds a .rdvarint (varintStep v { a.advance n with phase := .varint a.bitPos })
  | decomp : CommandEnds a .decomp (engineRun decompFuel (decompStart a))
  | tiledec (sel : Sel) (bpp : BitVec 4) (tiles : List Byte) (count : Nat) (depth : Word)
      (hlen : tiles.length = 64 * count) :
      CommandEnds a (.tiledec sel bpp)
        { a.endOk with
          tile := Memory.ofList a.freeCtr tiles, tileCnt := BitVec.ofNat 32 count, tileBpp := depth, tileV := true
          freeCtr := a.freeCtr + 1 }
  | tiledecFaulted (sel : Sel) (bpp : BitVec 4) (count depth : Word) :
      CommandEnds a (.tiledec sel bpp)
        { raise .streamUnderrun .partialTile 0x20#8 a with
          tileV := false, tile := Memory.unspecified a.freeCtr, tileCnt := count, tileBpp := depth
          freeCtr := a.freeCtr + 3 }
  | palload (sel : Sel) (n : Nat) : CommandEnds a (.palload sel) (engineRun n (palloadStart sel a))
  | getcolor (sp ci : BitVec 8) (bpp : BitVec 4) (v : Word) :
      CommandEnds a (.getcolor sp ci bpp) { a.endOk with result := v }
  | subpalcnt (bpp : BitVec 4) (v : Word) : CommandEnds a (.subpalcnt bpp) { a.endOk with result := v }
  | ntparse (sel : Sel) (n : Nat) : CommandEnds a (.ntparse sel) (engineRun n (ntparseStart sel a))
  | compose (tw : BitVec 16) (bpp : BitVec 4) (image : List Byte) (w h : Nat) (hlen : image.length = 4 * (w * h)) :
      CommandEnds a (.compose tw bpp)
        { a.endOk with
          fb := Memory.ofList a.freeCtr image, imgW := BitVec.ofNat 32 w, imgH := BitVec.ofNat 32 h, fbV := true
          freeCtr := a.freeCtr + 1 }
  | composeFaulted (tw : BitVec 16) (bpp : BitVec 4) (info : Info) (w h : Word) :
      CommandEnds a (.compose tw bpp)
        { raise .indexOutOfRange info 0x50#8 a with
          fbV := false, fb := Memory.unspecified a.freeCtr, imgW := w, imgH := h, freeCtr := a.freeCtr + 3 }
  | clrerr : CommandEnds a .clrerr a.clearFault
  | sreset : CommandEnds a .sreset a.resetNow

theorem illegalCommand_ends (i : Instr) (info : Info) (op : BitVec 8) (a : State) :
    CommandEnds a i (raise .illegalCommand info op a) := .raised i _ info op (by decide)

theorem withInput_ends {i : Instr} {work : State → State} {a : State} (h : CommandEnds a i (work a)) (op : BitVec 8)
    (sel : Sel) (fits : Bool) : CommandEnds a i (withInput op sel fits work a) := by
  rcases withInput_cases op sel fits work a with ⟨_, e⟩ | ⟨_, _, e⟩ | ⟨_, _, _, e⟩ <;> rw [e]
  · exact illegalCommand_ends ..
  · exact illegalCommand_ends ..
  · exact h

theorem rdbits_ends (n : BitVec 24) (a : State) : CommandEnds a (.rdbits n) (rdbits n a) := by
  unfold rdbits
  split
  · exact illegalCommand_ends ..
  · split
    · unfold rdbitsWork
      rcases a.readBits_cases n.toNat with ⟨_, e⟩ | ⟨_, e, _⟩ <;> rw [e]
      · exact .raised _ _ _ _ (by decide)
      · exact .rdbits ..
    · exact illegalCommand_ends ..

theorem rdbytesWork_ends {n : BitVec 24} (hcap : n.toNat ≤ litCap) (a : State) :
    CommandEnds a (.rdbytes n) (rdbytesWork n.toNat a) := by
  unfold rdbytesWork
  rcases a.readBytes_cases n.toNat with ⟨_, e⟩ | ⟨_, _, e⟩ | ⟨_, _, e⟩ <;> rw [e]
  · exact .rdbytesFaulted _ _ _ (by decide)
  · exact .rdbytesFaulted _ _ _ (by decide)
  · exact .rdbytes n _ (Memory.readList_length ..) hcap

theorem rdbytes_ends (n : BitVec 24) (a : State) : CommandEnds a (.rdbytes n) (rdbytes n a) := by
  unfold rdbytes
  split
  · exact illegalCommand_ends ..
  · split
    · exact rdbytesWork_ends (by omega) a
    · exact illegalCommand_ends ..

theorem rdvarint_ends {a t : State} (h : rdvarint a = .next t) : CommandEnds a .rdvarint t := by
  unfold rdvarint at h
  split at h
  · rcases varintOutcome_cases a.readVarint.1 { a.advance a.readVarint.2 with phase := .varint a.bitPos }
      with ⟨_, e⟩ | ⟨_, e⟩ <;> rw [e] at h <;> cases h
    exact .rdvarint ..
  · cases h; exact illegalCommand_ends ..

theorem decomp_ends (a : State) : CommandEnds a .decomp (decomp a) := by
  unfold decomp
  split
  · exact .decomp
  · exact illegalCommand_ends ..

theorem decodeTiles_length (b : Bpp) (buf : Nat → Byte) (count : Nat) :
    (decodeTiles b buf count).length = 64 * count := by
  simp [decodeTiles, decodeTile, tilePixels, List.length_flatMap, Nat.mul_comm]

theorem tiledecWork_ends (sel : Sel) (bpp : BitVec 4) (b : Bpp) (a : State) :
    CommandEnds a (.tiledec sel bpp) (tiledecWork b sel a) := by
  unfold tiledecWork
  split
  · exact .tiledecFaulted ..
  · exact .tiledec _ _ _ _ _ (decodeTiles_length ..)

theorem tiledec_ends (sel : Sel) (bpp : BitVec 4) (a : State) :
    CommandEnds a (.tiledec sel bpp) (tiledec sel bpp a) := by
  unfold tiledec
  split
  · exact illegalCommand_ends ..
  · exact withInput_ends (tiledecWork_ends ..) ..

theorem palload_ends (sel : Sel) (a : State) : CommandEnds a (.palload sel) (palload sel a) :=
  withInput_ends (.palload ..) ..

theorem getcolor_ends (sp ci : BitVec 8) (bpp : BitVec 4) (a : State) :
    CommandEnds a (.getcolor sp ci bpp) (getcolor sp ci bpp a) := by
  unfold getcolor
  split
  · exact illegalCommand_ends ..
  · split
    · split
      · exact .raised _ _ _ _ (by decide)
      · exact .getcolor ..
    · exact illegalCommand_ends ..

theorem subpalcnt_ends (bpp : BitVec 4) (a : State) : CommandEnds a (.subpalcnt bpp) (subpalcnt bpp a) := by
  unfold subpalcnt
  split
  · exact illegalCommand_ends ..
  · split
    · exact .subpalcnt ..
    · exact illegalCommand_ends ..

theorem ntparse_ends (sel : Sel) (a : State) : CommandEnds a (.ntparse sel) (ntparse sel a) :=
  withInput_ends (.ntparse ..) ..

theorem State.imagePixel_length (s : State) (b : Bpp) (tw x y : Nat) : (s.imagePixel b tw x y).length = 4 := by
  unfold State.imagePixel
  dsimp only
  split <;> rfl

theorem State.image_length (s : State) (b : Bpp) (tw : Nat) :
    (s.image b tw).length = 4 * (imageWidth tw * imageHeight tw s.ntCnt.toNat) := by
  simp [State.image, List.length_flatMap, State.imagePixel_length, Nat.mul_comm]

theorem composeWork_ends (tw : BitVec 16) (bpp : BitVec 4) (b : Bpp) (a : State) :
    CommandEnds a (.compose tw bpp) (composeWork tw.toNat b a) := by
  unfold composeWork
  split
  · exact .composeFaulted ..
  · exact .compose _ _ _ _ _ (State.image_length ..)

theorem compose_ends (tw : BitVec 16) (bpp : BitVec 4) (a : State) :
    CommandEnds a (.compose tw bpp) (compose tw bpp a) := by
  unfold compose
  split
  · exact illegalCommand_ends ..
  · split
    · exact illegalCommand_ends ..
    · split
      · split
        · exact composeWork_ends ..
        · exact illegalCommand_ends ..
      · exact illegalCommand_ends ..

/-! ## A command through the gate -/

/-- A command through the state gate (R249 step 1): ignored outside IDLE, accepted and run in IDLE, or one of the two
commands that FAULT lets through. -/
inductive CommandRuns (s : State) : Instr → State → Prop
  | ignored (i : Instr) (hst : s.st ≠ .idle) : CommandRuns s i s
  | accepted {i : Instr} {t : State} (hst : s.st = .idle) (h : CommandEnds s.accept i t) : CommandRuns s i t
  | clrerrInFault (hst : s.st = .fault) : CommandRuns s .clrerr s.clearFault
  | sresetInFault (hst : s.st = .fault) : CommandRuns s .sreset s.resetNow

theorem issue_runs {i : Instr} {work : State → State} (h : ∀ a, CommandEnds a i (work a)) (s : State) :
    CommandRuns s i (issue work s) := by
  rcases issue_cases work s with ⟨hst, e⟩ | ⟨hst, e⟩ <;> rw [e]
  · exact .ignored i hst
  · exact .accepted hst (h _)

theorem execRdvarint_runs {s t : State} (h : execRdvarint s = .next t) : CommandRuns s .rdvarint t := by
  unfold execRdvarint issueOutcome at h
  split at h
  · exact .accepted ‹_› (rdvarint_ends h)
  · cases h; exact .ignored _ (by simp [*])
  · cases h; exact .ignored _ (by simp [*])

theorem execClrerr_runs (s : State) : CommandRuns s .clrerr (issueAlways State.clearFault s) := by
  rcases issueAlways_cases State.clearFault s with ⟨hst, e⟩ | ⟨hst, e⟩ | ⟨hst, e⟩ <;> rw [e]
  · exact .ignored _ (by simp [hst])
  · exact .accepted hst .clrerr
  · exact .clrerrInFault hst

theorem execSreset_runs (s : State) : CommandRuns s .sreset (issueAlways State.resetNow s) := by
  rcases issueAlways_cases State.resetNow s with ⟨hst, e⟩ | ⟨hst, e⟩ | ⟨hst, e⟩ <;> rw [e]
  · exact .ignored _ (by simp [hst])
  · exact .accepted hst .sreset
  · exact .sresetInFault hst

/-- What `exec` of a command can do. -/
theorem exec_command_runs {i : Instr} {s t : State} (hc : isCommand i = true) (h : exec i s = .next t) :
    CommandRuns s i t := by
  cases i with
  | nop => cases h; exact issue_runs (fun _ => .nop) s
  | rdbits n => cases h; exact issue_runs (rdbits_ends n) s
  | rdbytes n => cases h; exact issue_runs (rdbytes_ends n) s
  | rdvarint => exact execRdvarint_runs h
  | decomp => cases h; exact issue_runs decomp_ends s
  | tiledec sel bpp => cases h; exact issue_runs (tiledec_ends sel bpp) s
  | palload sel => cases h; exact issue_runs (palload_ends sel) s
  | getcolor sp ci bpp => cases h; exact issue_runs (getcolor_ends sp ci bpp) s
  | subpalcnt bpp => cases h; exact issue_runs (subpalcnt_ends bpp) s
  | ntparse sel => cases h; exact issue_runs (ntparse_ends sel) s
  | compose tw bpp => cases h; exact issue_runs (compose_ends tw bpp) s
  | clrerr => cases h; exact execClrerr_runs s
  | sreset => cases h; exact execSreset_runs s
  | _ => cases hc

/-- A rejected word is ignored, or it is `IllegalCommand` in IDLE (R94). -/
theorem rejectCommand_cases (e : DecodeError) (c : Word) (s : State) :
    (s.st ≠ .idle ∧ rejectCommand e c s = s)
    ∨ (s.st = .idle ∧ ∃ info op, rejectCommand e c s = raise .illegalCommand info op s.accept) := by
  rcases issue_cases (raise .illegalCommand (DecodeError.info e) (c.extractLsb' 0 8)) s with ⟨hst, h⟩ | ⟨hst, h⟩
  · exact .inl ⟨hst, h⟩
  · exact .inr ⟨hst, _, _, h⟩

/-! ## An invariant of the step -/

/-- A property that every HOST action, every end of a command and every token keeps is kept by every step. -/
theorem step_keeps {P : State → Prop}
    (hpop : ∀ s, P s → P s.popHost)
    (hread : ∀ s a, P s → P (s.hostRead a))
    (hwrite : ∀ s target d, P s → P (s.hostWrite target d))
    (hreset : ∀ s, P s → P s.resetNow)
    (hclear : ∀ s, P s → P s.clearFault)
    (hend : ∀ s i t, P s → s.st = .idle → CommandEnds s.accept i t → P t)
    (hengine : ∀ s, P s → s.st = .busy → P (engineStep s))
    {s t : State} (h : P s) (hst : step s = .next t) : P t := by
  rcases step_cases hst with ⟨_, c, _, i, _, _, hd, he⟩ | ⟨_, c, _, e, _, _, _, rfl⟩ | ⟨a, _, _, rfl⟩ | ⟨_, _, rfl⟩
    | ⟨_, d, _, _, _, _, rfl⟩ | ⟨_, hb, rfl⟩ | ⟨_, _, rfl⟩
  · cases exec_command_runs (decodeCommand_isCommand hd).1 he with
    | ignored => exact hpop s h
    | accepted hi hw => exact hend _ i _ (hpop s h) hi hw
    | clrerrInFault => exact hclear _ (hpop s h)
    | sresetInFault => exact hreset _ (hpop s h)
  · rcases rejectCommand_cases e c s.popHost with ⟨_, e'⟩ | ⟨hi, info, op, e'⟩ <;> rw [e']
    · exact hpop s h
    · exact hend _ .nop _ (hpop s h) hi (illegalCommand_ends ..)
  · exact hread _ a (hpop s h)
  · exact hreset _ (hpop s h)
  · exact hwrite _ _ d (hpop s h)
  · exact hengine s h hb
  · exact h

end Sys2Proof.Machine

/-! PROOFS, the state family, part 2: the canonical form of the memories (O49). -/

namespace Sys2Proof.Machine

open Sys2Proof

/-! ## Canonical memories -/

theorem decompFault_keeps_wf {s : State} (h : s.MemoriesWf) (info : Info) : (decompFault info s).MemoriesWf := by
  obtain ⟨hsrc, -, -, hrest⟩ := h
  exact ⟨hsrc, Memory.wf_unspecified _, Memory.wf_unspecified _, hrest⟩

theorem afterCopy_keeps_wf {s : State} (h : s.MemoriesWf) (next : Phase) : (afterCopy next s).MemoriesWf := by
  rcases afterCopy_cases next s with ⟨_, e⟩ | ⟨_, e⟩ <;> rw [e] <;> exact h

theorem headerStep_keeps_wf {s : State} (h : s.MemoriesWf) (u v : BitVec 16) : (headerStep u v s).MemoriesWf := by
  rcases headerStep_cases u v s with ⟨_, e⟩ | ⟨_, _, e⟩ | ⟨_, _, _, e⟩ <;> rw [e]
  · exact decompFault_keeps_wf h _
  · exact decompFault_keeps_wf h _
  · obtain ⟨hsrc, -, hrest⟩ := h
    exact ⟨hsrc, Memory.wf_ofList .., hrest⟩

theorem litStep_keeps_wf {s : State} (h : s.MemoriesWf) (n : Nat) : (litStep n s).MemoriesWf := by
  rcases litStep_cases n s with ⟨_, e⟩ | ⟨_, e⟩ <;> rw [e]
  · exact decompFault_keeps_wf h _
  · obtain ⟨hsrc, hlit, hout, hrest⟩ := h
    exact afterCopy_keeps_wf (s := litCopied n s) ⟨hsrc, hlit, wf_copyAcross _ _ _ _ hout, hrest⟩ _

theorem refStep_keeps_wf {s : State} (h : s.MemoriesWf) (source m : Nat) : (refStep source m s).MemoriesWf := by
  rcases refStep_cases source m s with ⟨_, e⟩ | ⟨_, e⟩ <;> rw [e]
  · exact decompFault_keeps_wf h _
  · obtain ⟨hsrc, hlit, hout, hrest⟩ := h
    exact afterCopy_keeps_wf (s := refCopied source m s) ⟨hsrc, hlit, wf_copyWithin _ _ _ hout, hrest⟩ _

theorem cmdbitStep_keeps_wf {s : State} (h : s.MemoriesWf) (c : Bool) : (cmdbitStep c s).MemoriesWf := by
  rcases cmdbitStep_cases c s with ⟨_, e⟩ | ⟨_, e⟩ <;> rw [e] <;> exact h

theorem varintStep_keeps_wf {s : State} (h : s.MemoriesWf) (v : Nat) : (varintStep v s).MemoriesWf := by
  rcases varintStep_cases v s with ⟨_, e⟩ | ⟨_, _, _, e⟩ <;> rw [e] <;> exact h

theorem colourStep_keeps_wf {s : State} (h : s.MemoriesWf) (b g r : BitVec 5) : (colourStep b g r s).MemoriesWf := by
  obtain ⟨hsrc, hlit, hout, htile, hpal, hrest⟩ := h
  exact ⟨hsrc, hlit, hout, htile, Memory.wf_write hpal _ _, hrest⟩

theorem entryStep_keeps_wf {s : State} (h : s.MemoriesWf) (w : BitVec 16) : (entryStep w s).MemoriesWf := by
  obtain ⟨hsrc, hlit, hout, htile, hpal, hnt, hfb⟩ := h
  exact ⟨hsrc, hlit, hout, htile, hpal, Memory.wf_write hnt _ _, hfb⟩

/-- One token's work, whatever the phase. -/
theorem engineStep_keeps_wf {s : State} (h : s.MemoriesWf) : (engineStep s).MemoriesWf := by
  have hadv : ∀ n, (s.advance n).MemoriesWf := fun _ => h
  cases hp : s.phase with
  | none => rw [engineStep_none hp]; exact h
  | header =>
    rcases engineStep_header hp with ⟨_, e⟩ | ⟨_, e⟩ <;> rw [e]
    · exact decompFault_keeps_wf h _
    · exact headerStep_keeps_wf (hadv _) _ _
  | lit => rw [(engineStep_lit hp).1]; exact litStep_keeps_wf (hadv _) _
  | ref =>
    rcases engineStep_ref hp with ⟨_, e⟩ | ⟨_, _, _, _, _, _, e⟩ <;> rw [e]
    · exact decompFault_keeps_wf h _
    · exact refStep_keeps_wf (hadv _) _ _
  | cmdbit =>
    rcases engineStep_cmdbit hp with ⟨_, e⟩ | ⟨_, e⟩ <;> rw [e]
    · exact decompFault_keeps_wf h _
    · exact cmdbitStep_keeps_wf (hadv _) _
  | varint => rw [engineStep_varint hp]; exact varintStep_keeps_wf (hadv _) _
  | colour =>
    rcases engineStep_colour hp with ⟨_, e⟩ | ⟨_, e⟩ <;> rw [e]
    · exact colourStep_keeps_wf h _ _ _
    · exact h
  | entry =>
    rcases engineStep_entry hp with ⟨_, e⟩ | ⟨_, e⟩ <;> rw [e]
    · exact entryStep_keeps_wf h _
    · exact h

theorem engineRun_keeps_wf {s : State} (h : s.MemoriesWf) (n : Nat) : (engineRun n s).MemoriesWf :=
  engineRun_keeps (fun _ h _ => engineStep_keeps_wf h) n h

theorem hostWrite_keeps_wf {s : State} (h : s.MemoriesWf) (target : Option Target) (d : Word) :
    (s.hostWrite target d).MemoriesWf := by
  rcases hostWrite_cases s target d with ⟨_, e⟩ | ⟨_, e⟩ | ⟨i, _, e⟩ | ⟨_, _, _, e⟩ <;> rw [e]
  · exact h
  · exact h
  · obtain ⟨hsrc, hrest⟩ := h
    exact ⟨Memory.wf_write hsrc _ _, hrest⟩
  · exact h

theorem resetNow_memoriesWf (s : State) : s.resetNow.MemoriesWf :=
  ⟨.nil, .nil, .nil, .nil, .nil, .nil, .nil⟩

/-- Every end of a command: a memory is kept, forgotten, or made anew from a list. -/
theorem commandEnds_keeps_wf {a t : State} {i : Instr} (h : a.MemoriesWf) (he : CommandEnds a i t) :
    t.MemoriesWf := by
  obtain ⟨hsrc, hlit, hout, htile, hpal, hnt, hfb⟩ := id h
  cases he with
  | raised | nop | rdbits | getcolor | subpalcnt | clrerr => exact h
  | rdbytes => exact ⟨hsrc, Memory.wf_ofList .., hout, htile, hpal, hnt, hfb⟩
  | rdbytesFaulted => exact ⟨hsrc, Memory.wf_unspecified _, hout, htile, hpal, hnt, hfb⟩
  | rdvarint v n => exact varintStep_keeps_wf (s := { a.advance n with phase := .varint a.bitPos }) h v
  | decomp =>
    exact engineRun_keeps_wf (s := decompStart a) ⟨hsrc, hlit, Memory.wf_unspecified _, htile, hpal, hnt, hfb⟩ _
  | tiledec => exact ⟨hsrc, hlit, hout, Memory.wf_ofList .., hpal, hnt, hfb⟩
  | tiledecFaulted => exact ⟨hsrc, hlit, hout, Memory.wf_unspecified _, hpal, hnt, hfb⟩
  | palload sel n =>
    exact engineRun_keeps_wf (s := palloadStart sel a) ⟨hsrc, hlit, hout, htile, Memory.wf_unspecified _, hnt, hfb⟩ n
  | ntparse sel n =>
    exact engineRun_keeps_wf (s := ntparseStart sel a) ⟨hsrc, hlit, hout, htile, hpal, Memory.wf_unspecified _, hfb⟩ n
  | compose => exact ⟨hsrc, hlit, hout, htile, hpal, hnt, Memory.wf_ofList ..⟩
  | composeFaulted => exact ⟨hsrc, hlit, hout, htile, hpal, hnt, Memory.wf_unspecified _⟩
  | sreset => exact resetNow_memoriesWf a

/-- Settles O49: a memory is only written element by element, made anew from a list, or forgotten. -/
theorem stepKeepsMemoriesCanonical : Obligations.StepKeepsMemoriesCanonical := by
  unfold Obligations.StepKeepsMemoriesCanonical
  intro s t h hst
  exact step_keeps (P := State.MemoriesWf) (fun _ h => h) (fun _ _ h => h) (fun _ _ _ h => hostWrite_keeps_wf h _ _)
    (fun s _ => resetNow_memoriesWf s) (fun _ h => h) (fun s _ _ h _ he => commandEnds_keeps_wf (a := s.accept) h he)
    (fun _ h _ => engineStep_keeps_wf h) h hst

end Sys2Proof.Machine

/-! PROOFS, the state family, part 3: the consistency of the control state (O50). -/

namespace Sys2Proof.Machine

open Sys2Proof

/-! ## The shapes of a consistent control state -/

/-- Consistency speaks of five fields only. -/
theorem State.Consistent.of_same {s t : State} (h : s.Consistent) (hst : t.st = s.st) (hdone : t.done = s.done)
    (herr : t.err = s.err) (hcmd : t.nextCmd = s.nextCmd) (hphase : t.phase = s.phase) : t.Consistent where
  latched := by rw [hst, State.errCode, herr]; exact h.latched
  errClear := by rw [hst, herr]; exact h.errClear
  errReserved := by rw [herr]; exact h.errReserved
  errKnown := by rw [State.errCode, herr]; exact h.errKnown
  doneIdle := by rw [hst, hdone]; exact h.doneIdle
  nextCmdBit := by rw [hcmd]; exact h.nextCmdBit
  phaseBusy := by rw [hst, hphase]; exact h.phaseBusy

/-- No fault latched and `ERR` 0: consistent when `DONE`, `NEXT_CMD` and the phase are. -/
theorem consistent_of_err_zero {t : State} (hst : t.st ≠ .fault) (herr : t.err = 0#32)
    (hdone : t.done = true → t.st = .idle) (hcmd : t.nextCmd &&& 0xFFFFFFFE#32 = 0#32)
    (hphase : t.phase ≠ .none ↔ t.st = .busy) : t.Consistent where
  latched := by simp [hst, State.errCode, herr]
  errClear _ := herr
  errReserved := by simp [herr]
  errKnown := .inl (by simp [State.errCode, herr])
  doneIdle := hdone
  nextCmdBit := hcmd
  phaseBusy := hphase

theorem consistent_of_idle {t : State} (hst : t.st = .idle) (herr : t.err = 0#32)
    (hcmd : t.nextCmd &&& 0xFFFFFFFE#32 = 0#32) (hphase : t.phase = .none) : t.Consistent :=
  consistent_of_err_zero (by simp [hst]) herr (fun _ => hst) hcmd (by simp [hst, hphase])

theorem consistent_of_busy {t : State} (hst : t.st = .busy) (herr : t.err = 0#32) (hdone : t.done = false)
    (hcmd : t.nextCmd &&& 0xFFFFFFFE#32 = 0#32) (hphase : t.phase ≠ .none) : t.Consistent :=
  consistent_of_err_zero (by simp [hst]) herr (by simp [hdone]) hcmd (by simp [hst, hphase])

theorem FaultKind.code_known {k : FaultKind} (h : k ≠ .lengthMismatch) :
    k.code ≠ 0#4 ∧ (k.code = 0#4 ∨ k.code = 1#4 ∨ k.code = 2#4 ∨ k.code = 4#4 ∨ k.code = 5#4) := by
  cases k with
  | lengthMismatch => exact absurd rfl h
  | _ => decide

/-- Whatever a fault leaves unspecified, its control state is the one `raise` writes (R250). -/
theorem consistent_of_raised {t : State} {k : FaultKind} (info : Info) (op : BitVec 8) (hk : k ≠ .lengthMismatch)
    (hst : t.st = .fault) (herr : t.err = errWord k info op) (hdone : t.done = false)
    (hcmd : t.nextCmd &&& 0xFFFFFFFE#32 = 0#32) (hphase : t.phase = .none) : t.Consistent := by
  obtain ⟨hcode, -, -, hreserved⟩ := raise_fields k info op t
  have hcode' : t.errCode = k.code := by rw [← hcode, State.errCode, herr]; rfl
  obtain ⟨hnz, hknown⟩ := FaultKind.code_known hk
  exact {
    latched := by simp [hst, hcode', hnz]
    errClear := fun h => absurd hst h
    errReserved := by rw [herr]; exact hreserved
    errKnown := by rw [hcode']; exact hknown
    doneIdle := by simp [hdone]
    nextCmdBit := hcmd
    phaseBusy := by simp [hst, hphase] }

/-! ## The tokens of a command in progress -/

/-- What consistency says while a command is in progress. -/
theorem State.Consistent.busy {s : State} (h : s.Consistent) (hb : s.st = .busy) :
    s.err = 0#32 ∧ s.done = false ∧ s.phase ≠ .none := by
  refine ⟨h.errClear (by simp [hb]), ?_, h.phaseBusy.mpr hb⟩
  cases hd : s.done with
  | false => rfl
  | true => have := h.doneIdle hd; rw [hb] at this; cases this

/-- A command in progress that ends ok, or goes on in another phase. -/
theorem State.Consistent.endOk {s : State} (h : s.Consistent) (hb : s.st = .busy) : s.endOk.Consistent :=
  consistent_of_idle rfl (h.busy hb).1 h.nextCmdBit rfl

theorem State.Consistent.goOn {s t : State} (h : s.Consistent) (hb : s.st = .busy) (hst : t.st = s.st)
    (hdone : t.done = s.done) (herr : t.err = s.err) (hcmd : t.nextCmd &&& 0xFFFFFFFE#32 = 0#32)
    (hphase : t.phase ≠ .none) : t.Consistent := by
  obtain ⟨he, hd, -⟩ := h.busy hb
  exact consistent_of_busy (hst.trans hb) (herr.trans he) (hdone.trans hd) hcmd hphase

theorem decompFault_consistent (info : Info) (s : State) : (decompFault info s).Consistent := by
  refine consistent_of_raised (k := .corruptStream) info 0x10#8 (by decide) rfl rfl rfl ?_ rfl
  show Config.freeReg (s.freeCtr + 7) &&& 1#32 &&& 0xFFFFFFFE#32 = 0#32
  rw [BitVec.and_assoc]
  exact BitVec.and_zero

theorem afterCopy_consistent {s : State} (h : s.Consistent) (hb : s.st = .busy) {next : Phase} (hn : next ≠ .none) :
    (afterCopy next s).Consistent := by
  rcases afterCopy_cases next s with ⟨_, e⟩ | ⟨_, e⟩ <;> rw [e]
  · exact (h.endOk hb).of_same rfl rfl rfl rfl rfl
  · exact h.goOn hb rfl rfl rfl h.nextCmdBit hn

theorem headerStep_consistent {s : State} (h : s.Consistent) (hb : s.st = .busy) (u v : BitVec 16) :
    (headerStep u v s).Consistent := by
  rcases headerStep_cases u v s with ⟨_, e⟩ | ⟨_, _, e⟩ | ⟨_, _, _, e⟩ <;> rw [e]
  · exact decompFault_consistent _ _
  · exact decompFault_consistent _ _
  · exact h.goOn hb rfl rfl rfl BitVec.zero_and (by simp)

theorem litStep_consistent {s : State} (h : s.Consistent) (hb : s.st = .busy) (n : Nat) :
    (litStep n s).Consistent := by
  rcases litStep_cases n s with ⟨_, e⟩ | ⟨_, e⟩ <;> rw [e]
  · exact decompFault_consistent _ _
  · exact afterCopy_consistent (s := litCopied n s) (h.of_same rfl rfl rfl rfl rfl) hb (by decide)

theorem refStep_consistent {s : State} (h : s.Consistent) (hb : s.st = .busy) (source m : Nat) :
    (refStep source m s).Consistent := by
  rcases refStep_cases source m s with ⟨_, e⟩ | ⟨_, e⟩ <;> rw [e]
  · exact decompFault_consistent _ _
  · exact afterCopy_consistent (s := refCopied source m s) (h.of_same rfl rfl rfl rfl rfl) hb (by decide)

theorem cmdbitStep_consistent {s : State} (h : s.Consistent) (hb : s.st = .busy) (c : Bool) :
    (cmdbitStep c s).Consistent := by
  rcases cmdbitStep_cases c s with ⟨_, e⟩ | ⟨_, e⟩ <;> rw [e] <;>
    exact h.goOn hb rfl rfl rfl (by simp) (by simp)

/-- `ERR` is 0 where a varint is read, and both ends of `RDVARINT` write the control state anew. -/
theorem varintStep_consistent {s : State} (herr : s.err = 0#32) (hcmd : s.nextCmd &&& 0xFFFFFFFE#32 = 0#32) (v : Nat) :
    (varintStep v s).Consistent := by
  rcases varintStep_cases v s with ⟨_, e⟩ | ⟨_, _, _, e⟩ <;> rw [e]
  · exact consistent_of_idle rfl herr hcmd rfl
  · exact consistent_of_raised (k := .illegalCommand) _ _ (by decide) rfl rfl rfl hcmd rfl

theorem engineStep_consistent {s : State} (h : s.Consistent) (hb : s.st = .busy) : (engineStep s).Consistent := by
  have hadv : ∀ n, (s.advance n).Consistent := fun _ => h.of_same rfl rfl rfl rfl rfl
  cases hp : s.phase with
  | none => exact absurd hp (h.busy hb).2.2
  | header =>
    rcases engineStep_header hp with ⟨_, e⟩ | ⟨_, e⟩ <;> rw [e]
    · exact decompFault_consistent _ _
    · exact headerStep_consistent (hadv _) hb _ _
  | lit => rw [(engineStep_lit hp).1]; exact litStep_consistent (hadv _) hb _
  | ref =>
    rcases engineStep_ref hp with ⟨_, e⟩ | ⟨_, _, _, _, _, _, e⟩ <;> rw [e]
    · exact decompFault_consistent _ _
    · exact refStep_consistent (hadv _) hb _ _
  | cmdbit =>
    rcases engineStep_cmdbit hp with ⟨_, e⟩ | ⟨_, e⟩ <;> rw [e]
    · exact decompFault_consistent _ _
    · exact cmdbitStep_consistent (hadv _) hb _
  | varint =>
    rw [engineStep_varint hp]
    exact varintStep_consistent (s := s.advance _) (h.busy hb).1 h.nextCmdBit _
  | colour =>
    rcases engineStep_colour hp with ⟨_, e⟩ | ⟨_, e⟩ <;> rw [e]
    · exact h.of_same rfl rfl rfl rfl rfl
    · exact (h.endOk hb).of_same rfl rfl rfl rfl rfl
  | entry =>
    rcases engineStep_entry hp with ⟨_, e⟩ | ⟨_, e⟩ <;> rw [e]
    · exact h.of_same rfl rfl rfl rfl rfl
    · exact (h.endOk hb).of_same rfl rfl rfl rfl rfl

theorem engineRun_consistent {s : State} (h : s.Consistent) (n : Nat) : (engineRun n s).Consistent :=
  engineRun_keeps (fun _ h hb => engineStep_consistent h hb) n h

/-! ## Commands and the HOST -/

theorem resetNow_consistent (s : State) : s.resetNow.Consistent :=
  consistent_of_idle rfl rfl BitVec.zero_and rfl

/-- Every end of a command accepted in IDLE, where `ERR` is 0. -/
theorem commandEnds_consistent {s t : State} {i : Instr} (h : s.Consistent) (hi : s.st = .idle)
    (he : CommandEnds s.accept i t) : t.Consistent := by
  have herr : s.err = 0#32 := h.errClear (by simp [hi])
  have hcmd := h.nextCmdBit
  cases he with
  | raised _ _ _ _ hk => exact consistent_of_raised _ _ hk rfl rfl rfl hcmd rfl
  | rdbytesFaulted n k info hk => exact consistent_of_raised _ _ hk rfl rfl rfl hcmd rfl
  | tiledecFaulted => exact consistent_of_raised (k := .streamUnderrun) _ _ (by decide) rfl rfl rfl hcmd rfl
  | composeFaulted => exact consistent_of_raised (k := .indexOutOfRange) _ _ (by decide) rfl rfl rfl hcmd rfl
  | nop | rdbits | rdbytes | tiledec | getcolor | subpalcnt | compose => exact consistent_of_idle rfl herr hcmd rfl
  | clrerr => exact consistent_of_idle rfl rfl hcmd rfl
  | sreset => exact resetNow_consistent _
  | rdvarint v n =>
    exact varintStep_consistent (s := { s.accept.advance n with phase := .varint s.accept.bitPos }) herr hcmd v
  | decomp =>
    exact engineRun_consistent (s := decompStart s.accept)
      (consistent_of_busy rfl herr rfl hcmd (by simp [decompStart])) _
  | palload sel n =>
    exact engineRun_consistent (s := palloadStart sel s.accept)
      (consistent_of_busy rfl herr rfl hcmd (by simp [palloadStart])) n
  | ntparse sel n =>
    exact engineRun_consistent (s := ntparseStart sel s.accept)
      (consistent_of_busy rfl herr rfl hcmd (by simp [ntparseStart])) n

theorem hostWrite_consistent {s : State} (h : s.Consistent) (target : Option Target) (d : Word) :
    (s.hostWrite target d).Consistent := by
  rcases hostWrite_cases s target d with ⟨_, e⟩ | ⟨_, e⟩ | ⟨_, _, e⟩ | ⟨_, _, _, e⟩ <;> rw [e] <;>
    exact h.of_same rfl rfl rfl rfl rfl

/-- Settles O50: a command in progress has `ERR` 0 and a phase, and every end of one writes `ST`, `ERR` and `DONE`
together. -/
theorem stepKeepsControlConsistent : Obligations.StepKeepsControlConsistent := by
  unfold Obligations.StepKeepsControlConsistent
  intro s t h hst
  exact step_keeps (P := State.Consistent) (fun _ h => h.of_same rfl rfl rfl rfl rfl)
    (fun _ _ h => h.of_same rfl rfl rfl rfl rfl) (fun _ _ _ h => hostWrite_consistent h _ _)
    (fun s _ => resetNow_consistent s) (fun _ h => consistent_of_idle rfl rfl h.nextCmdBit rfl)
    (fun _ _ _ h hi he => commandEnds_consistent h hi he) (fun _ h hb => engineStep_consistent h hb) h hst

end Sys2Proof.Machine

/-! PROOFS, the state family, part 4: what is valid is written over its whole extent (O51). -/

namespace Sys2Proof.Machine

open Sys2Proof

/-! ## What the invariant speaks of -/

/-- The fields that the invariant does not mention may hold anything. -/
theorem State.ExtentsWritten.of_unread {s : State} (h : s.ExtentsWritten) (cfg : Config) (st : EngineState)
    (done : Bool) (err result srcLen bitPos dataPos nextCmd tileBpp : Word) (src : Memory 8) (hostq : List HostOp)
    (rdata : Word) (freeCtr : Nat) :
    { s with
      cfg := cfg, st := st, done := done, err := err, result := result, srcLen := srcLen, bitPos := bitPos
      dataPos := dataPos, nextCmd := nextCmd, tileBpp := tileBpp, src := src, hostq := hostq, rdata := rdata
      freeCtr := freeCtr }.ExtentsWritten :=
  ⟨h.lit, h.out, h.tile, h.pal, h.nt, h.fb, h.decompInvalid, h.inBlock, h.inPalette, h.inNametable⟩

theorem State.ExtentsWritten.advance {s : State} (h : s.ExtentsWritten) (n : Nat) : (s.advance n).ExtentsWritten :=
  h.of_unread ..

/-- Between commands only the clauses on the valid bits say something. -/
theorem extentsWritten_of_ended {t : State} (hphase : t.phase = .none)
    (lit : t.litV = true → t.lit.Covers t.litLen.toNat ∧ t.litLen.toNat ≤ litCap)
    (out : t.outV = true → t.out.Covers t.outLen.toNat ∧ t.outLen.toNat ≤ outCap ∧ t.decompPos = t.outLen)
    (tile : t.tileV = true → t.tile.Covers (64 * t.tileCnt.toNat))
    (pal : t.palV = true → t.pal.Covers t.palCnt.toNat)
    (nt : t.ntV = true → t.nt.Covers t.ntCnt.toNat)
    (fb : t.fbV = true → t.fb.Covers (4 * (t.imgW.toNat * t.imgH.toNat))) : t.ExtentsWritten where
  lit := lit
  out := out
  tile := tile
  pal := pal
  nt := nt
  fb := fb
  decompInvalid := by simp [hphase, Phase.inBlock]
  inBlock := by simp [hphase, Phase.inBlock]
  inPalette := by simp [hphase]
  inNametable := by simp [hphase]

/-- Ending a command keeps what is written. -/
theorem State.ExtentsWritten.ended {s : State} (h : s.ExtentsWritten) : { s with phase := .none }.ExtentsWritten :=
  extentsWritten_of_ended rfl h.lit h.out h.tile h.pal h.nt h.fb

theorem State.ExtentsWritten.endOk {s : State} (h : s.ExtentsWritten) : s.endOk.ExtentsWritten :=
  h.ended.of_unread ..

theorem State.ExtentsWritten.raise {s : State} (h : s.ExtentsWritten) (k : FaultKind) (info : Info) (op : BitVec 8) :
    (raise k info op s).ExtentsWritten :=
  h.ended.of_unread ..

/-- A count that its register may have wrapped is not above the count. -/
theorem toNat_ofNat_le (n : Nat) : (BitVec.ofNat 32 n).toNat ≤ n := by
  rw [BitVec.toNat_ofNat]; exact Nat.mod_le ..

/-! ## The tokens of a `DECOMP` -/

theorem decompFault_extentsWritten {s : State} (h : s.ExtentsWritten) (info : Info) :
    (decompFault info s).ExtentsWritten :=
  extentsWritten_of_ended rfl nofun nofun h.tile h.pal h.nt h.fb

/-- A step of the block that is not the last leaves the next one due. -/
theorem State.ExtentsWritten.nextInBlock {s : State} (h : s.ExtentsWritten) (hp : s.phase.inBlock = true) {next : Phase}
    (hn : next.inBlock = true) : { s with phase := next }.ExtentsWritten where
  lit := h.lit
  out := h.out
  tile := h.tile
  pal := h.pal
  nt := h.nt
  fb := h.fb
  decompInvalid _ := h.decompInvalid (.inr hp)
  inBlock _ := h.inBlock hp
  inPalette := by rintro sel rfl; cases hn
  inNametable := by rintro sel rfl; cases hn

/-- The last step of a block makes both destinations valid: OUT is written up to `DECOMP_POS`, its length (R152). -/
theorem decompDone_extentsWritten {s : State} (h : s.ExtentsWritten) (hp : s.phase.inBlock = true)
    (hend : s.decompPos = s.outLen) : (decompDone s).ExtentsWritten := by
  obtain ⟨hlit, hlitCap, houtCap, hout, -⟩ := h.inBlock hp
  exact extentsWritten_of_ended rfl (fun _ => ⟨hlit, hlitCap⟩) (fun _ => ⟨hend ▸ hout, houtCap, hend⟩) h.tile h.pal
    h.nt h.fb

theorem afterCopy_extentsWritten {s : State} (h : s.ExtentsWritten) (hp : s.phase.inBlock = true) {next : Phase}
    (hn : next.inBlock = true) : (afterCopy next s).ExtentsWritten := by
  rcases afterCopy_cases next s with ⟨hend, e⟩ | ⟨_, e⟩ <;> rw [e]
  · exact decompDone_extentsWritten h hp hend
  · exact h.nextInBlock hp hn

/-- A copy to `DECOMP_POS`, clamped to what is left of the output, extends what is written of OUT to the new cursor. -/
theorem State.ExtentsWritten.copied {s : State} (h : s.ExtentsWritten) (hp : s.phase.inBlock = true) (n : Nat)
    {out : Memory 8}
    (hout : s.out.Covers s.decompPos.toNat →
      out.Covers (s.decompPos.toNat + min n (s.outLen.toNat - s.decompPos.toNat))) (dataPos : Word) :
    { s with
      out := out
      decompPos := s.decompPos + BitVec.ofNat 32 (min n (s.outLen.toNat - s.decompPos.toNat))
      dataPos := dataPos }.ExtentsWritten := by
  obtain ⟨hlit, hlitCap, houtCap, hcov, hle⟩ := h.inBlock hp
  obtain ⟨hlitV, houtV⟩ := h.decompInvalid (.inr hp)
  have hcursor := copyCursor_toNat n hle
  have hle' : (s.decompPos + BitVec.ofNat 32 (min n (s.outLen.toNat - s.decompPos.toNat))).toNat ≤ s.outLen.toNat := by
    omega
  exact {
    lit := h.lit
    out := fun hv => Bool.noConfusion (houtV.symm.trans hv)
    tile := h.tile
    pal := h.pal
    nt := h.nt
    fb := h.fb
    decompInvalid := fun _ => ⟨hlitV, houtV⟩
    inBlock := fun _ =>
      ⟨hlit, hlitCap, houtCap, by rw [hcursor]; exact hout hcov, hle'⟩
    inPalette := h.inPalette
    inNametable := h.inNametable }

theorem litStep_extentsWritten {s : State} (h : s.ExtentsWritten) (hp : s.phase.inBlock = true) (n : Nat) :
    (litStep n s).ExtentsWritten := by
  rcases litStep_cases n s with ⟨_, e⟩ | ⟨_, e⟩ <;> rw [e]
  · exact decompFault_extentsWritten h _
  · have hc : (litCopied n s).ExtentsWritten := h.copied hp _ (covers_copyAcross _) _
    exact afterCopy_extentsWritten hc hp rfl

theorem refStep_extentsWritten {s : State} (h : s.ExtentsWritten) (hp : s.phase.inBlock = true) (source m : Nat) :
    (refStep source m s).ExtentsWritten := by
  rcases refStep_cases source m s with ⟨_, e⟩ | ⟨_, e⟩ <;> rw [e]
  · exact decompFault_extentsWritten h _
  · have hc : (refCopied source m s).ExtentsWritten := h.copied hp _ covers_copyWithin _
    exact afterCopy_extentsWritten hc hp rfl

theorem cmdbitStep_extentsWritten {s : State} (h : s.ExtentsWritten) (hp : s.phase.inBlock = true) (c : Bool) :
    (cmdbitStep c s).ExtentsWritten := by
  rcases cmdbitStep_cases c s with ⟨_, e⟩ | ⟨_, e⟩ <;> rw [e]
  · exact (h.nextInBlock hp (next := .lit) rfl).of_unread ..
  · exact (h.nextInBlock hp (next := .ref) rfl).of_unread ..

/-- The framing: LIT holds the payload, nothing of OUT is written yet, and the 16-bit fields keep both within their
capacities (R141, R142, D4). -/
theorem headerStep_extentsWritten {s : State} (h : s.ExtentsWritten) (hp : s.phase = .header) (u v : BitVec 16) :
    (headerStep u v s).ExtentsWritten := by
  rcases headerStep_cases u v s with ⟨_, e⟩ | ⟨_, _, e⟩ | ⟨_, _, _, e⟩ <;> rw [e]
  · exact decompFault_extentsWritten h _
  · exact decompFault_extentsWritten h _
  · obtain ⟨hlitV, houtV⟩ := h.decompInvalid (.inl hp)
    have hlen := toNat_ofNat_le (v.toNat - 2)
    have hlit : (Memory.ofList s.freeCtr (s.src.readList (s.bitPos.toNat / 8) (v.toNat - 2))).Covers
        (BitVec.ofNat 32 (v.toNat - 2)).toNat :=
      Memory.covers_mono (Memory.covers_ofList _ _) (by rw [Memory.readList_length]; exact hlen)
    have hlitCap : (BitVec.ofNat 32 (v.toNat - 2)).toNat ≤ litCap := by
      have := v.isLt
      unfold litCap; omega
    have houtCap : (u.setWidth 32).toNat ≤ outCap := by
      have := u.isLt
      rw [BitVec.toNat_setWidth]
      unfold outCap; omega
    exact {
      lit := fun _ => ⟨hlit, hlitCap⟩
      out := fun hv => Bool.noConfusion (houtV.symm.trans hv)
      tile := h.tile
      pal := h.pal
      nt := h.nt
      fb := h.fb
      decompInvalid := fun _ => ⟨hlitV, houtV⟩
      inBlock := fun _ => ⟨hlit, hlitCap, houtCap, Memory.covers_zero _, Nat.zero_le _⟩
      inPalette := nofun
      inNametable := nofun }

/-! ## The other tokens -/

theorem varintStep_extentsWritten {s : State} (h : s.ExtentsWritten) (v : Nat) : (varintStep v s).ExtentsWritten := by
  rcases varintStep_cases v s with ⟨_, e⟩ | ⟨_, _, _, e⟩ <;> rw [e]
  · exact h.endOk.of_unread ..
  · exact (h.raise ..).of_unread ..

/-- Writing the element at the count and raising the count by one keeps the table written below its count. -/
theorem covers_write_at_count {w : Nat} {m : Memory w} {count : Word} (h : m.Covers count.toNat) (v : BitVec w) :
    (m.write count.toNat v).Covers (count + 1#32).toNat :=
  Memory.covers_mono (Memory.covers_write_next h v) (by rw [BitVec.toNat_add]; exact Nat.mod_le ..)

theorem colourStep_extentsWritten {s : State} (h : s.ExtentsWritten) {sel : Sel} (hp : s.phase = .colour sel)
    (b g r : BitVec 5) : (colourStep b g r s).ExtentsWritten := by
  obtain ⟨hinvalid, hcov⟩ := h.inPalette sel hp
  have hcov' := covers_write_at_count hcov (convertFields b g r)
  exact ⟨h.lit, h.out, h.tile, fun _ => hcov', h.nt, h.fb, h.decompInvalid, h.inBlock, fun _ _ => ⟨hinvalid, hcov'⟩,
    h.inNametable⟩

theorem entryStep_extentsWritten {s : State} (h : s.ExtentsWritten) {sel : Sel} (hp : s.phase = .entry sel)
    (w : BitVec 16) : (entryStep w s).ExtentsWritten := by
  obtain ⟨hinvalid, hcov⟩ := h.inNametable sel hp
  have hcov' := covers_write_at_count hcov w
  exact ⟨h.lit, h.out, h.tile, h.pal, fun _ => hcov', h.fb, h.decompInvalid, h.inBlock, h.inPalette,
    fun _ _ => ⟨hinvalid, hcov'⟩⟩

theorem palloadDone_extentsWritten {s : State} (h : s.ExtentsWritten) {sel : Sel} (hp : s.phase = .colour sel) :
    (palloadDone s).ExtentsWritten :=
  extentsWritten_of_ended rfl h.lit h.out h.tile (fun _ => (h.inPalette sel hp).2) h.nt h.fb

theorem ntparseDone_extentsWritten {s : State} (h : s.ExtentsWritten) {sel : Sel} (hp : s.phase = .entry sel) :
    (ntparseDone s).ExtentsWritten :=
  extentsWritten_of_ended rfl h.lit h.out h.tile h.pal (fun _ => (h.inNametable sel hp).2) h.fb

/-- One token's work, whatever the phase. -/
theorem engineStep_extentsWritten {s : State} (h : s.ExtentsWritten) : (engineStep s).ExtentsWritten := by
  cases hp : s.phase with
  | none => rw [engineStep_none hp]; exact h
  | header =>
    rcases engineStep_header hp with ⟨_, e⟩ | ⟨_, e⟩ <;> rw [e]
    · exact decompFault_extentsWritten h _
    · exact headerStep_extentsWritten (h.advance _) hp _ _
  | lit =>
    rw [(engineStep_lit hp).1]
    exact litStep_extentsWritten (h.advance _) (congrArg Phase.inBlock hp) _
  | ref =>
    rcases engineStep_ref hp with ⟨_, e⟩ | ⟨_, _, _, _, _, _, e⟩ <;> rw [e]
    · exact decompFault_extentsWritten h _
    · exact refStep_extentsWritten (h.advance _) (congrArg Phase.inBlock hp) _ _
  | cmdbit =>
    rcases engineStep_cmdbit hp with ⟨_, e⟩ | ⟨_, e⟩ <;> rw [e]
    · exact decompFault_extentsWritten h _
    · exact cmdbitStep_extentsWritten (h.advance _) (congrArg Phase.inBlock hp) _
  | varint => rw [engineStep_varint hp]; exact varintStep_extentsWritten (h.advance _) _
  | colour sel =>
    rcases engineStep_colour hp with ⟨_, e⟩ | ⟨_, e⟩ <;> rw [e]
    · exact colourStep_extentsWritten h hp _ _ _
    · exact palloadDone_extentsWritten h hp
  | entry sel =>
    rcases engineStep_entry hp with ⟨_, e⟩ | ⟨_, e⟩ <;> rw [e]
    · exact entryStep_extentsWritten h hp _
    · exact ntparseDone_extentsWritten h hp

theorem engineRun_extentsWritten {s : State} (h : s.ExtentsWritten) (n : Nat) : (engineRun n s).ExtentsWritten :=
  engineRun_keeps (fun _ h _ => engineStep_extentsWritten h) n h

/-! ## Commands and the HOST -/

theorem decompStart_extentsWritten {s : State} (h : s.ExtentsWritten) : (decompStart s).ExtentsWritten :=
  ⟨nofun, nofun, h.tile, h.pal, h.nt, h.fb, fun _ => ⟨rfl, rfl⟩, nofun, nofun, nofun⟩

theorem palloadStart_extentsWritten {s : State} (h : s.ExtentsWritten) (sel : Sel) :
    (palloadStart sel s).ExtentsWritten :=
  ⟨h.lit, h.out, h.tile, nofun, h.nt, h.fb, nofun, nofun, fun _ _ => ⟨rfl, Memory.covers_zero _⟩, nofun⟩

theorem ntparseStart_extentsWritten {s : State} (h : s.ExtentsWritten) (sel : Sel) :
    (ntparseStart sel s).ExtentsWritten :=
  ⟨h.lit, h.out, h.tile, h.pal, nofun, h.fb, nofun, nofun, nofun, fun _ _ => ⟨rfl, Memory.covers_zero _⟩⟩

theorem resetNow_extentsWritten (s : State) : s.resetNow.ExtentsWritten :=
  extentsWritten_of_ended rfl nofun nofun nofun nofun nofun nofun

/-- Every end of a command: a destination made valid was made from a list at least as long as its registers say, and one
forgotten is not valid. -/
theorem commandEnds_extentsWritten {a t : State} {i : Instr} (h : a.ExtentsWritten) (he : CommandEnds a i t) :
    t.ExtentsWritten := by
  cases he with
  | raised => exact h.raise ..
  | nop => exact h.endOk
  | rdbits | getcolor | subpalcnt => exact h.endOk.of_unread ..
  | rdbytes n bytes hlen hcap =>
    have hle := toNat_ofNat_le n.toNat
    exact extentsWritten_of_ended rfl
      (fun _ => ⟨Memory.covers_mono (Memory.covers_ofList _ _) (by rw [hlen]; exact hle), hle.trans hcap⟩)
      h.out h.tile h.pal h.nt h.fb
  | rdbytesFaulted => exact extentsWritten_of_ended rfl nofun h.out h.tile h.pal h.nt h.fb
  | rdvarint v n =>
    exact varintStep_extentsWritten (s := { a.advance n with phase := .varint a.bitPos })
      ⟨h.lit, h.out, h.tile, h.pal, h.nt, h.fb, nofun, nofun, nofun, nofun⟩ v
  | decomp => exact engineRun_extentsWritten (decompStart_extentsWritten h) _
  | tiledec sel bpp tiles count depth hlen =>
    have hle : 64 * (BitVec.ofNat 32 count).toNat ≤ tiles.length := by
      have := toNat_ofNat_le count
      omega
    exact extentsWritten_of_ended rfl h.lit h.out (fun _ => Memory.covers_mono (Memory.covers_ofList _ _) hle) h.pal
      h.nt h.fb
  | tiledecFaulted => exact extentsWritten_of_ended rfl h.lit h.out nofun h.pal h.nt h.fb
  | palload sel n => exact engineRun_extentsWritten (palloadStart_extentsWritten h sel) n
  | ntparse sel n => exact engineRun_extentsWritten (ntparseStart_extentsWritten h sel) n
  | compose tw bpp image w ht hlen =>
    have hle : 4 * ((BitVec.ofNat 32 w).toNat * (BitVec.ofNat 32 ht).toNat) ≤ image.length := by
      rw [hlen]
      exact Nat.mul_le_mul_left 4 (Nat.mul_le_mul (toNat_ofNat_le w) (toNat_ofNat_le ht))
    exact extentsWritten_of_ended rfl h.lit h.out h.tile h.pal h.nt
      fun _ => Memory.covers_mono (Memory.covers_ofList _ _) hle
  | composeFaulted => exact extentsWritten_of_ended rfl h.lit h.out h.tile h.pal h.nt nofun
  | clrerr => exact h.ended.of_unread ..
  | sreset => exact resetNow_extentsWritten a

theorem hostWrite_extentsWritten {s : State} (h : s.ExtentsWritten) (target : Option Target) (d : Word) :
    (s.hostWrite target d).ExtentsWritten := by
  rcases hostWrite_cases s target d with ⟨_, e⟩ | ⟨_, e⟩ | ⟨_, _, e⟩ | ⟨_, _, _, e⟩ <;> rw [e] <;>
    exact h.of_unread ..

/-- Settles O51: a destination becomes valid only when it has been written over its extent, token by token or at once, and
every update that forgets it clears its valid bit. -/
theorem stepKeepsExtentsWritten : Obligations.StepKeepsExtentsWritten := by
  unfold Obligations.StepKeepsExtentsWritten
  intro s t h hst
  exact step_keeps (P := State.ExtentsWritten) (fun _ h => h.of_unread ..) (fun _ _ h => h.of_unread ..)
    (fun _ _ _ h => hostWrite_extentsWritten h _ _) (fun s _ => resetNow_extentsWritten s)
    (fun _ h => h.ended.of_unread ..)
    (fun s _ _ h _ he => commandEnds_extentsWritten (a := s.accept) (h.of_unread ..) he)
    (fun _ h _ => engineStep_extentsWritten h) h hst

end Sys2Proof.Machine

/-! PROOFS, the state family, part 5: which instruction writes what (O53, O54), and the latched fault (O55). -/

namespace Sys2Proof.Machine

open Sys2Proof

/-! ## What a command that runs tokens cannot reach

Two states that differ only in what a command may write are equal once that is blanked: a frame is then one equation, and
a run's frame follows from its tokens' by transitivity. -/

/-- `s` with everything a `DECOMP` may write blanked (R152, R250). -/
def State.outsideDecomp (s : State) : State :=
  { s with
    st := .idle, done := false, err := 0#32, phase := .none, freeCtr := 0, bitPos := 0#32, nextCmd := 0#32
    litV := false, lit := Memory.unspecified 0, litLen := 0#32, dataPos := 0#32
    outV := false, out := Memory.unspecified 0, outLen := 0#32, decompPos := 0#32 }

/-- `s` with everything a `PALLOAD` may write blanked (R192). -/
def State.outsidePalload (s : State) : State :=
  { s with
    st := .idle, done := false, phase := .none, freeCtr := 0
    palV := false, pal := Memory.unspecified 0, palCnt := 0#32 }

/-- `s` with everything an `NTPARSE` may write blanked (R202). -/
def State.outsideNtparse (s : State) : State :=
  { s with
    st := .idle, done := false, phase := .none, freeCtr := 0
    ntV := false, nt := Memory.unspecified 0, ntCnt := 0#32 }

theorem afterCopy_outsideDecomp (next : Phase) (s : State) : (afterCopy next s).outsideDecomp = s.outsideDecomp := by
  rcases afterCopy_cases next s with ⟨_, e⟩ | ⟨_, e⟩ <;> rw [e] <;> rfl

theorem headerStep_outsideDecomp (u v : BitVec 16) (s : State) :
    (headerStep u v s).outsideDecomp = s.outsideDecomp := by
  rcases headerStep_cases u v s with ⟨_, e⟩ | ⟨_, _, e⟩ | ⟨_, _, _, e⟩ <;> rw [e] <;> rfl

theorem litStep_outsideDecomp (n : Nat) (s : State) : (litStep n s).outsideDecomp = s.outsideDecomp := by
  rcases litStep_cases n s with ⟨_, e⟩ | ⟨_, e⟩ <;> rw [e]
  · rfl
  · exact afterCopy_outsideDecomp ..

theorem refStep_outsideDecomp (source m : Nat) (s : State) : (refStep source m s).outsideDecomp = s.outsideDecomp := by
  rcases refStep_cases source m s with ⟨_, e⟩ | ⟨_, e⟩ <;> rw [e]
  · rfl
  · exact afterCopy_outsideDecomp ..

theorem cmdbitStep_outsideDecomp (c : Bool) (s : State) : (cmdbitStep c s).outsideDecomp = s.outsideDecomp := by
  rcases cmdbitStep_cases c s with ⟨_, e⟩ | ⟨_, e⟩ <;> rw [e] <;> rfl

/-- A token of a `DECOMP`. -/
theorem engineStep_outsideDecomp {s : State} (h : DecompRunning s) (hb : s.st = .busy) :
    (engineStep s).outsideDecomp = s.outsideDecomp := by
  rcases h hb with hp | ⟨hp | hp | hp, -⟩
  · rcases engineStep_header hp with ⟨_, e⟩ | ⟨_, e⟩ <;> rw [e]
    · rfl
    · exact headerStep_outsideDecomp ..
  · rw [(engineStep_lit hp).1]; exact litStep_outsideDecomp ..
  · rcases engineStep_ref hp with ⟨_, e⟩ | ⟨_, _, _, _, _, _, e⟩ <;> rw [e]
    · rfl
    · exact refStep_outsideDecomp ..
  · rcases engineStep_cmdbit hp with ⟨_, e⟩ | ⟨_, e⟩ <;> rw [e]
    · rfl
    · exact cmdbitStep_outsideDecomp ..

/-- A whole `DECOMP`. -/
theorem decompRun_outsideDecomp (n : Nat) (s : State) :
    (engineRun n (decompStart s)).outsideDecomp = s.outsideDecomp :=
  (engineRun_keeps (s := decompStart s) (P := fun t => DecompRunning t ∧ t.outsideDecomp = s.outsideDecomp)
    (fun _ ⟨hr, he⟩ hb => ⟨engineStep_decompRunning hr hb, (engineStep_outsideDecomp hr hb).trans he⟩) n
    ⟨fun _ => .inl rfl, rfl⟩).2

/-- A whole `PALLOAD`. -/
theorem palloadRun_outsidePalload (sel : Sel) (n : Nat) (s : State) :
    (engineRun n (palloadStart sel s)).outsidePalload = s.outsidePalload := by
  refine (engineRun_keeps (s := palloadStart sel s)
    (P := fun t => (t.st = .busy → t.phase = .colour sel) ∧ t.outsidePalload = s.outsidePalload) ?_ n
    ⟨fun _ => rfl, rfl⟩).2
  rintro t ⟨hp, he⟩ hb
  rcases engineStep_colour (hp hb) with ⟨_, e⟩ | ⟨_, e⟩ <;> rw [e]
  · exact ⟨hp, he⟩
  · exact ⟨nofun, he⟩

/-- A whole `NTPARSE`. -/
theorem ntparseRun_outsideNtparse (sel : Sel) (n : Nat) (s : State) :
    (engineRun n (ntparseStart sel s)).outsideNtparse = s.outsideNtparse := by
  refine (engineRun_keeps (s := ntparseStart sel s)
    (P := fun t => (t.st = .busy → t.phase = .entry sel) ∧ t.outsideNtparse = s.outsideNtparse) ?_ n
    ⟨fun _ => rfl, rfl⟩).2
  rintro t ⟨hp, he⟩ hb
  rcases engineStep_entry (hp hb) with ⟨_, e⟩ | ⟨_, e⟩ <;> rw [e]
  · exact ⟨hp, he⟩
  · exact ⟨nofun, he⟩

/-- Inside a command `exec` of a token that answers a next state is the token's work. -/
theorem exec_token {i : Instr} {s t : State} (hc : isCommand i = false) (h : exec i s = .next t) : t = runToken i s := by
  rcases exec_runToken hc s with e | ⟨_, e⟩ <;> rw [e] at h <;> cases h
  rfl

/-! ## One producer for each memory -/

/-- A memory with its count registers and its valid bit (R37 to R43), everything else at its reset value. -/
def State.produced (s : State) : MemName → State
  | .src => { State.reset with src := s.src, srcLen := s.srcLen }
  | .lit => { State.reset with lit := s.lit, litV := s.litV, litLen := s.litLen }
  | .out => { State.reset with out := s.out, outV := s.outV, outLen := s.outLen, decompPos := s.decompPos }
  | .tile => { State.reset with tile := s.tile, tileV := s.tileV, tileCnt := s.tileCnt, tileBpp := s.tileBpp }
  | .pal => { State.reset with pal := s.pal, palV := s.palV, palCnt := s.palCnt }
  | .nt => { State.reset with nt := s.nt, ntV := s.ntV, ntCnt := s.ntCnt }
  | .fb => { State.reset with fb := s.fb, fbV := s.fbV, imgW := s.imgW, imgH := s.imgH }

theorem produced_of_outsideDecomp {s t : State} (h : t.outsideDecomp = s.outsideDecomp) {m : MemName} (hl : m ≠ .lit)
    (ho : m ≠ .out) : t.produced m = s.produced m := by
  have key : ∀ u : State, u.outsideDecomp.produced m = u.produced m := fun u => by
    cases m with
    | lit => exact absurd rfl hl
    | out => exact absurd rfl ho
    | _ => rfl
  rw [← key t, h, key s]

theorem produced_of_outsidePalload {s t : State} (h : t.outsidePalload = s.outsidePalload) {m : MemName}
    (hm : m ≠ .pal) : t.produced m = s.produced m := by
  have key : ∀ u : State, u.outsidePalload.produced m = u.produced m := fun u => by
    cases m with
    | pal => exact absurd rfl hm
    | _ => rfl
  rw [← key t, h, key s]

theorem produced_of_outsideNtparse {s t : State} (h : t.outsideNtparse = s.outsideNtparse) {m : MemName}
    (hm : m ≠ .nt) : t.produced m = s.produced m := by
  have key : ∀ u : State, u.outsideNtparse.produced m = u.produced m := fun u => by
    cases m with
    | nt => exact absurd rfl hm
    | _ => rfl
  rw [← key t, h, key s]

theorem raise_produced (k : FaultKind) (info : Info) (op : BitVec 8) (s : State) (m : MemName) :
    (raise k info op s).produced m = s.produced m := by cases m <;> rfl

theorem cmdbitStep_produced (c : Bool) (s : State) (m : MemName) : (cmdbitStep c s).produced m = s.produced m := by
  rcases cmdbitStep_cases c s with ⟨_, e⟩ | ⟨_, e⟩ <;> rw [e] <;> cases m <;> rfl

theorem varintStep_produced (v : Nat) (s : State) (m : MemName) : (varintStep v s).produced m = s.produced m := by
  rcases varintStep_cases v s with ⟨_, e⟩ | ⟨_, _, _, e⟩ <;> rw [e] <;> cases m <;> rfl

/-- A token or a data word writes only the memory its command produces. -/
theorem runToken_produced {i : Instr} (hc : isCommand i = false) {m : MemName} (hm : mayWrite m i = false) (s : State) :
    (runToken i s).produced m = s.produced m := by
  cases i with
  | lit n =>
    exact produced_of_outsideDecomp (litStep_outsideDecomp n s) (by rintro rfl; cases hm) (by rintro rfl; cases hm)
  | ref source n =>
    exact produced_of_outsideDecomp (refStep_outsideDecomp source n s) (by rintro rfl; cases hm)
      (by rintro rfl; cases hm)
  | blockhdr u v =>
    exact produced_of_outsideDecomp (headerStep_outsideDecomp u v s) (by rintro rfl; cases hm) (by rintro rfl; cases hm)
  | cmdbit c => exact cmdbitStep_produced c s m
  | varint v => exact varintStep_produced v s m
  | colorword x b g r =>
    cases m with
    | pal => cases hm
    | _ => rfl
  | ntword v h p sp tile =>
    cases m with
    | nt => cases hm
    | _ => rfl
  | _ => cases hc

/-- A command writes only the memory it produces, whichever way it ends. -/
theorem commandEnds_produced {a t : State} {i : Instr} (he : CommandEnds a i t) {m : MemName}
    (hm : mayWrite m i = false) : t.produced m = a.produced m := by
  cases he with
  | raised => exact raise_produced ..
  | nop | rdbits | getcolor | subpalcnt | clrerr => cases m <;> rfl
  | rdbytes | rdbytesFaulted =>
    cases m with
    | lit => cases hm
    | _ => rfl
  | rdvarint v n => exact (varintStep_produced v _ m).trans (by cases m <;> rfl)
  | decomp =>
    exact produced_of_outsideDecomp (decompRun_outsideDecomp _ a) (by rintro rfl; cases hm) (by rintro rfl; cases hm)
  | tiledec | tiledecFaulted =>
    cases m with
    | tile => cases hm
    | _ => rfl
  | palload sel n => exact produced_of_outsidePalload (palloadRun_outsidePalload sel n a) (by rintro rfl; cases hm)
  | ntparse sel n => exact produced_of_outsideNtparse (ntparseRun_outsideNtparse sel n a) (by rintro rfl; cases hm)
  | compose | composeFaulted =>
    cases m with
    | fb => cases hm
    | _ => rfl
  | sreset => cases m <;> cases hm

theorem exec_produced {i : Instr} {s t : State} (h : exec i s = .next t) {m : MemName} (hm : mayWrite m i = false) :
    t.produced m = s.produced m := by
  cases hc : isCommand i with
  | false => rw [exec_token hc h]; exact runToken_produced hc hm s
  | true =>
    cases exec_command_runs hc h with
    | ignored => rfl
    | accepted _ he => exact (commandEnds_produced he hm).trans (by cases m <;> rfl)
    | clrerrInFault => cases m <;> rfl
    | sresetInFault => cases m <;> cases hm

/-- Settles O53: whichever way an instruction ends, it leaves every memory but the one it produces. -/
theorem memoriesHaveOneProducer : Obligations.MemoriesHaveOneProducer := by
  unfold Obligations.MemoriesHaveOneProducer
  intro i s t h
  have key : ∀ m, mayWrite m i = false → t.produced m = s.produced m := fun _ hm => exec_produced h hm
  refine ⟨fun hm => ?_, fun hm => ?_, fun hm => ?_, fun hm => ?_, fun hm => ?_, fun hm => ?_, fun hm => ?_⟩ <;>
    have e := key _ hm
  -- Each field of the two records is read off their equality.
  · exact ⟨(congrArg State.src e :), (congrArg State.srcLen e :)⟩
  · exact ⟨(congrArg State.lit e :), (congrArg State.litV e :), (congrArg State.litLen e :)⟩
  · exact ⟨(congrArg State.out e :), (congrArg State.outV e :), (congrArg State.outLen e :),
      (congrArg State.decompPos e :)⟩
  · exact ⟨(congrArg State.tile e :), (congrArg State.tileV e :), (congrArg State.tileCnt e :),
      (congrArg State.tileBpp e :)⟩
  · exact ⟨(congrArg State.pal e :), (congrArg State.palV e :), (congrArg State.palCnt e :)⟩
  · exact ⟨(congrArg State.nt e :), (congrArg State.ntV e :), (congrArg State.ntCnt e :)⟩
  · exact ⟨(congrArg State.fb e :), (congrArg State.fbV e :), (congrArg State.imgW e :), (congrArg State.imgH e :)⟩

/-! ## `RESULT`, the configuration and the HOST's side -/

/-- The configuration and the HOST's side, everything else at its reset value. -/
def State.environment (s : State) : State := { State.reset with cfg := s.cfg, hostq := s.hostq, rdata := s.rdata }

theorem environment_of_outsideDecomp {s t : State} (h : t.outsideDecomp = s.outsideDecomp) :
    t.environment = s.environment :=
  (congrArg State.environment h :)

theorem varintStep_environment (v : Nat) (s : State) : (varintStep v s).environment = s.environment := by
  rcases varintStep_cases v s with ⟨_, e⟩ | ⟨_, _, _, e⟩ <;> rw [e] <;> rfl

theorem runToken_environment (i : Instr) (s : State) : (runToken i s).environment = s.environment := by
  cases i with
  | lit n => exact environment_of_outsideDecomp (litStep_outsideDecomp n s)
  | ref source n => exact environment_of_outsideDecomp (refStep_outsideDecomp source n s)
  | blockhdr u v => exact environment_of_outsideDecomp (headerStep_outsideDecomp u v s)
  | cmdbit c => exact environment_of_outsideDecomp (cmdbitStep_outsideDecomp c s)
  | varint v => exact varintStep_environment v s
  | _ => rfl

theorem commandEnds_environment {a t : State} {i : Instr} (he : CommandEnds a i t) :
    t.environment = a.environment := by
  cases he with
  | rdvarint v n => exact varintStep_environment v _
  | decomp => exact environment_of_outsideDecomp (decompRun_outsideDecomp _ a)
  | palload sel n => exact (congrArg State.environment (palloadRun_outsidePalload sel n a) :)
  | ntparse sel n => exact (congrArg State.environment (ntparseRun_outsideNtparse sel n a) :)
  | _ => rfl

theorem exec_environment {i : Instr} {s t : State} (h : exec i s = .next t) : t.environment = s.environment := by
  cases hc : isCommand i with
  | false => rw [exec_token hc h]; exact runToken_environment i s
  | true =>
    cases exec_command_runs hc h with
    | accepted _ he => exact commandEnds_environment (a := s.accept) he
    | _ => rfl

/-- A varint writes `RESULT` only where it ends ok (R126). -/
theorem varintStep_result (v : Nat) (s : State) : (varintStep v s).result = s.result ∨ (varintStep v s).st = .idle := by
  rcases varintStep_cases v s with ⟨_, e⟩ | ⟨_, _, _, e⟩ <;> rw [e]
  · exact .inr rfl
  · exact .inl rfl

theorem runToken_result (i : Instr) (s : State) :
    (runToken i s).result = s.result ∨ (mayWriteResult i = true ∧ (runToken i s).st = .idle) := by
  cases i with
  | lit n => exact .inl (congrArg State.result (litStep_outsideDecomp n s) :)
  | ref source n => exact .inl (congrArg State.result (refStep_outsideDecomp source n s) :)
  | blockhdr u v => exact .inl (congrArg State.result (headerStep_outsideDecomp u v s) :)
  | cmdbit c => exact .inl (congrArg State.result (cmdbitStep_outsideDecomp c s) :)
  | varint v => exact (varintStep_result v s).imp_right fun h => ⟨rfl, h⟩
  | _ => exact .inl rfl

theorem commandEnds_result {a t : State} {i : Instr} (hi : i ≠ .sreset) (he : CommandEnds a i t) :
    t.result = a.result ∨ (mayWriteResult i = true ∧ t.st = .idle) := by
  cases he with
  | rdbits | getcolor | subpalcnt => exact .inr ⟨rfl, rfl⟩
  | rdvarint v n => exact (varintStep_result v _).imp_right fun h => ⟨rfl, h⟩
  | decomp => exact .inl (congrArg State.result (decompRun_outsideDecomp _ a) :)
  | palload sel n => exact .inl (congrArg State.result (palloadRun_outsidePalload sel n a) :)
  | ntparse sel n => exact .inl (congrArg State.result (ntparseRun_outsideNtparse sel n a) :)
  | sreset => exact absurd rfl hi
  | _ => exact .inl rfl

/-- An instruction other than `SRESET` leaves `RESULT`, or it is one of its writers and has ended ok (R23). -/
theorem exec_result {i : Instr} {s t : State} (hi : i ≠ .sreset) (h : exec i s = .next t) :
    t.result = s.result ∨ (mayWriteResult i = true ∧ t.st = .idle) := by
  cases hc : isCommand i with
  | false => rw [exec_token hc h]; exact runToken_result i s
  | true =>
    cases exec_command_runs hc h with
    | accepted _ he => exact commandEnds_result (a := s.accept) hi he
    | sresetInFault => exact absurd rfl hi
    | _ => exact .inl rfl

/-- Settles O54: `RESULT` is written only by an instruction of the list that ends in IDLE. -/
theorem resultHasFourWriters : Obligations.ResultHasFourWriters := by
  unfold Obligations.ResultHasFourWriters
  intro i s t h
  have henv := exec_environment h
  refine ⟨fun hw => ?_, fun hi hst => ?_, (congrArg State.cfg henv :), (congrArg State.hostq henv :),
    (congrArg State.rdata henv :)⟩
  · have hi : i ≠ .sreset := by rintro rfl; cases hw
    exact (exec_result hi h).resolve_right fun ⟨hw', _⟩ => Bool.noConfusion (hw.symm.trans hw')
  · exact (exec_result hi h).resolve_right fun ⟨_, hidle⟩ => EngineState.noConfusion (hst.symm.trans hidle)

/-! ## The latched fault -/

/-- In FAULT every command but `CLRERR` and `SRESET` is ignored (R249 step 1). -/
theorem exec_command_in_fault {i : Instr} {s t : State} (hf : s.st = .fault) (hc : isCommand i = true)
    (hclr : i ≠ .clrerr) (hreset : i ≠ .sreset) (h : exec i s = .next t) : t = s := by
  cases exec_command_runs hc h with
  | ignored => rfl
  | accepted hst => rw [hf] at hst; cases hst
  | clrerrInFault => exact absurd rfl hclr
  | sresetInFault => exact absurd rfl hreset

/-- Settles O55: in FAULT the gate ignores every other word, and no other HOST action reaches `ST` or `ERR`. -/
theorem latchedFaultStays : Obligations.LatchedFaultStays := by
  unfold Obligations.LatchedFaultStays
  intro s t op rest hf hq hop hword hst
  rcases step_cases hst with ⟨a, c, r, i, hq', ha, hd, he⟩ | ⟨a, c, r, e, _, _, _, rfl⟩ | ⟨a, _, _, rfl⟩
    | ⟨r, hq', _⟩ | ⟨a, d, r, _, _, _, rfl⟩ | ⟨hq', _⟩ | ⟨_, _, rfl⟩
  · obtain ⟨rfl, rfl⟩ : op = .write a c ∧ rest = r := List.cons.inj (hq.symm.trans hq')
    obtain ⟨hc, -, hclr, hreset⟩ := decodeCommand_isCommand hd
    obtain ⟨hneClr, hneReset⟩ := hword a c rfl ha
    rw [exec_command_in_fault (s := s.popHost) hf hc (fun e => hneClr (hclr e)) (fun e => hneReset (hreset e)) he]
    exact ⟨hf, rfl⟩
  · rcases rejectCommand_cases e c s.popHost with ⟨_, e'⟩ | ⟨hidle, _⟩
    · rw [e']; exact ⟨hf, rfl⟩
    · exact EngineState.noConfusion (hf.symm.trans hidle)
  · exact ⟨hf, rfl⟩
  · exact absurd (List.cons.inj (hq.symm.trans hq')).1 hop
  · rcases hostWrite_cases s.popHost (resolve s.cfg a) d with ⟨_, e⟩ | ⟨_, e⟩ | ⟨_, _, e⟩ | ⟨_, _, _, e⟩ <;> rw [e] <;>
      exact ⟨hf, rfl⟩
  · rw [hq] at hq'; cases hq'
  · exact ⟨hf, rfl⟩

end Sys2Proof.Machine

/-! PROOFS, the state family, part 6: reset (O1, O52), the command step (O3), the flags (O56) and the HOST's port (O58,
O59). -/

namespace Sys2Proof.Machine

open Sys2Proof

/-! ## Reset -/

theorem resetNow_isReset (s : State) : s.resetNow.IsReset := by
  simp [State.IsReset, State.resetNow, State.reset]

/-- IDLE and the empty stream: `STATUS` has `EOS` alone (R25). -/
theorem resetNow_status (s : State) : s.resetNow.status = 0x00000008#32 := by
  simp [State.status, State.resetNow, State.reset, State.eos, State.srcBits, flagAt]

/-- Where `ST` is not BUSY, `SRESET` is the HOST's reset (R232). -/
theorem exec_sreset {s : State} (h : s.st ≠ .busy) : exec .sreset s = .next s.resetNow := by
  show Host.Outcome.next (issueAlways State.resetNow s) = _
  rcases issueAlways_cases State.resetNow s with ⟨hb, _⟩ | ⟨_, e⟩ | ⟨_, e⟩
  · exact absurd hb h
  · rw [e]; rfl
  · rw [e]

/-- Settles O1: every way to reset ends in `resetNow`. -/
theorem resetAndSresetState : Obligations.ResetAndSresetState := by
  unfold Obligations.ResetAndSresetState
  refine ⟨⟨?_, by decide, rfl⟩, fun s hb => ?_, fun s rest hq => ?_⟩
  · simp [State.IsReset, State.reset, Memory.lookup, cellsLookup]
  · exact ⟨s.resetNow, exec_sreset hb, resetNow_isReset s, resetNow_status s, rfl, rfl, rfl⟩
  · have hstep : step s = .next s.popHost.resetNow := step_host hq nofun
    exact ⟨_, hstep, resetNow_isReset _, resetNow_status _, rfl, rfl, congrArg List.tail hq, rfl⟩

/-- Settles O52: at reset nothing is valid, nothing is latched and no element is listed. -/
theorem resetMeetsInvariants : Obligations.ResetMeetsInvariants := by
  unfold Obligations.ResetMeetsInvariants
  exact ⟨reset_memoriesWf, consistent_of_idle rfl rfl BitVec.zero_and rfl,
    extentsWritten_of_ended rfl nofun nofun nofun nofun nofun nofun⟩

/-! ## The command step -/

theorem popHost_eq {s : State} {op : HostOp} {rest : List HostOp} (hq : s.hostq = op :: rest) :
    s.popHost = { s with hostq := rest } := by
  simp [State.popHost, hq]

/-- Settles O3. -/
theorem stepRunsCommand : Obligations.StepRunsCommand := by
  unfold Obligations.StepRunsCommand
  intro s a c rest i hq ha hd
  rw [step_command hq ha, hd, popHost_eq hq]

/-! ## The flags -/

/-- A flag is one bit of its word. -/
theorem flagAt_getLsbD {i : Nat} (hi : i < 32) (b : Bool) (j : Nat) :
    (flagAt i b).getLsbD j = (decide (j = i) && b) := by
  cases b with
  | false => simp [flagAt]
  | true =>
    simp only [flagAt, if_true, BitVec.getLsbD_shiftLeft, BitVec.getLsbD_one, Bool.and_true]
    by_cases h : j = i
    · simp [h, hi]
    · simp [h]; omega

theorem State.eos_eq (s : State) : s.eos = decide (8 * s.srcLen.toNat ≤ s.bitPos.toNat) := rfl

/-- Settles O56: `STATUS` is the or of ten one-bit words, none of them above bit 13. -/
theorem statusBits : Obligations.StatusBits := by
  unfold Obligations.StatusBits
  intro s i
  have hbit : s.status.getLsbD i =
      (decide (i = 0) && s.st == .busy || decide (i = 1) && s.st == .fault || decide (i = 2) && s.done
        || decide (i = 3) && s.eos || decide (i = 8) && s.litV || decide (i = 9) && s.outV
        || decide (i = 10) && s.tileV || decide (i = 11) && s.palV || decide (i = 12) && s.ntV
        || decide (i = 13) && s.fbV) := by
    simp only [State.status, BitVec.getLsbD_or, flagAt_getLsbD, Nat.reduceLT]
  rw [hbit, State.eos_eq]
  by_cases h : i < 14
  · interval_cases i <;> simp
  · have hne : ∀ k, k < 14 → i ≠ k := by omega
    simp [hne]

/-! ## The HOST's port -/

theorem hostReadValue_reg {s : State} (hb : s.st ≠ .busy) {a : Word} {o : Nat} (ha : resolve s.cfg a = some (.reg o)) :
    s.hostReadValue a = s.readReg o := by
  unfold State.hostReadValue
  rw [ha]
  cases hst : s.st with
  | busy => exact absurd hst hb
  | idle => rfl
  | fault => rfl

theorem hostReadValue_elem {s : State} (hb : s.st ≠ .busy) {a : Word} {m : MemName} {i : Nat}
    (ha : resolve s.cfg a = some (.elem m i)) (hi : i < s.validExtent m) : s.hostReadValue a = s.memElem m i := by
  unfold State.hostReadValue
  rw [ha]
  cases hst : s.st with
  | busy => exact absurd hst hb
  | idle => exact if_pos hi
  | fault => exact if_pos hi

/-- The register map as a chain of offsets (R36). -/
theorem readReg_eq (s : State) (o : Nat) :
    s.readReg o = if o = 0x04 then s.status else if o = 0x08 then s.err else if o = 0x0C then s.result
      else if o = 0x10 then s.srcLen else if o = 0x14 then s.bitPos else if o = 0x18 then s.litLen
      else if o = 0x1C then s.dataPos else if o = 0x20 then s.outLen else if o = 0x24 then s.decompPos
      else if o = 0x28 then s.nextCmd else if o = 0x2C then s.tileCnt else if o = 0x30 then s.tileBpp
      else if o = 0x34 then s.palCnt else if o = 0x38 then s.ntCnt else if o = 0x3C then s.imgW
      else if o = 0x40 then s.imgH else 0#32 := by
  unfold State.readReg
  split
  case h_17 => simp_all
  all_goals rfl

/-- Settles O58: a read moves its value to the HOST, and the value is the register's or the element's. -/
theorem hostReads : Obligations.HostReads := by
  unfold Obligations.HostReads
  intro s a rest hb hq
  have hstep : step s = .next (s.popHost.hostRead a) := step_host hq nofun
  have elem : ∀ {m i}, resolve s.cfg a = some (.elem m i) → i < s.validExtent m →
      s.popHost.hostReadValue a = s.memElem m i := fun ha hi => hostReadValue_elem (s := s.popHost) hb ha hi
  refine ⟨s.popHost.hostReadValue a, s.freeCtr + 1, by rw [hstep, State.hostRead, popHost_eq hq], fun o ha => ?_,
    fun i ha hi => elem ha hi, fun i ha hv hi => elem ha ?_, fun i ha hv hi => elem ha ?_,
    fun i ha hv hi => elem ha ?_, fun i ha hv hi => elem ha ?_, fun i ha hv hi => elem ha ?_,
    fun i ha hv hi => elem ha ?_⟩
  · rw [← readReg_eq]; exact hostReadValue_reg (s := s.popHost) hb ha
  all_goals rw [State.validExtent, if_pos hv]; exact hi

theorem step_hostWrite {s : State} {a d : Word} {rest : List HostOp} (hb : s.st ≠ .busy)
    (hq : s.hostq = .write a d :: rest) (ha : resolve s.cfg a ≠ some (.reg 0)) :
    step s = .next (s.popHost.hostWrite (resolve s.cfg a) d) := by
  rw [step_host hq (by rintro _ _ ⟨⟩; exact ha), hostAct, State.popHost_st, State.popHost_cfg]
  cases hst : s.st with
  | busy => exact absurd hst hb
  | idle => rfl
  | fault => rfl

theorem Memory.read_write {w : Nat} (m : Memory w) (i k : Nat) (v : BitVec w) :
    (m.write i v).read k = if k = i then v else m.read k := by
  split
  · subst k; exact Memory.read_write_same ..
  · exact Memory.read_write_other _ ‹_› _

/-- Settles O59: the four things a write can do. -/
theorem hostWritesOnlyItsTarget : Obligations.HostWritesOnlyItsTarget := by
  unfold Obligations.HostWritesOnlyItsTarget
  rintro s a d rest t hb hq rfl ha
  refine ⟨_, step_hostWrite hb hq ha, ?_⟩
  rw [popHost_eq hq]
  rcases hostWrite_cases { s with hostq := rest } (resolve s.cfg a) d with
    ⟨ht, e⟩ | ⟨ht, e⟩ | ⟨j, ht, e⟩ | ⟨h10, h14, hsrc, e⟩ <;> rw [e]
  · exact ⟨fun _ => rfl, by simp [ht], by simp [ht], by simp [ht]⟩
  · exact ⟨by simp [ht], fun _ => rfl, by simp [ht], by simp [ht]⟩
  · refine ⟨by simp [ht], by simp [ht], fun i hi => ⟨rfl, fun k => ?_⟩, fun _ _ h => absurd ht (h j)⟩
    obtain rfl : j = i := by simpa [ht] using hi
    exact Memory.read_write ..
  · exact ⟨fun h => absurd h h10, fun h => absurd h h14, fun i h => absurd h (hsrc i), fun _ _ _ => rfl⟩

end Sys2Proof.Machine

/-! PROOFS, the memory family, part 1: the data words and their fields (O10). -/

namespace Sys2Proof

open Machine

/-! ## Byte pairs and their word (R64, R65) -/

@[simp] theorem littleEndian16_halves (w : BitVec 16) :
    littleEndian16 (w.extractLsb' 0 8) (w.extractLsb' 8 8) = w :=
  BitVec.extractLsb'_append_extractLsb'

@[simp] theorem littleEndian16_low (lo hi : Byte) : (littleEndian16 lo hi).extractLsb' 0 8 = lo :=
  BitVec.extractLsb'_append_eq_right

@[simp] theorem littleEndian16_high (lo hi : Byte) : (littleEndian16 lo hi).extractLsb' 8 8 = hi :=
  BitVec.extractLsb'_append_eq_left

/-! ## The words and their fields (R104, R105) -/

theorem ofBool_getLsbD {n : Nat} (w : BitVec n) (i : Nat) : BitVec.ofBool (w.getLsbD i) = w.extractLsb' i 1 := by
  ext j hj
  obtain rfl : j = 0 := by omega
  simp

/-- The fields of a colour word put together again are the word (R104). -/
theorem colourWord_fields (w : BitVec 16) :
    colourWord (w.getLsbD 15) (w.extractLsb' 10 5) (w.extractLsb' 5 5) (w.extractLsb' 0 5) = w := by
  rw [colourWord, ofBool_getLsbD,
    BitVec.extractLsb'_append_extractLsb'_eq_extractLsb' (start₁ := 10) (len₁ := 5) rfl,
    BitVec.extractLsb'_append_extractLsb'_eq_extractLsb' (start₁ := 5) (len₁ := 5) rfl]
  exact BitVec.extractLsb'_append_extractLsb'

theorem decodeColour_colourWord (x : Bool) (b g r : BitVec 5) :
    decodeColour (colourWord x b g r) = .colorword x b g r := by
  have hb : (colourWord x b g r).extractLsb' 10 5 = b := by
    rw [colourWord, BitVec.extractLsb'_append_eq_of_le (by decide), BitVec.extractLsb'_append_eq_of_le (by decide)]
    exact BitVec.extractLsb'_append_eq_right
  have hg : (colourWord x b g r).extractLsb' 5 5 = g := by
    rw [colourWord, BitVec.extractLsb'_append_eq_of_le (by decide)]
    exact BitVec.extractLsb'_append_eq_right
  have hr : (colourWord x b g r).extractLsb' 0 5 = r := BitVec.extractLsb'_append_eq_right
  have hx : (colourWord x b g r).getLsbD 15 = x := by simp only [colourWord, BitVec.getLsbD_append]; simp
  rw [decodeColour, hx, hb, hg, hr]

theorem decodeEntry_entryWord (v h p : Bool) (sp : BitVec 3) (tile : BitVec 10) :
    decodeEntry (entryWord v h p sp tile) = .ntword v h p sp tile := by
  have ht : (entryWord v h p sp tile).extractLsb' 0 10 = tile := BitVec.extractLsb'_append_eq_right
  have hsp : (entryWord v h p sp tile).extractLsb' 10 3 = sp := by
    rw [entryWord, BitVec.extractLsb'_append_eq_of_le (by decide)]
    exact BitVec.extractLsb'_append_eq_right
  have hv : (entryWord v h p sp tile).getLsbD 15 = v := by simp only [entryWord, BitVec.getLsbD_append]; simp
  have hh : (entryWord v h p sp tile).getLsbD 14 = h := by simp only [entryWord, BitVec.getLsbD_append]; simp
  have hp : (entryWord v h p sp tile).getLsbD 13 = p := by simp only [entryWord, BitVec.getLsbD_append]; simp
  rw [decodeEntry, hv, hh, hp, hsp, ht]

/-! ## The codes -/

theorem encode_decodeColour (dp : Nat) (w : BitVec 16) :
    encode dp (decodeColour w) = .bytes [w.extractLsb' 0 8, w.extractLsb' 8 8] := by
  rw [decodeColour, encode, colourWord_fields]

theorem encode_decodeEntry (dp : Nat) (w : BitVec 16) :
    encode dp (decodeEntry w) = .bytes [w.extractLsb' 0 8, w.extractLsb' 8 8] := by
  rw [decodeEntry, encode, entryWord_fields]

/-- Settles O10: both decoders and both word builders undo each other, and so do the byte pair and its word. -/
theorem dataWordDecodeOfEncode : Obligations.DataWordDecodeOfEncode := by
  unfold Obligations.DataWordDecodeOfEncode
  refine ⟨fun dp x b g r => ⟨_, _, rfl, ?_⟩, fun dp v h p sp tile => ⟨_, _, rfl, ?_⟩, fun dp lo hi => ⟨?_, ?_⟩⟩
  · rw [littleEndian16_halves, decodeColour_colourWord]
  · rw [littleEndian16_halves, decodeEntry_entryWord]
  · rw [encode_decodeColour, littleEndian16_low, littleEndian16_high]
  · rw [encode_decodeEntry, littleEndian16_low, littleEndian16_high]

end Sys2Proof

/-! PROOFS, the memory family, part 2: the step inside a command (O4). -/

namespace Sys2Proof.Machine

open Sys2Proof

/-! ## What a step runs inside a command -/

/-- With no HOST action, a command in progress runs what it meets next. -/
theorem step_of_engineFetch {s s' : State} {i : Instr} (hq : s.hostq = []) (hb : s.st = .busy)
    (h : engineFetch s = .token i s') : step s = exec i s' := by
  simp only [step, fetch, hq, hb, h]

theorem fetchToken_of_decodeToken {due : StreamDue} {s : State} {i : Instr} {n : Nat}
    (h : decodeToken due s.decompPos.toNat s.streamBit s.bitPos.toNat s.rem = .ok (i, n)) :
    fetchToken due s = .token i (s.advance n) := by
  simp only [fetchToken, h]

/-- Settles O4: in each phase the ENGINE fetches the token, or the data word, that the phase names. -/
theorem stepRunsToken : Obligations.StepRunsToken := by
  unfold Obligations.StepRunsToken
  intro s hq hb
  refine ⟨fun due i n hdue hd => ?_, fun sel hp hlt => ?_, fun sel hp hlt => ?_⟩
  · have hf : engineFetch s = fetchToken due s := by
      rcases hdue with ⟨hp, rfl⟩ | ⟨hp, rfl⟩ | ⟨hp, rfl⟩ | ⟨hp, rfl⟩ | ⟨⟨_, hp⟩, rfl⟩ <;> simp only [engineFetch, hp]
    exact step_of_engineFetch hq hb (hf.trans (fetchToken_of_decodeToken hd))
  · exact step_of_engineFetch hq hb (by simp only [engineFetch, hp, if_pos hlt])
  · exact step_of_engineFetch hq hb (by simp only [engineFetch, hp, if_pos hlt])

end Sys2Proof.Machine

/-! PROOFS, the memory family, part 3: the address map (O57). -/

namespace Sys2Proof.Machine

open Sys2Proof

/-! ## The windows of the memories (R76) -/

/-- The first address of a memory's window. -/
def MemName.base (c : Config) : MemName → Word
  | .src => c.srcBase
  | .lit => c.litBase
  | .out => c.outBase
  | .tile => c.tileBase
  | .pal => c.palBase
  | .nt => c.ntBase
  | .fb => c.fbBase

/-- The addresses an element takes in its window. -/
def MemName.size : MemName → Nat
  | .pal => 4
  | .nt => 2
  | _ => 1

/-- The elements a memory's window shows: its capacity. -/
def MemName.count (c : Config) : MemName → Nat
  | .src => c.srcCap
  | .lit => litCap
  | .out => outCap
  | .tile => 64 * c.tileCap
  | .pal => c.palCap
  | .nt => c.ntCap
  | .fb => c.fbCap

theorem MemName.size_pos (m : MemName) : 0 < m.size := by cases m <;> decide

/-- A window's first address and its extent: the registers' (`none`) or a memory's. -/
def windowOf (c : Config) : Option MemName → Nat × Nat
  | none => (c.regBase.toNat, 0x100)
  | some m => ((m.base c).toNat, m.size * m.count c)

/-- The windows in the order of R76. -/
def windowNames : List (Option MemName) :=
  [none, some .src, some .lit, some .out, some .tile, some .pal, some .nt, some .fb]

theorem mem_windowNames (n : Option MemName) : n ∈ windowNames := by
  rcases n with _ | m
  · decide
  · cases m <;> decide

theorem hostWindows_eq (c : Config) : hostWindows c = windowNames.map (windowOf c) := by
  simp [hostWindows, windowNames, windowOf, MemName.base, MemName.size, MemName.count]

/-- An address lies in a window. -/
def InWindow (c : Config) (a : Word) (n : Option MemName) : Prop :=
  (windowOf c n).1 ≤ a.toNat ∧ a.toNat < (windowOf c n).1 + (windowOf c n).2

/-- Where no two windows overlap, an address lies in at most one. -/
theorem InWindow.unique {c : Config} (hc : WindowsApart c) {a : Word} {n k : Option MemName}
    (hn : InWindow c a n) (hk : InWindow c a k) : n = k := by
  by_contra hne
  have hp : windowNames.Pairwise fun n k => ¬ (InWindow c a n ∧ InWindow c a k) := by
    rw [WindowsApart, hostWindows_eq, List.pairwise_map] at hc
    refine hc.imp fun {n k} h => ?_
    unfold InWindow
    omega
  have : Std.Symm fun n k => ¬ (InWindow c a n ∧ InWindow c a k) := ⟨fun _ _ h hk => h hk.symm⟩
  exact hp.forall (mem_windowNames n) (mem_windowNames k) hne ⟨hn, hk⟩

/-! ## What an address names -/

/-- The window a register or an element lies in. -/
def Target.window : Target → Option MemName
  | .reg _ => none
  | .elem m _ => some m

/-- `a` is the address of the target (R36, R76): of a register at a word offset or of a reserved offset, or the first
address of an element. -/
def Target.IsAt (c : Config) (a : Word) : Target → Prop
  | .reg o => a.toNat = c.regBase.toNat + o ∧ o < 0x100 ∧ (o % 4 = 0 ∨ 0x44 ≤ o)
  | .elem m i => a.toNat = (m.base c).toNat + m.size * i ∧ i < m.count c

/-- An address inside an element lies in its memory's window. -/
theorem inWindow_of_element {c : Config} {a : Word} {m : MemName} {i k : Nat}
    (ha : a.toNat = (m.base c).toNat + m.size * i + k) (hi : i < m.count c) (hk : k < m.size) :
    InWindow c a (some m) := by
  have : m.size * (i + 1) ≤ m.size * m.count c := Nat.mul_le_mul_left _ hi
  rw [Nat.mul_add] at this
  unfold InWindow windowOf
  dsimp only
  omega

theorem inWindow_of_register {c : Config} {a : Word} {o : Nat} (ha : a.toNat = c.regBase.toNat + o) (ho : o < 0x100) :
    InWindow c a none := by
  unfold InWindow windowOf
  dsimp only
  omega

theorem Target.IsAt.inWindow {c : Config} {a : Word} {t : Target} (h : t.IsAt c a) :
    InWindow c a t.window := by
  cases t with
  | reg o => exact inWindow_of_register h.1 h.2.1
  | elem m i => exact inWindow_of_element (k := 0) h.1 h.2 m.size_pos

/-- What the address map answers stands at the address; and it answers nothing only where nothing stands. -/
theorem resolve_sound (c : Config) (a : Word) :
    (∃ t, resolve c a = some t ∧ t.IsAt c a) ∨ (resolve c a = none ∧ ∀ t : Target, ¬ t.IsAt c a) := by
  rcases resolve_cases c a with ⟨o, e, h⟩ | ⟨i, e, h⟩ | ⟨i, e, h⟩ | ⟨i, e, h⟩ | ⟨i, e, h⟩ | ⟨i, e, h⟩ | ⟨i, e, h⟩
    | ⟨i, e, h⟩ | ⟨e, hreg, hsrc, hlit, hout, htile, hpal, hnt, hfb⟩
  case inr.inr.inr.inr.inr.inr.inr.inr =>
    have elem : ∀ {base : Word} {size count i : Nat}, windowIndex base size count a = none → 0 < size →
        ¬ (a.toNat = base.toNat + size * i ∧ i < count) := by
      intro base size count i hn hs h
      rw [(windowIndex_eq base count hs a i).mpr h] at hn
      cases hn
    refine .inr ⟨e, fun t ht => ?_⟩
    cases t with
    | reg o => rw [(registerOffset_eq _ _ _).mpr ht] at hreg; cases hreg
    | elem m i =>
      cases m with
      | src => exact elem hsrc (by decide) ht
      | lit => exact elem hlit (by decide) ht
      | out => exact elem hout (by decide) ht
      | tile => exact elem htile (by decide) ht
      | pal => exact elem hpal (by decide) ht
      | nt => exact elem hnt (by decide) ht
      | fb => exact elem hfb (by decide) ht
  all_goals exact .inl ⟨_, e, h⟩

/-- Where no two windows overlap, an address names what stands at it, and nothing else (R76). -/
theorem resolve_eq_some_iff {c : Config} (hc : WindowsApart c) {a : Word} {t : Target} :
    resolve c a = some t ↔ t.IsAt c a := by
  rcases resolve_sound c a with ⟨u, e, hu⟩ | ⟨e, hnone⟩
  · rw [e, Option.some.injEq]
    refine ⟨fun h => h ▸ hu, fun ht => ?_⟩
    have hw := hu.inWindow.unique hc ht.inWindow
    cases u with
    | reg o =>
      cases t with
      | reg o' =>
        obtain ⟨ho, _⟩ := hu
        obtain ⟨ho', _⟩ := ht
        rw [show o = o' by omega]
      | elem m' i' => cases hw
    | elem m i =>
      cases t with
      | reg o' => cases hw
      | elem m' i' =>
        cases hw
        have := Nat.eq_of_mul_eq_mul_left m.size_pos (Nat.add_left_cancel (hu.1.symm.trans ht.1))
        rw [this]
  · rw [e]
    exact ⟨nofun, fun ht => absurd ht (hnone t)⟩

theorem resolve_eq_none_iff {c : Config} {a : Word} : resolve c a = none ↔ ∀ t : Target, ¬ t.IsAt c a := by
  rcases resolve_sound c a with ⟨t, e, ht⟩ | ⟨e, hnone⟩
  · rw [e]
    exact ⟨nofun, fun h => absurd ht (h t)⟩
  · exact ⟨fun _ => hnone, fun _ => e⟩

/-- An address in the register window names its offset, unless it is inside one of the registers at 0x00 to 0x40. -/
theorem resolve_register {c : Config} (hc : WindowsApart c) {a : Word} {o : Nat} (ha : a.toNat = c.regBase.toNat + o)
    (ho : o < 0x100) : resolve c a = if o % 4 = 0 ∨ 0x44 ≤ o then some (.reg o) else none := by
  split
  · exact (resolve_eq_some_iff hc).mpr ⟨ha, ho, ‹_›⟩
  · rename_i hin
    refine resolve_eq_none_iff.mpr fun t ht => ?_
    have hw := ht.inWindow.unique hc (inWindow_of_register ha ho)
    cases t with
    | reg o' =>
      obtain ⟨ha', _, hn⟩ := ht
      obtain rfl : o' = o := by omega
      exact hin hn
    | elem m i => cases hw

/-- An address in a memory's window names an element at its first address, and nothing inside it. -/
theorem resolve_element {c : Config} (hc : WindowsApart c) {a : Word} (m : MemName) {i k : Nat}
    (ha : a.toNat = (m.base c).toNat + m.size * i + k) (hi : i < m.count c) (hk : k < m.size) :
    resolve c a = if k = 0 then some (.elem m i) else none := by
  split
  · subst k
    exact (resolve_eq_some_iff hc).mpr ⟨ha, hi⟩
  · rename_i hin
    refine resolve_eq_none_iff.mpr fun t ht => ?_
    have hw := ht.inWindow.unique hc (inWindow_of_element ha hi hk)
    cases t with
    | reg o => cases hw
    | elem m' i' =>
      cases hw
      have hmod : (m.size * i + k) % m.size = (m.size * i') % m.size := by
        rw [show m.size * i + k = m.size * i' by have := ht.1; omega]
      rw [Nat.mul_add_mod, Nat.mul_mod_right, Nat.mod_eq_of_lt hk] at hmod
      exact hin hmod

/-- The windows of single bytes: SRC, LIT, OUT, TILE and FB. -/
theorem resolve_byte {c : Config} (hc : WindowsApart c) {a : Word} (m : MemName) (hm : m.size = 1) {i : Nat}
    (ha : a.toNat = (m.base c).toNat + i) (hi : i < m.count c) : resolve c a = some (.elem m i) :=
  (resolve_eq_some_iff hc).mpr ⟨by rw [hm, Nat.one_mul]; exact ha, hi⟩

/-- Settles O57: each window by the lemma for its kind of element, and an address in none. -/
theorem addressMap : Obligations.AddressMap := by
  unfold Obligations.AddressMap
  refine ⟨fun c a hc => ⟨fun o => resolve_register hc, fun i => resolve_byte hc .src rfl,
    fun i => resolve_byte hc .lit rfl, fun i => resolve_byte hc .out rfl, fun i => resolve_byte hc .tile rfl,
    fun i k => resolve_element hc .pal, fun i k => resolve_element hc .nt, fun i => resolve_byte hc .fb rfl,
    fun hout => resolve_eq_none_iff.mpr fun t ht => ?_⟩, ?_, rfl⟩
  · obtain ⟨hlo, hhi⟩ := ht.inWindow
    have := hout (windowOf c t.window) (hostWindows_eq c ▸ List.mem_map_of_mem (mem_windowNames _))
    omega
  · unfold WindowsApart; decide

end Sys2Proof.Machine

/-! PROOFS, the encoding family, part 1: the command words (O5, O6, O7, O11). -/

namespace Sys2Proof.Machine

open Sys2Proof Laws

/-! ## The rows of the opcode table (R92, R93) -/

/-- `CommandRow c op reserved i`: the row of the opcode byte `op` has the reserved bits `reserved`, and the other fields of
the word `c` are the operands of `i`. One constructor for each row of R93. -/
inductive CommandRow (c : Word) : Byte → Word → Instr → Prop
  | nop : CommandRow c 0x00#8 0xFFFFFF00#32 .nop
  | rdbits {n : BitVec 24} (hn : c.extractLsb' 8 24 = n) : CommandRow c 0x01#8 0x00000000#32 (.rdbits n)
  | rdbytes {n : BitVec 24} (hn : c.extractLsb' 8 24 = n) : CommandRow c 0x02#8 0x00000000#32 (.rdbytes n)
  | rdvarint : CommandRow c 0x03#8 0xFFFFFF00#32 .rdvarint
  | decomp : CommandRow c 0x10#8 0xFFFFFF00#32 .decomp
  | tiledec {sel : Sel} {bpp : BitVec 4} (hsel : selOfBit (c.getLsbD 8) = sel) (hbpp : c.extractLsb' 24 4 = bpp) :
      CommandRow c 0x20#8 0xF0FFFE00#32 (.tiledec sel bpp)
  | palload {sel : Sel} (hsel : selOfBit (c.getLsbD 8) = sel) : CommandRow c 0x30#8 0xFFFFFE00#32 (.palload sel)
  | getcolor {sp ci : BitVec 8} {bpp : BitVec 4} (hsp : c.extractLsb' 16 8 = sp) (hci : c.extractLsb' 8 8 = ci)
      (hbpp : c.extractLsb' 24 4 = bpp) : CommandRow c 0x31#8 0xF0000000#32 (.getcolor sp ci bpp)
  | subpalcnt {bpp : BitVec 4} (hbpp : c.extractLsb' 24 4 = bpp) :
      CommandRow c 0x32#8 0xF0FFFF00#32 (.subpalcnt bpp)
  | ntparse {sel : Sel} (hsel : selOfBit (c.getLsbD 8) = sel) : CommandRow c 0x40#8 0xFFFFFE00#32 (.ntparse sel)
  | compose {tw : BitVec 16} {bpp : BitVec 4} (htw : c.extractLsb' 8 16 = tw) (hbpp : c.extractLsb' 24 4 = bpp) :
      CommandRow c 0x50#8 0xF0000000#32 (.compose tw bpp)
  | clrerr : CommandRow c 0xF0#8 0xFFFFFF00#32 .clrerr
  | sreset : CommandRow c 0xF1#8 0xFFFFFF00#32 .sreset

/-- A word whose opcode byte has a row is checked against that row (R94). -/
theorem decodeCommand_of_row {c reserved : Word} {op : Byte} {i : Instr} (hrow : CommandRow c op reserved i)
    (hop : c.extractLsb' 0 8 = op) : decodeCommand c = checkedCommand c reserved i := by
  unfold decodeCommand
  rw [hop]
  cases hrow <;> subst_vars <;> rfl

/-- The thirteen opcode bytes of R93, each with the reserved bits of its format (R92). -/
def commandFormats : List (Byte × Word) :=
  [(0x00#8, 0xFFFFFF00#32), (0x01#8, 0x00000000#32), (0x02#8, 0x00000000#32), (0x03#8, 0xFFFFFF00#32),
    (0x10#8, 0xFFFFFF00#32), (0x20#8, 0xF0FFFE00#32), (0x30#8, 0xFFFFFE00#32), (0x31#8, 0xF0000000#32),
    (0x32#8, 0xF0FFFF00#32), (0x40#8, 0xFFFFFE00#32), (0x50#8, 0xF0000000#32), (0xF0#8, 0xFFFFFF00#32),
    (0xF1#8, 0xFFFFFF00#32)]

/-- Every format has a row, for every word. -/
theorem commandRow_of_mem (c : Word) {op : Byte} {reserved : Word} (h : (op, reserved) ∈ commandFormats) :
    ∃ i, CommandRow c op reserved i := by
  simp only [commandFormats, List.mem_cons, List.not_mem_nil, or_false, Prod.mk.injEq] at h
  rcases h with ⟨rfl, rfl⟩ | ⟨rfl, rfl⟩ | ⟨rfl, rfl⟩ | ⟨rfl, rfl⟩ | ⟨rfl, rfl⟩ | ⟨rfl, rfl⟩
    | ⟨rfl, rfl⟩ | ⟨rfl, rfl⟩ | ⟨rfl, rfl⟩ | ⟨rfl, rfl⟩ | ⟨rfl, rfl⟩ | ⟨rfl, rfl⟩ | ⟨rfl, rfl⟩
  · exact ⟨_, .nop⟩
  · exact ⟨_, .rdbits rfl⟩
  · exact ⟨_, .rdbytes rfl⟩
  · exact ⟨_, .rdvarint⟩
  · exact ⟨_, .decomp⟩
  · exact ⟨_, .tiledec rfl rfl⟩
  · exact ⟨_, .palload rfl⟩
  · exact ⟨_, .getcolor rfl rfl rfl⟩
  · exact ⟨_, .subpalcnt rfl⟩
  · exact ⟨_, .ntparse rfl⟩
  · exact ⟨_, .compose rfl rfl⟩
  · exact ⟨_, .clrerr⟩
  · exact ⟨_, .sreset⟩

/-- A word whose opcode byte has no row is `BAD_OPCODE`, whatever its other bits (R94 step 1). -/
theorem decodeCommand_badOpcode {c : Word} (h : c.extractLsb' 0 8 ∉ commandFormats.map Prod.fst) :
    decodeCommand c = .error .badOpcode := by
  have hn : (c.extractLsb' 0 8).toNat ∉ (commandFormats.map Prod.fst).map BitVec.toNat :=
    fun hmem => h ((List.mem_map_of_injective fun _ _ => BitVec.eq_of_toNat_eq).mp hmem)
  simp only [commandFormats, List.map_cons, List.map_nil, BitVec.reduceToNat, List.mem_cons, List.not_mem_nil, or_false,
    not_or] at hn
  unfold decodeCommand
  split
  case h_14 => rfl
  all_goals (exfalso; omega)

/-- A word that decodes passed the checks of its opcode byte's row. -/
theorem row_of_decodeCommand {c : Word} {i : Instr} (h : decodeCommand c = .ok i) :
    ∃ reserved, CommandRow c (c.extractLsb' 0 8) reserved i ∧ c &&& reserved = 0#32 ∧ i.wellFormed = true := by
  by_cases hop : c.extractLsb' 0 8 ∈ commandFormats.map Prod.fst
  · obtain ⟨⟨op, reserved⟩, hmem, rfl⟩ := List.mem_map.mp hop
    obtain ⟨j, hrow⟩ := commandRow_of_mem c hmem
    rw [decodeCommand_of_row hrow rfl] at h
    obtain ⟨rfl, hm, hw⟩ := checkedCommand_ok h
    exact ⟨reserved, hrow, hm, hw⟩
  · rw [decodeCommand_badOpcode hop] at h
    cases h

/-! ## The fields of a command word -/

theorem selOfBit_bit (b : Bool) : (selOfBit b).bit = BitVec.ofBool b := by cases b <;> rfl

theorem selOfBit_of_bit {c : Word} {sel : Sel} (h : c.extractLsb' 8 1 = sel.bit) : selOfBit (c.getLsbD 8) = sel := by
  rw [← ofBool_getLsbD] at h
  cases sel <;> cases hb : c.getLsbD 8 <;> rw [hb] at h
  · rfl
  · exact absurd h (by decide)
  · exact absurd h (by decide)
  · rfl

/-- A field that lies within the reserved bits of a word that has none set is 0. -/
theorem reservedField_eq_zero {c reserved : Word} (h : c &&& reserved = 0#32) (start n : Nat)
    (hr : reserved.extractLsb' start n = BitVec.allOnes n) : c.extractLsb' start n = 0#n := by
  have := congrArg (BitVec.extractLsb' start n) h
  rwa [BitVec.extractLsb'_and, hr, BitVec.and_allOnes, BitVec.extractLsb'_zero] at this

/-- Two neighbouring fields of a word are one. -/
theorem fields_join {w : Nat} (c : BitVec w) (start n k : Nat) :
    c.extractLsb' (start + n) k ++ c.extractLsb' start n = c.extractLsb' start (k + n) :=
  BitVec.extractLsb'_append_extractLsb'_eq_extractLsb' rfl

/-- The code of a command is the word whose row names it, when the word has no reserved bit set (R92). -/
theorem encode_of_row {c reserved : Word} {op : Byte} {i : Instr} (hrow : CommandRow c op reserved i)
    (hop : c.extractLsb' 0 8 = op) (hm : c &&& reserved = 0#32) (dp : Nat) : encode dp i = .word c := by
  have hzero := reservedField_eq_zero hm
  have hself : c.extractLsb' 0 32 = c := BitVec.extractLsb'_eq_self
  have hbare (v : Word) (hv : op.toNat = v.toNat) (hm : c &&& 0xFFFFFF00#32 = 0#32) : Code.word v = .word c :=
    congrArg Code.word (word_of_opcode hm (hop ▸ hv)).symm
  cases hrow with
  | nop => exact hbare 0x00000000#32 rfl hm
  | rdvarint => exact hbare 0x00000003#32 rfl hm
  | decomp => exact hbare 0x00000010#32 rfl hm
  | clrerr => exact hbare 0x000000F0#32 rfl hm
  | sreset => exact hbare 0x000000F1#32 rfl hm
  | rdbits hn => rw [encode, ← hn, ← hop, fields_join c 0 8 24, hself]
  | rdbytes hn => rw [encode, ← hn, ← hop, fields_join c 0 8 24, hself]
  | tiledec hsel hbpp =>
    rw [encode, ← hsel, selOfBit_bit, ofBool_getLsbD, ← hbpp, ← hop, ← hzero 28 4 rfl, ← hzero 9 15 rfl,
      fields_join c 24 4 4, fields_join c 9 15 8, fields_join c 8 1 23, fields_join c 0 8 24, hself]
  | palload hsel =>
    rw [encode, ← hsel, selOfBit_bit, ofBool_getLsbD, ← hop, ← hzero 9 23 rfl, fields_join c 8 1 23,
      fields_join c 0 8 24, hself]
  | ntparse hsel =>
    rw [encode, ← hsel, selOfBit_bit, ofBool_getLsbD, ← hop, ← hzero 9 23 rfl, fields_join c 8 1 23,
      fields_join c 0 8 24, hself]
  | getcolor hsp hci hbpp =>
    rw [encode, ← hsp, ← hci, ← hbpp, ← hop, ← hzero 28 4 rfl, fields_join c 24 4 4, fields_join c 16 8 8,
      fields_join c 8 8 16, fields_join c 0 8 24, hself]
  | subpalcnt hbpp =>
    rw [encode, ← hbpp, ← hop, ← hzero 28 4 rfl, ← hzero 8 16 rfl, fields_join c 24 4 4, fields_join c 8 16 8,
      fields_join c 0 8 24, hself]
  | compose htw hbpp =>
    rw [encode, ← htw, ← hbpp, ← hop, ← hzero 28 4 rfl, fields_join c 24 4 4, fields_join c 8 16 8,
      fields_join c 0 8 24, hself]

/-- Two joined fields have no reserved bit set when neither has. -/
theorem append_and_append_eq_zero {w v : Nat} {a m : BitVec w} {b k : BitVec v} (ha : a &&& m = 0#w)
    (hb : b &&& k = 0#v) : (a ++ b) &&& (m ++ k) = 0#(w + v) := by
  rw [BitVec.and_append, ha, hb, BitVec.zero_append_zero]

/-- A field above the lowest one of a word is a field of what stands above that one. -/
theorem field_append {w v start n : Nat} {a : BitVec w} {b : BitVec v} :
    (a ++ b).extractLsb' (start + v) n = a.extractLsb' start n := by
  rw [BitVec.extractLsb'_append_eq_of_le (by omega), Nat.add_sub_cancel]

/-- The field that stands right above the lowest one. -/
theorem field_above {u w v : Nat} {a : BitVec u} {b : BitVec w} {c : BitVec v} :
    (a ++ b ++ c).extractLsb' v w = b := by
  rw [BitVec.extractLsb'_append_eq_of_le (Nat.le_refl v), Nat.sub_self, BitVec.extractLsb'_append_eq_right]

/-- The word of a command whose only operand is `sel`: the operand in its field, the reserved bits 0. -/
theorem selWord_fields (sel : Sel) (op : Byte) :
    selOfBit ((0#23 ++ sel.bit ++ op).getLsbD 8) = sel ∧ (0#23 ++ sel.bit ++ op) &&& 0xFFFFFE00#32 = 0#32 := by
  have hsel : (0#23 ++ sel.bit ++ op).extractLsb' 8 1 = sel.bit := field_above
  have hm : (0#23 ++ sel.bit ++ op) &&& (0x7FFFFF#23 ++ 0#1 ++ 0#8) = 0#32 :=
    append_and_append_eq_zero (append_and_append_eq_zero BitVec.zero_and BitVec.and_zero) BitVec.and_zero
  exact ⟨selOfBit_of_bit hsel, hm⟩

/-- The row of a command's own code (R92, R93): its opcode byte, no reserved bit set, and its operands in their fields. -/
theorem row_of_encode {dp : Nat} {i : Instr} {c : Word} (h : encode dp i = .word c) :
    ∃ op reserved, CommandRow c op reserved i ∧ c.extractLsb' 0 8 = op ∧ c &&& reserved = 0#32 := by
  cases i with
  | nop => cases h; exact ⟨_, _, .nop, rfl, rfl⟩
  | rdvarint => cases h; exact ⟨_, _, .rdvarint, rfl, rfl⟩
  | decomp => cases h; exact ⟨_, _, .decomp, rfl, rfl⟩
  | clrerr => cases h; exact ⟨_, _, .clrerr, rfl, rfl⟩
  | sreset => cases h; exact ⟨_, _, .sreset, rfl, rfl⟩
  | rdbits n => cases h; exact ⟨_, _, .rdbits BitVec.extractLsb'_append_eq_left, low_byte .., BitVec.and_zero⟩
  | rdbytes n => cases h; exact ⟨_, _, .rdbytes BitVec.extractLsb'_append_eq_left, low_byte .., BitVec.and_zero⟩
  | palload sel =>
    cases h
    obtain ⟨hsel, hm⟩ := selWord_fields sel 0x30#8
    exact ⟨_, _, .palload hsel, low_byte .., hm⟩
  | ntparse sel =>
    cases h
    obtain ⟨hsel, hm⟩ := selWord_fields sel 0x40#8
    exact ⟨_, _, .ntparse hsel, low_byte .., hm⟩
  | tiledec sel bpp =>
    cases h
    have hsel : (0#4 ++ bpp ++ 0#15 ++ sel.bit ++ 0x20#8).extractLsb' 8 1 = sel.bit := field_above
    have hbpp : (0#4 ++ bpp ++ 0#15 ++ sel.bit ++ 0x20#8).extractLsb' 24 4 = bpp :=
      (field_append (start := 16)).trans <| (field_append (start := 15)).trans <| field_above
    have hm : (0#4 ++ bpp ++ 0#15 ++ sel.bit ++ 0x20#8) &&& (0xF#4 ++ 0#4 ++ 0x7FFF#15 ++ 0#1 ++ 0#8) = 0#32 :=
      append_and_append_eq_zero (append_and_append_eq_zero (append_and_append_eq_zero
        (append_and_append_eq_zero BitVec.zero_and BitVec.and_zero) BitVec.zero_and) BitVec.and_zero) BitVec.and_zero
    exact ⟨_, _, .tiledec (selOfBit_of_bit hsel) hbpp, low_byte .., hm⟩
  | getcolor sp ci bpp =>
    cases h
    have hci : (0#4 ++ bpp ++ sp ++ ci ++ 0x31#8).extractLsb' 8 8 = ci := field_above
    have hsp : (0#4 ++ bpp ++ sp ++ ci ++ 0x31#8).extractLsb' 16 8 = sp :=
      (field_append (start := 8)).trans field_above
    have hbpp : (0#4 ++ bpp ++ sp ++ ci ++ 0x31#8).extractLsb' 24 4 = bpp :=
      (field_append (start := 16)).trans <| (field_append (start := 8)).trans field_above
    have hm : (0#4 ++ bpp ++ sp ++ ci ++ 0x31#8) &&& (0xF#4 ++ 0#4 ++ 0#8 ++ 0#8 ++ 0#8) = 0#32 :=
      append_and_append_eq_zero (append_and_append_eq_zero (append_and_append_eq_zero
        (append_and_append_eq_zero BitVec.zero_and BitVec.and_zero) BitVec.and_zero) BitVec.and_zero) BitVec.and_zero
    exact ⟨_, _, .getcolor hsp hci hbpp, low_byte .., hm⟩
  | subpalcnt bpp =>
    cases h
    have hbpp : (0#4 ++ bpp ++ 0#16 ++ 0x32#8).extractLsb' 24 4 = bpp :=
      (field_append (start := 16)).trans field_above
    have hm : (0#4 ++ bpp ++ 0#16 ++ 0x32#8) &&& (0xF#4 ++ 0#4 ++ 0xFFFF#16 ++ 0#8) = 0#32 :=
      append_and_append_eq_zero (append_and_append_eq_zero
        (append_and_append_eq_zero BitVec.zero_and BitVec.and_zero) BitVec.zero_and) BitVec.and_zero
    exact ⟨_, _, .subpalcnt hbpp, low_byte .., hm⟩
  | compose tw bpp =>
    cases h
    have htw : (0#4 ++ bpp ++ tw ++ 0x50#8).extractLsb' 8 16 = tw := field_above
    have hbpp : (0#4 ++ bpp ++ tw ++ 0x50#8).extractLsb' 24 4 = bpp :=
      (field_append (start := 16)).trans field_above
    have hm : (0#4 ++ bpp ++ tw ++ 0x50#8) &&& (0xF#4 ++ 0#4 ++ 0#16 ++ 0#8) = 0#32 :=
      append_and_append_eq_zero (append_and_append_eq_zero
        (append_and_append_eq_zero BitVec.zero_and BitVec.and_zero) BitVec.and_zero) BitVec.and_zero
    exact ⟨_, _, .compose htw hbpp, low_byte .., hm⟩
  | _ => cases h

/-! ## The statements -/

/-- Settles O6: a command's code has the command's row, and passes that row's checks. -/
theorem commandDecodeOfEncode : Obligations.CommandDecodeOfEncode := by
  unfold Obligations.CommandDecodeOfEncode
  intro dp i c hw h
  obtain ⟨op, reserved, hrow, hop, hm⟩ := row_of_encode h
  rw [decodeCommand_of_row hrow hop, checkedCommand_of hm hw]

/-- Settles O7: the fields of the word's row, the reserved ones 0, put together again are the word. -/
theorem commandEncodeOfDecode : Obligations.CommandEncodeOfDecode := by
  unfold Obligations.CommandEncodeOfDecode
  intro dp c i h
  obtain ⟨reserved, hrow, hm, hw⟩ := row_of_decodeCommand h
  exact ⟨hw, encode_of_row hrow rfl hm dp⟩

/-- Settles O11, by evaluation of the seven fixed words. -/
theorem sampleWordsDecode : Obligations.SampleWordsDecode := by
  unfold Obligations.SampleWordsDecode
  decide

/-! ## Rejected words (R94, R233) -/

theorem checkedCommand_reservedBits {c reserved : Word} (h : c &&& reserved ≠ 0#32) (i : Instr) :
    checkedCommand c reserved i = .error .reservedBits := if_neg h

theorem checkedCommand_badParam {c reserved : Word} {i : Instr} (hm : c &&& reserved = 0#32)
    (hw : i.wellFormed = false) : checkedCommand c reserved i = .error .badParam := by
  simp [checkedCommand, hm, hw]

theorem bppLegal_eq_false {b : BitVec 4} (h : b ∉ [2#4, 4#4, 8#4]) : bppLegal b = false := by
  simpa [bppLegal, and_assoc] using h

/-- R94 step 3: the operands that no command takes. -/
theorem row_illFormed {c reserved : Word} {op : Byte} {i : Instr} (hrow : CommandRow c op reserved i)
    (h : op = 0x01#8 ∧ 32 < (c.extractLsb' 8 24).toNat
      ∨ op ∈ [0x20#8, 0x31#8, 0x32#8, 0x50#8] ∧ c.extractLsb' 24 4 ∉ [2#4, 4#4, 8#4]
      ∨ op = 0x50#8 ∧ c.extractLsb' 8 16 = 0#16) : i.wellFormed = false := by
  rcases h with ⟨rfl, hn⟩ | ⟨hop, hbpp⟩ | ⟨rfl, htw⟩
  · cases hrow with
    | rdbits hfield => subst hfield; exact decide_eq_false (Nat.not_le_of_lt hn)
  · have hill := bppLegal_eq_false hbpp
    cases hrow with
    | tiledec _ hfield => subst hfield; exact hill
    | getcolor _ _ hfield => subst hfield; exact hill
    | subpalcnt hfield => subst hfield; exact hill
    | compose _ hfield => subst hfield; simp [Instr.wellFormed, hill]
    | _ => exact absurd hop (by decide)
  · cases hrow with
    | compose hfield _ => subst hfield; simp [Instr.wellFormed, htw]

/-- The `ERR` word of an `IllegalCommand` as R26 lays it out: the opcode byte, the info, the code 5. -/
theorem errWord_illegalCommand (info : Info) (op : BitVec 8) :
    errWord .illegalCommand info op = 0#8 ++ op ++ info.code ++ 0x05#8 := by
  have hassoc : 0#8 ++ op ++ info.code ++ 0#4 ++ 5#4 = 0#8 ++ op ++ info.code ++ (0#4 ++ 5#4) := BitVec.append_assoc
  exact hassoc

/-- In IDLE a rejected word ends in `IllegalCommand` and leaves the rest as it was (R94, R250). -/
theorem rejectCommand_idle {s : State} (h : s.st = .idle) (e : DecodeError) (c : Word) :
    rejectCommand e c s = s.refusedWith (0#8 ++ c.extractLsb' 0 8 ++ (DecodeError.info e).code ++ 0x05#8) := by
  rw [rejectCommand, issue_idle h, ← errWord_illegalCommand]
  rfl

/-- A rejected word that the HOST writes to `CMD`. -/
theorem step_rejected {s : State} {a c : Word} {rest : List HostOp} {e : DecodeError}
    (hq : s.hostq = .write a c :: rest) (ha : resolve s.cfg a = some (.reg 0)) (hd : decodeCommand c = .error e) :
    step s = .next (rejectCommand e c { s with hostq := rest }) := by
  rw [step_command hq ha, hd, popHost_eq hq]

/-- Settles O5: R94's three checks in their order, and what a word that fails one does. -/
theorem rejectedWordFaults : Obligations.RejectedWordFaults := by
  unfold Obligations.RejectedWordFaults
  refine ⟨fun c hop => decodeCommand_badOpcode hop, fun c op reserved hmem hop => ?_,
    fun s a c rest e info hinfo hq ha hd => ?_⟩
  · obtain ⟨i, hrow⟩ := commandRow_of_mem c hmem
    rw [decodeCommand_of_row hrow hop]
    exact ⟨fun hm => checkedCommand_reservedBits hm i, fun hm h => checkedCommand_badParam hm (row_illFormed hrow h)⟩
  · have hcode : info = (DecodeError.info e).code := by
      simp only [List.mem_cons, List.not_mem_nil, or_false, Prod.mk.injEq] at hinfo
      rcases hinfo with ⟨rfl, rfl⟩ | ⟨rfl, rfl⟩ | ⟨rfl, rfl⟩ <;> rfl
    rw [hcode, step_rejected hq ha hd]
    exact ⟨fun hidle => congrArg _ (rejectCommand_idle (s := { s with hostq := rest }) hidle e c),
      fun hfault => congrArg _ (issue_fault (s := { s with hostq := rest }) hfault)⟩

end Sys2Proof.Machine

/-! PROOFS, the encoding family, part 2: the codes of the stream tokens (O8, O9). -/

namespace Sys2Proof.Machine

open Sys2Proof

/-! ## Where a code stands -/

@[simp] theorem standsAt_nil (bit : Nat → Bool) (pos : Nat) : StandsAt bit pos [] := nofun

@[simp] theorem standsAt_cons {bit : Nat → Bool} {pos : Nat} {b : Bool} {l : List Bool} :
    StandsAt bit pos (b :: l) ↔ bit pos = b ∧ StandsAt bit (pos + 1) l := by
  refine ⟨fun h => ⟨h 0 (Nat.succ_pos _), fun j hj => ?_⟩, fun ⟨hb, hl⟩ j hj => ?_⟩
  · rw [Nat.add_right_comm]
    exact h (j + 1) (Nat.succ_lt_succ hj)
  · cases j with
    | zero => exact hb
    | succ j =>
      rw [← Nat.add_assoc, Nat.add_right_comm]
      exact hl j (Nat.lt_of_succ_lt_succ hj)

theorem standsAt_append {bit : Nat → Bool} {pos : Nat} {l r : List Bool} :
    StandsAt bit pos (l ++ r) ↔ StandsAt bit pos l ∧ StandsAt bit (pos + l.length) r := by
  induction l generalizing pos with
  | nil => simp
  | cons b l ih => simp [ih, and_assoc, Nat.add_right_comm, Nat.add_assoc]

/-! ## Fixed-width fields (R62) -/

@[simp] theorem encodeField_length (v w : Nat) : (encodeField v w).length = w := by
  induction w with
  | zero => rfl
  | succ w ih => rw [encodeField, List.length_cons, ih]

/-- The first bit of a field weighs most. -/
theorem bitsValue_succ_first (bit : Nat → Bool) (pos n : Nat) :
    bitsValue bit pos (n + 1) = 2 ^ n * (bit pos).toNat + bitsValue bit (pos + 1) n := by
  induction n with
  | zero => simp [bitsValue]
  | succ n ih =>
    rw [bitsValue, ih, bitsValue, Nat.pow_succ, Nat.add_right_comm pos 1 n, Nat.add_assoc pos n 1]
    ring

/-- A field's code has the field's value. -/
theorem bitsValue_of_standsAt {bit : Nat → Bool} {v w pos : Nat} (h : StandsAt bit pos (encodeField v w)) :
    bitsValue bit pos w = v % 2 ^ w := by
  induction w generalizing pos with
  | zero => simp [bitsValue, Nat.mod_one]
  | succ w ih =>
    obtain ⟨hb, hrest⟩ := standsAt_cons.mp h
    rw [bitsValue_succ_first, hb, ih hrest, Nat.toNat_testBit, Nat.mod_pow_succ, Nat.add_comm]

/-! ## Varints (R96, R97, R123) -/

/-- Group by group: the digits above, then the digit of the group. -/
theorem div_two_pow_digit (v k : Nat) : 2 * (v / 2 ^ (k + 1)) + (v.testBit k).toNat = v / 2 ^ k := by
  rw [Nat.toNat_testBit, Nat.pow_succ, ← Nat.div_div_eq_div_mul]
  omega

/-- A number has one last digit and one number of digits above it. -/
theorem digit_unique {m n : Nat} {b d : Bool} (h : 2 * m + b.toNat = 2 * n + d.toNat) : m = n ∧ b = d := by
  cases b <;> cases d <;> simp only [Bool.toNat_true, Bool.toNat_false] at h
  · exact ⟨by omega, rfl⟩
  · omega
  · omega
  · exact ⟨by omega, rfl⟩

@[simp] theorem varintGroups_length (v k : Nat) : (varintGroups v k).length = 2 * k + 1 := by
  induction k with
  | zero => rfl
  | succ k ih => simp only [varintGroups, List.length_cons, ih]; omega

/-- The number of digits of `v ≥ 1` after its leading 1. -/
theorem bitlen_eq_succ_iff {v k : Nat} : bitlen v = k + 1 ↔ v / 2 ^ k = 1 := by
  have hpow : 0 < 2 ^ k := Nat.two_pow_pos k
  by_cases h : v = 0
  · simp [bitlen, h]
  · rw [bitlen, if_neg h, Nat.add_right_cancel_iff, Nat.log2_eq_iff h, Nat.div_eq_iff hpow, Nat.pow_succ]
    omega

theorem div_two_pow_bitlen {v : Nat} (h : 1 ≤ v) : v / 2 ^ (bitlen v - 1) = 1 :=
  bitlen_eq_succ_iff.mp (Nat.sub_add_cancel (bitlen_pos (Nat.ne_of_gt h))).symm

/-- R97: the code of `v` has `2·bitlen(v) − 1` bits. -/
theorem encodeVarint_length {v : Nat} (h : 1 ≤ v) : (encodeVarint v).length = 2 * bitlen v - 1 := by
  have := bitlen_pos (Nat.ne_of_gt h)
  rw [encodeVarint, varintGroups_length]
  omega

/-- Reading the groups of `v`'s last `k` digits, the digits above them already accumulated. -/
theorem varintFrom_of_groups {bit : Nat → Bool} {v k rem pos : Nat} (h : StandsAt bit pos (varintGroups v k))
    (hrem : 2 * k + 1 ≤ rem) : varintFrom bit rem pos (v / 2 ^ k) = (v, 2 * k + 1) := by
  induction k generalizing rem pos with
  | zero =>
    obtain ⟨hstop, -⟩ := standsAt_cons.mp h
    obtain _ | _ | rem := rem
    · omega
    · simp [varintFrom]
    · simp [varintFrom, hstop]
  | succ k ih =>
    obtain ⟨hgo, hdigit, hrest⟩ : bit pos = false ∧ bit (pos + 1) = v.testBit k
        ∧ StandsAt bit (pos + 2) (varintGroups v k) := by simpa [varintGroups] using h
    obtain ⟨rem, rfl⟩ : ∃ r, rem = r + 2 := ⟨rem - 2, by omega⟩
    rw [varintFrom, hgo, hdigit, div_two_pow_digit, ih hrest (by omega)]
    rfl

/-- Reading the code of `v` gives `v` and takes exactly the code (R97, R123). -/
theorem varintFrom_of_code {bit : Nat → Bool} {v rem pos : Nat} (hv : 1 ≤ v)
    (h : StandsAt bit pos (encodeVarint v)) (hrem : (encodeVarint v).length ≤ rem) :
    varintFrom bit rem pos varintInit = (v, (encodeVarint v).length) := by
  rw [encodeVarint, varintGroups_length] at hrem ⊢
  have hread := varintFrom_of_groups h hrem
  rwa [div_two_pow_bitlen hv] at hread

/-- A read that stops at its first bit read no group: the value is the accumulator. -/
theorem groups_of_stop {bit : Nat → Bool} {pos acc v n : Nat} (h : (acc, 1) = (v, n))
    (hstop : bit (pos + n - 1) = true) :
    ∃ k, n = 2 * k + 1 ∧ acc = v / 2 ^ k ∧ StandsAt bit pos (varintGroups v k) := by
  cases h
  exact ⟨0, rfl, (Nat.div_one _).symm, standsAt_cons.mpr ⟨hstop, nofun⟩⟩

/-- A varint read that consumed an odd number of bits, the last one a stop bit, read the groups of the last digits of its
value; the digits above them were in the accumulator. -/
theorem groups_of_varintFrom {bit : Nat → Bool} {rem pos acc v n : Nat} (h : varintFrom bit rem pos acc = (v, n))
    (hodd : n % 2 = 1) (hstop : bit (pos + n - 1) = true) :
    ∃ k, n = 2 * k + 1 ∧ acc = v / 2 ^ k ∧ StandsAt bit pos (varintGroups v k) := by
  induction rem using Nat.twoStepInduction generalizing pos acc n with
  | zero => cases h; cases hodd
  | one => exact groups_of_stop h hstop
  | more rem ih _ =>
    rw [varintFrom] at h
    split at h
    · exact groups_of_stop h hstop
    · rename_i hgo
      obtain ⟨n, rfl⟩ : ∃ m, n = m + 2 := ⟨n - 2, by cases h; rfl⟩
      have hrec : varintFrom bit rem (pos + 2) (2 * acc + (bit (pos + 1)).toNat) = (v, n) := by
        cases h; rfl
      obtain ⟨k, rfl, hacc, hgroups⟩ := ih hrec (by omega) (by convert hstop using 2; omega)
      obtain ⟨habove, hdigit⟩ := digit_unique (hacc.trans (div_two_pow_digit v k).symm)
      refine ⟨k + 1, by omega, habove, ?_⟩
      simpa [varintGroups, hdigit, hgo] using hgroups

/-- Settles O9: the value of the groups read has one digit more than there are groups. -/
theorem varintCodeIsUnique : Obligations.VarintCodeIsUnique := by
  unfold Obligations.VarintCodeIsUnique
  intro bit rem pos v n h hodd hstop
  obtain ⟨k, rfl, hdigits, hgroups⟩ := groups_of_varintFrom h hodd hstop
  have hlen : bitlen v = k + 1 := bitlen_eq_succ_iff.mpr hdigits.symm
  have hcode : encodeVarint v = varintGroups v k := by rw [encodeVarint, hlen, Nat.add_sub_cancel]
  refine ⟨?_, by omega, ?_, ?_⟩
  · by_contra h0
    obtain rfl : v = 0 := by omega
    cases hlen
  · rw [hcode, varintGroups_length]
  · rwa [hcode]

/-! ## Tokens (R95, R99, R127 (c), R148) -/

/-- Settles O8: each field of the token reads its own part of the code. -/
theorem streamTokenDecodeOfEncode : Obligations.StreamTokenDecodeOfEncode := by
  unfold Obligations.StreamTokenDecodeOfEncode
  intro dp i l due bit pos rem hw hdue hfits hcode hstands hrem
  cases i with
  | blockhdr u v =>
    cases hdue; cases hcode
    obtain ⟨hu, hv⟩ := standsAt_append.mp hstands
    simp only [List.length_append, encodeField_length] at hrem hv ⊢
    rw [decodeToken, if_neg (by omega), bitsValue_of_standsAt hu, bitsValue_of_standsAt hv,
      Nat.mod_eq_of_lt u.isLt, Nat.mod_eq_of_lt v.isLt, BitVec.ofNat_toNat, BitVec.ofNat_toNat, BitVec.setWidth_eq,
      BitVec.setWidth_eq]
  | lit n =>
    cases hdue; cases hcode
    rw [decodeToken, varintFrom_of_code (of_decide_eq_true hw) hstands hrem]
  | ref source m =>
    cases hdue; cases hcode
    obtain ⟨hsource, hm⟩ := standsAt_append.mp hstands
    have hm1 : 1 ≤ m := of_decide_eq_true (Bool.and_eq_true_iff.mp hw).2
    simp only [List.length_append, encodeField_length] at hrem hm ⊢
    have hread := varintFrom_of_code (rem := rem - bitlen dp) hm1 hm (by omega)
    rw [decodeToken]
    simp only [if_neg (show ¬ rem < bitlen dp by omega), hread, bitsValue_of_standsAt hsource,
      Nat.mod_eq_of_lt (show source < 2 ^ bitlen dp from hfits)]
  | cmdbit c =>
    cases hdue; cases hcode
    obtain ⟨hbit, -⟩ := standsAt_cons.mp hstands
    rw [decodeToken, if_neg (show ¬ rem < 1 from Nat.not_lt_of_le hrem), hbit]
    rfl
  | varint v =>
    cases hdue; cases hcode
    rw [decodeToken, varintFrom_of_code (of_decide_eq_true hw) hstands hrem]
  | _ => cases hdue

end Sys2Proof.Machine

/-! PROOFS, the encoding family, part 3: `RDVARINT` on a whole code and on a cut one (O21, O22). -/

namespace Sys2Proof.Machine

open Sys2Proof

/-- The end of `RDVARINT` on a value that `RESULT` and the accumulator hold (R126). -/
theorem varintOutcome_ok {s : State} {v : Nat} (hv : v < 2 ^ 32) (hw : ∀ w, s.cfg.varintW = some w → v < 2 ^ w) :
    varintOutcome v s = .next { s.endOk with result := BitVec.ofNat 32 v } := by
  rcases varintOutcome_cases v s with ⟨hwide, -⟩ | ⟨-, e⟩
  · obtain ⟨-, w, hsome, hge⟩ := (s.cfg.varintTooWide_iff v).mp hwide
    exact absurd (hw w hsome) (Nat.not_lt_of_le hge)
  · rw [e]
    rcases varintStep_cases v s with ⟨-, e⟩ | ⟨hge, -⟩
    · rw [e]
    · exact absurd hv (Nat.not_lt_of_le hge)

/-- `RDVARINT` let through by the gate and the capacity check reads its varint (R126). -/
theorem exec_rdvarint {s : State} (hidle : s.st = .idle) (hcap : s.srcLen.toNat ≤ s.cfg.srcCap) :
    exec .rdvarint s = varintOutcome s.readVarint.1
      { s.accept.advance s.readVarint.2 with phase := .varint s.bitPos } := by
  have hgate : exec .rdvarint s = rdvarint s.accept := by
    show issueOutcome rdvarint s = _
    rw [issueOutcome, hidle]
  rw [hgate, rdvarint, if_pos (show s.accept.srcInCapacity = true from decide_eq_true hcap)]
  rfl

/-- `RDVARINT` in IDLE on a varint that `RESULT` and the accumulator hold: the whole next state. -/
theorem exec_rdvarint_ok {s : State} {v n : Nat} (hidle : s.st = .idle) (hcap : s.srcLen.toNat ≤ s.cfg.srcCap)
    (hread : s.readVarint = (v, n)) (hv : v < 2 ^ 32) (hw : ∀ w, s.cfg.varintW = some w → v < 2 ^ w) :
    exec .rdvarint s = .next { s with
      done := true, phase := .none, result := BitVec.ofNat 32 v, bitPos := s.bitPos + BitVec.ofNat 32 n } := by
  rw [exec_rdvarint hidle hcap, hread, hidle]
  exact varintOutcome_ok hv hw

/-- Settles O21: the read at the cursor is the read of a code. -/
theorem rdvarintResult : Obligations.RdvarintResult := by
  unfold Obligations.RdvarintResult
  intro s v hidle hcap hv1 hv hw hstands hrem
  rw [← encodeVarint_length hv1] at hrem ⊢
  exact exec_rdvarint_ok hidle hcap (varintFrom_of_code hv1 hstands hrem) hv hw

/-- A varint cut by the end of the stream, after whole groups or after a lone control bit: what the data bits accumulated,
and everything left is consumed (R98, R123). -/
theorem varintFrom_truncated {bit : Nat → Bool} {ds : List Bool} {lone : Bool} {pos : Nat} (acc : Nat)
    (h : StandsAt bit pos (ds.flatMap (fun d => [false, d]) ++ (if lone then [false] else []))) :
    varintFrom bit (2 * ds.length + lone.toNat) pos acc
      = (ds.foldl (fun a d => 2 * a + d.toNat) acc, 2 * ds.length + lone.toNat) := by
  induction ds generalizing pos acc with
  | nil => cases lone <;> simp [varintFrom]
  | cons d ds ih =>
    obtain ⟨hgo, hdigit, hrest⟩ : bit pos = false ∧ bit (pos + 1) = d ∧ StandsAt bit (pos + 2)
        (ds.flatMap (fun d => [false, d]) ++ (if lone then [false] else [])) := by simpa using h
    have hlen : 2 * (d :: ds).length + lone.toNat = 2 * ds.length + lone.toNat + 2 := by
      rw [List.length_cons]; omega
    rw [hlen, varintFrom, hgo, hdigit, ih _ hrest]
    rfl

/-- Settles O22: the read at the cursor is a truncated one, of all bits that are left. -/
theorem rdvarintTruncated : Obligations.RdvarintTruncated := by
  unfold Obligations.RdvarintTruncated
  intro s ds lone v hidle hcap hrem hstands hvalue hv hw
  have hread : s.readVarint = (v, 2 * ds.length + lone.toNat) := by
    rw [State.readVarint, State.rem, State.srcBits, hrem, varintFrom_truncated _ hstands, hvalue, varintInit]
  exact exec_rdvarint_ok hidle hcap hread hv hw

end Sys2Proof.Machine

/-! PROOFS, the reader family, part 1: `RDBITS` (O16, O17, O18). -/

namespace Sys2Proof.Machine

open Sys2Proof

/-! ## The bits of a field (R62, R121) -/

/-- The first bit read is the most significant one of the value. -/
theorem bitsValue_testBit (bit : Nat → Bool) (pos : Nat) {n i : Nat} (h : i < n) :
    (bitsValue bit pos n).testBit (n - 1 - i) = bit (pos + i) := by
  induction n with
  | zero => omega
  | succ n ih =>
    rw [bitsValue, ← Nat.bit_val]
    by_cases hlast : i = n
    · rw [hlast, show n + 1 - 1 - n = 0 by omega, Nat.testBit_bit_zero]
    · rw [show n + 1 - 1 - i = (n - 1 - i).succ by omega, Nat.testBit_bit_succ, ih (by omega)]

/-- A field of `a + b` bits is the field of its first `a` bits, then the field of the next `b`. -/
theorem bitsValue_add (bit : Nat → Bool) (pos a b : Nat) :
    bitsValue bit pos (a + b) = bitsValue bit pos a <<< b ||| bitsValue bit (pos + a) b := by
  rw [← Nat.shiftLeft_add_eq_or_of_lt (bitsValue_lt ..), Nat.shiftLeft_eq]
  induction b with
  | zero => simp [bitsValue]
  | succ b ih =>
    rw [← Nat.add_assoc, bitsValue, ih, bitsValue, Nat.pow_succ, Nat.add_assoc pos a b]
    ring

/-- A number shifted in a register is the register of the shifted number. -/
theorem word_ofNat_shiftLeft (x n : Nat) : BitVec.ofNat 32 (x <<< n) = BitVec.ofNat 32 x <<< n := by
  apply BitVec.eq_of_toNat_eq
  simp [Nat.shiftLeft_eq, Nat.mod_mul_mod]

/-! ## How `RDBITS` ends -/

/-- A gated command in IDLE is accepted and runs (R249 step 1). -/
theorem next_issue_idle {work : State → State} {s : State} (h : s.st = .idle) :
    (.next (issue work s) : Host.Outcome State Fault Refusal) = .next (work s.accept) :=
  congrArg Host.Outcome.next (issue_idle h)

/-- The state after an `RDBITS n` that ends ok in `s` (R124). -/
def State.bitsRead (s : State) (n : Nat) : State :=
  { s with
    done := true
    phase := .none
    result := BitVec.ofNat 32 (bitsValue s.streamBit s.bitPos.toNat n)
    bitPos := s.bitPos + BitVec.ofNat 32 n }

/-- `RDBITS n` in IDLE: the first of R249's checks that fails, `UNDERRUN`, or the `n` bits (R124). -/
theorem exec_rdbits_cases {s : State} (n : BitVec 24) (hidle : s.st = .idle) :
    (32 < n.toNat ∧ exec (.rdbits n) s = .next (s.refusedWith 0x00011205#32))
    ∨ (s.cfg.srcCap < s.srcLen.toNat ∧ exec (.rdbits n) s = .next (s.refusedWith 0x00011505#32))
    ∨ (s.rem < n.toNat ∧ exec (.rdbits n) s = .next (s.refusedWith 0x00010101#32))
    ∨ (n.toNat ≤ 32 ∧ s.srcLen.toNat ≤ s.cfg.srcCap ∧ n.toNat ≤ s.rem
        ∧ exec (.rdbits n) s = .next (s.bitsRead n.toNat)) := by
  have hgate : exec (.rdbits n) s = .next (rdbits n s.accept) := next_issue_idle hidle
  rw [hgate, rdbits]
  by_cases hn : rdbitsMax < n.toNat
  · exact .inl ⟨hn, by rw [if_pos hn]; rfl⟩
  rw [if_neg hn]
  by_cases hcap : s.srcLen.toNat ≤ s.cfg.srcCap
  · rw [if_pos (show s.accept.srcInCapacity = true from decide_eq_true hcap), rdbitsWork]
    rcases s.accept.readBits_cases n.toNat with ⟨hrem, e⟩ | ⟨hrem, e, -⟩
    · exact .inr (.inr (.inl ⟨hrem, by rw [e]; rfl⟩))
    · exact .inr (.inr (.inr ⟨Nat.le_of_not_lt hn, hcap, hrem, by rw [e, State.bitsRead, hidle]; rfl⟩))
  · rw [if_neg (show ¬ s.accept.srcInCapacity = true from mt of_decide_eq_true hcap)]
    exact .inr (.inl ⟨Nat.lt_of_not_le hcap, rfl⟩)

/-- `RDBITS n` that ended ok found its `n` bits within SRC, and this is its next state. -/
theorem exec_rdbits_ended_ok {s t : State} {n : BitVec 24} (hidle : s.st = .idle)
    (h : exec (.rdbits n) s = .next t) (hok : t.st = .idle) :
    s.srcLen.toNat ≤ s.cfg.srcCap ∧ n.toNat ≤ s.rem ∧ t = s.bitsRead n.toNat := by
  rcases exec_rdbits_cases n hidle with ⟨-, e⟩ | ⟨-, e⟩ | ⟨-, e⟩ | ⟨-, hcap, hrem, e⟩ <;> rw [e] at h <;> cases h
  · cases hok
  · cases hok
  · cases hok
  · exact ⟨hcap, hrem, rfl⟩

/-- `RDBITS n` with at most 32 bits, all of them within SRC, ends ok. -/
theorem exec_rdbits_ok {s : State} {n : BitVec 24} (hidle : s.st = .idle) (hn : n.toNat ≤ 32)
    (hcap : s.srcLen.toNat ≤ s.cfg.srcCap) (hrem : n.toNat ≤ s.rem) :
    exec (.rdbits n) s = .next (s.bitsRead n.toNat) := by
  rcases exec_rdbits_cases n hidle with ⟨h, -⟩ | ⟨h, -⟩ | ⟨h, -⟩ | ⟨-, -, -, e⟩
  · omega
  · omega
  · omega
  · exact e

/-! ## The statements -/

/-- Settles O16: the value read is the field at the cursor, and its bits are the stream's. -/
theorem rdbitsResult : Obligations.RdbitsResult := by
  unfold Obligations.RdbitsResult
  intro s n hidle hn hcap hrem
  refine ⟨bitsValue s.streamBit s.bitPos.toNat n.toNat, bitsValue_lt .., fun i hi => bitsValue_testBit _ _ hi, ?_⟩
  rw [exec_rdbits_ok hidle hn hcap hrem, State.bitsRead, BitVec.ofNat_toNat]

/-- Settles O17: with the checks passed and too few bits left, `UNDERRUN` is the only end. -/
theorem rdbitsUnderrun : Obligations.RdbitsUnderrun := by
  unfold Obligations.RdbitsUnderrun
  intro s n hidle hn hcap hshort
  rcases exec_rdbits_cases n hidle with ⟨h, -⟩ | ⟨h, -⟩ | ⟨-, e⟩ | ⟨-, -, h, -⟩
  · omega
  · omega
  · exact e
  · exact absurd hshort (Nat.not_lt_of_le h)

/-- Settles O18: the second read starts where the first one ended, and the long field is the two short ones. -/
theorem readBitsSplit : Obligations.ReadBitsSplit := by
  unfold Obligations.ReadBitsSplit
  intro s t u a b hsound hidle hab ha ht hb hu
  obtain ⟨hcap, hrema, rfl⟩ := exec_rdbits_ended_ok hidle ha ht
  obtain ⟨-, hremb, rfl⟩ := exec_rdbits_ended_ok ht hb hu
  have hcursor : (s.bitPos + BitVec.ofNat 32 a.toNat).toNat = s.bitPos.toNat + a.toNat :=
    State.advance_toNat (State.srcBits_lt hsound hcap) hrema
  have hsum : (a + b).toNat = a.toNat + b.toNat := BitVec.toNat_add_of_lt (by omega)
  have hrem : (a + b).toNat ≤ s.rem := by
    change b.toNat ≤ s.srcBits - (s.bitPos + BitVec.ofNat 32 a.toNat).toNat at hremb
    unfold State.rem at hrema ⊢
    omega
  refine ⟨_, exec_rdbits_ok hidle (by omega) hcap hrem, hidle, ?_, ?_⟩
  · show s.bitPos + BitVec.ofNat 32 (a + b).toNat = s.bitPos + BitVec.ofNat 32 a.toNat + BitVec.ofNat 32 b.toNat
    rw [hsum, BitVec.ofNat_add, BitVec.add_assoc]
  · show BitVec.ofNat 32 (bitsValue s.streamBit s.bitPos.toNat (a + b).toNat)
      = BitVec.ofNat 32 (bitsValue s.streamBit s.bitPos.toNat a.toNat) <<< b.toNat
        ||| BitVec.ofNat 32 (bitsValue s.streamBit (s.bitPos + BitVec.ofNat 32 a.toNat).toNat b.toNat)
    rw [hsum, bitsValue_add, BitVec.ofNat_or, word_ofNat_shiftLeft, hcursor]

end Sys2Proof.Machine

/-! PROOFS, the reader family, part 2: `RDBYTES` (O19, O20). -/

namespace Sys2Proof.Machine

open Sys2Proof

/-! ## How `RDBYTES` ends -/

/-- `RDBYTES n` in IDLE with a result or an input over its capacity is refused before it starts (R125, R249 step 6). -/
theorem exec_rdbytes_overCapacity {s : State} {n : BitVec 24} (hidle : s.st = .idle)
    (hover : litCap < n.toNat ∨ s.cfg.srcCap < s.srcLen.toNat) :
    exec (.rdbytes n) s = .next (s.refusedWith 0x00021505#32) := by
  have hgate : exec (.rdbytes n) s = .next (rdbytes n s.accept) := next_issue_idle hidle
  rw [hgate, rdbytes]
  by_cases hn : litCap < n.toNat
  · rw [if_pos hn]; rfl
  · have hsrc : ¬ s.accept.srcInCapacity = true := mt of_decide_eq_true (Nat.not_le_of_lt (hover.resolve_left hn))
    rw [if_neg hn, if_neg hsrc]; rfl

/-- `RDBYTES n` in IDLE with both within capacity: `MISALIGNED`, `UNDERRUN`, or the `n` bytes (R125). -/
theorem exec_rdbytes_cases {s : State} {n : BitVec 24} (hidle : s.st = .idle) (hn : n.toNat ≤ litCap)
    (hcap : s.srcLen.toNat ≤ s.cfg.srcCap) :
    (s.bitPos.toNat % 8 ≠ 0
      ∧ exec (.rdbytes n) s = .next { s.refusedWith 0x00021305#32 with
          litV := false, lit := Memory.unspecified s.freeCtr, freeCtr := s.freeCtr + 1 })
    ∨ (s.bitPos.toNat % 8 = 0 ∧ s.rem < 8 * n.toNat
      ∧ exec (.rdbytes n) s = .next { s.refusedWith 0x00020101#32 with
          litV := false, lit := Memory.unspecified s.freeCtr, freeCtr := s.freeCtr + 1 })
    ∨ (s.bitPos.toNat % 8 = 0 ∧ 8 * n.toNat ≤ s.rem
      ∧ exec (.rdbytes n) s = .next { s with
          done := true, phase := .none
          lit := Memory.ofList s.freeCtr (s.src.readList (s.bitPos.toNat / 8) n.toNat)
          litLen := BitVec.ofNat 32 n.toNat, litV := true
          bitPos := s.bitPos + BitVec.ofNat 32 (8 * n.toNat), freeCtr := s.freeCtr + 1 }) := by
  have hgate : exec (.rdbytes n) s = .next (rdbytes n s.accept) := next_issue_idle hidle
  have hsrc : s.accept.srcInCapacity = true := decide_eq_true hcap
  rw [hgate, rdbytes, if_neg (Nat.not_lt_of_le hn), if_pos hsrc, rdbytesWork]
  rcases s.accept.readBytes_cases n.toNat with ⟨halign, e⟩ | ⟨halign, hrem, e⟩ | ⟨halign, hrem, e⟩
  · exact .inl ⟨halign, by rw [e]; rfl⟩
  · exact .inr (.inl ⟨halign, hrem, by rw [e]; rfl⟩)
  · exact .inr (.inr ⟨halign, hrem, by rw [e, hidle]; rfl⟩)

/-! ## The statements -/

/-- Settles O19: LIT is the list of the bytes read. -/
theorem rdbytesResult : Obligations.RdbytesResult := by
  unfold Obligations.RdbytesResult
  intro s n hidle hn hcap halign hrem
  rcases exec_rdbytes_cases hidle hn hcap with ⟨h, -⟩ | ⟨-, h, -⟩ | ⟨-, -, e⟩
  · exact absurd halign h
  · exact absurd hrem (Nat.not_le_of_lt h)
  · refine ⟨_, _, fun i hi => ?_, by rw [e, BitVec.ofNat_toNat]⟩
    rw [Memory.lookup_ofList, Memory.readList_getElem?, if_pos hi]

/-- Settles O20: the cursor's alignment decides first, the bytes left decide next. -/
theorem rdbytesFaults : Obligations.RdbytesFaults := by
  unfold Obligations.RdbytesFaults
  intro s n hidle hn hcap
  refine ⟨Memory.unspecified s.freeCtr, s.freeCtr + 1, fun hmis => ?misaligned, fun halign hshort => ?underrun⟩
  case misaligned =>
    rcases exec_rdbytes_cases hidle hn hcap with ⟨-, e⟩ | ⟨h, -⟩ | ⟨h, -⟩
    · exact e
    · exact absurd h hmis
    · exact absurd h hmis
  case underrun =>
    rcases exec_rdbytes_cases hidle hn hcap with ⟨h, -⟩ | ⟨-, -, e⟩ | ⟨-, h, -⟩
    · exact absurd halign h
    · exact e
    · exact absurd hshort (Nat.not_lt_of_le h)

end Sys2Proof.Machine

/-! PROOFS, the reader family, part 3: `RDVARINT` and its varint (O23, O24). -/

namespace Sys2Proof.Machine

open Sys2Proof

/-! ## The varint, once read -/

/-- A value that the accumulator does not hold, and `RESULT` would, is refused (R11). -/
theorem varintOutcome_tooWide {s : State} {v w : Nat} (hw : s.cfg.varintW = some w) (hge : 2 ^ w ≤ v)
    (hv : v < 2 ^ 32) : varintOutcome v s = .refused .varintTooWide := by
  rw [varintOutcome, if_pos ((s.cfg.varintTooWide_iff v).mpr ⟨hv, w, hw, hge⟩)]

/-- From 2^32 on `VARINT_W` plays no part: the varint's work is done, and it faults (R126). -/
theorem varintOutcome_range {s : State} {v : Nat} (hv : 2 ^ 32 ≤ v) :
    varintOutcome v s = .next (varintStep v s) := by
  rcases varintOutcome_cases v s with ⟨hwide, -⟩ | ⟨-, e⟩
  · exact absurd ((s.cfg.varintTooWide_iff v).mp hwide).1 (Nat.not_lt_of_le hv)
  · exact e

/-- Settles O24: the token's meaning is the varint's outcome on the state it is given. -/
theorem varintTokenResult : Obligations.VarintTokenResult := by
  unfold Obligations.VarintTokenResult
  intro s v hv
  exact ⟨fun hw => varintOutcome_ok hv hw, fun ⟨_, hw, hge⟩ => varintOutcome_tooWide hw hge hv⟩

/-! ## `BITPOS` after `RESULT_RANGE` (U4) -/

/-- The value `BITPOS` takes when the `RDVARINT` issued in `s` faults with `RESULT_RANGE`. -/
def State.rangeFaultCursor (s : State) : Word :=
  BitVec.ofNat 32 (s.bitPos.toNat + (Config.freeReg s.freeCtr).toNat % (s.srcBits - s.bitPos.toNat + 1))

/-- U4's range: from the cursor to the end of the stream. -/
theorem State.rangeFaultCursor_bounds {s : State} (hbits : s.srcBits < 2 ^ 32) :
    s.bitPos.toNat ≤ s.rangeFaultCursor.toNat ∧ s.rangeFaultCursor.toNat ≤ max s.bitPos.toNat s.srcBits := by
  have hfree : (Config.freeReg s.freeCtr).toNat % (s.srcBits - s.bitPos.toNat + 1) < s.srcBits - s.bitPos.toNat + 1 :=
    Nat.mod_lt _ (Nat.succ_pos _)
  have hpos := s.bitPos.isLt
  rw [State.rangeFaultCursor, BitVec.toNat_ofNat, Nat.mod_eq_of_lt (by omega)]
  omega

/-- At the end of the stream a varint is 1 (R98, R123), so one that is out of range starts before it. -/
theorem State.bitPos_lt_of_range {s : State} (hv : 2 ^ 32 ≤ s.readVarint.1) : s.bitPos.toNat < s.srcBits := by
  by_contra hend
  have hrem : s.rem = 0 := Nat.sub_eq_zero_of_le (Nat.le_of_not_lt hend)
  rw [State.readVarint, hrem, varintFrom, varintInit] at hv
  omega

/-! ## The command -/

/-- `RDVARINT` on a SRC over its capacity is refused before it starts (R249 step 6). -/
theorem exec_rdvarint_overCapacity {s : State} (hidle : s.st = .idle) (hcap : s.cfg.srcCap < s.srcLen.toNat) :
    exec .rdvarint s = .next (s.refusedWith 0x00031505#32) := by
  have hgate : exec .rdvarint s = rdvarint s.accept := by
    show issueOutcome rdvarint s = _
    rw [issueOutcome, hidle]
  have hover : ¬ s.accept.srcInCapacity = true := mt of_decide_eq_true (Nat.not_le_of_lt hcap)
  rw [hgate, rdvarint, if_neg hover]
  rfl

/-- `RDVARINT` in IDLE on a varint out of range: the whole next state (R126, R250). -/
theorem exec_rdvarint_range {s : State} (hidle : s.st = .idle) (hcap : s.srcLen.toNat ≤ s.cfg.srcCap)
    (hv : 2 ^ 32 ≤ s.readVarint.1) :
    exec .rdvarint s = .next { s.refusedWith 0x00031605#32 with
      bitPos := s.rangeFaultCursor, freeCtr := s.freeCtr + 1 } := by
  rw [exec_rdvarint hidle hcap, varintOutcome_range hv, varintStep, if_neg (Nat.not_lt_of_le hv)]
  rfl

/-- Settles O23: the varint at the cursor is the value that the statement names. -/
theorem rdvarintResultRange : Obligations.RdvarintResultRange := by
  unfold Obligations.RdvarintResultRange
  intro s v hsound hidle hcap hread
  obtain rfl : v = s.readVarint.1 := hread
  refine ⟨fun hv => ?_, fun w hw hge hv => ?_⟩
  · obtain ⟨hlow, hhigh⟩ := State.rangeFaultCursor_bounds (State.srcBits_lt hsound hcap)
    rw [Nat.max_eq_right (Nat.le_of_lt (State.bitPos_lt_of_range hv))] at hhigh
    exact ⟨_, _, hlow, hhigh, exec_rdvarint_range hidle hcap hv⟩
  · rw [exec_rdvarint hidle hcap]
    exact varintOutcome_tooWide hw hge hv

end Sys2Proof.Machine

/-! PROOFS, the reader family, part 4: the cursor of the three reader commands (O25). -/

namespace Sys2Proof.Machine

open Sys2Proof

/-- R127 (d): the cursor of `t` is not before that of `s`, and past the end of the stream only if it was. -/
def CursorWithin (s t : State) : Prop :=
  s.bitPos.toNat ≤ t.bitPos.toNat ∧ t.bitPos.toNat ≤ max s.bitPos.toNat (8 * s.srcLen.toNat)

theorem cursorWithin_of_kept {s t : State} (h : t.bitPos = s.bitPos) : CursorWithin s t := by
  rw [CursorWithin, h]
  exact ⟨Nat.le_refl _, Nat.le_max_left ..⟩

/-- A cursor moved over bits that are left does not wrap (R28), and does not pass the end of the stream. -/
theorem cursorWithin_of_advance {s t : State} {n : Nat} (hsound : s.cfg.Sound)
    (hcap : s.srcLen.toNat ≤ s.cfg.srcCap) (hrem : n ≤ s.rem) (h : t.bitPos = s.bitPos + BitVec.ofNat 32 n) :
    CursorWithin s t := by
  rw [CursorWithin, h, State.advance_toNat (State.srcBits_lt hsound hcap) hrem]
  unfold State.rem State.srcBits at hrem
  omega

theorem rdbits_cursorWithin {s t : State} {n : BitVec 24} (hsound : s.cfg.Sound) (hidle : s.st = .idle)
    (h : exec (.rdbits n) s = .next t) : CursorWithin s t := by
  rcases exec_rdbits_cases n hidle with ⟨-, e⟩ | ⟨-, e⟩ | ⟨-, e⟩ | ⟨-, hcap, hrem, e⟩ <;> rw [e] at h <;> cases h
  · exact cursorWithin_of_kept rfl
  · exact cursorWithin_of_kept rfl
  · exact cursorWithin_of_kept rfl
  · exact cursorWithin_of_advance hsound hcap hrem rfl

theorem rdbytes_cursorWithin {s t : State} {n : BitVec 24} (hsound : s.cfg.Sound) (hidle : s.st = .idle)
    (h : exec (.rdbytes n) s = .next t) : CursorWithin s t := by
  by_cases hover : litCap < n.toNat ∨ s.cfg.srcCap < s.srcLen.toNat
  · rw [exec_rdbytes_overCapacity hidle hover] at h
    cases h
    exact cursorWithin_of_kept rfl
  · obtain ⟨hn, hcap⟩ : n.toNat ≤ litCap ∧ s.srcLen.toNat ≤ s.cfg.srcCap := by omega
    rcases exec_rdbytes_cases hidle hn hcap with ⟨-, e⟩ | ⟨-, -, e⟩ | ⟨-, hrem, e⟩ <;> rw [e] at h <;> cases h
    · exact cursorWithin_of_kept rfl
    · exact cursorWithin_of_kept rfl
    · exact cursorWithin_of_advance hsound hcap hrem rfl

theorem rdvarint_cursorWithin {s t : State} (hsound : s.cfg.Sound) (hidle : s.st = .idle)
    (h : exec .rdvarint s = .next t) : CursorWithin s t := by
  by_cases hcap : s.srcLen.toNat ≤ s.cfg.srcCap
  · by_cases hv : s.readVarint.1 < 2 ^ 32
    · rw [exec_rdvarint hidle hcap] at h
      rcases varintOutcome_cases s.readVarint.1 _ with ⟨-, e⟩ | ⟨-, e⟩ <;> rw [e] at h <;> cases h
      refine cursorWithin_of_advance hsound hcap (n := s.readVarint.2) (varintFrom_consumed_le ..) ?_
      rw [varintStep, if_pos hv]
      rfl
    · rw [exec_rdvarint_range hidle hcap (Nat.le_of_not_lt hv)] at h
      cases h
      exact State.rangeFaultCursor_bounds (State.srcBits_lt hsound hcap)
  · rw [exec_rdvarint_overCapacity hidle (Nat.lt_of_not_le hcap)] at h
    cases h
    exact cursorWithin_of_kept rfl

/-- Settles O25, command by command. -/
theorem readerCursorBounds : Obligations.ReaderCursorBounds := by
  unfold Obligations.ReaderCursorBounds
  rintro s t i hsound hidle (⟨n, rfl⟩ | ⟨n, rfl⟩ | rfl) h
  · exact rdbits_cursorWithin hsound hidle h
  · exact rdbytes_cursorWithin hsound hidle h
  · exact rdvarint_cursorWithin hsound hidle h

end Sys2Proof.Machine

/-! PROOFS, the reader family, part 5: results over their memories' capacities (O15). -/

namespace Sys2Proof.Machine

open Sys2Proof

/-- A bulk decoder whose input is there and whose result does not fit stops at the capacity check (R249 step 6). -/
theorem withInput_overCapacity (op : BitVec 8) {sel : Sel} {size cap : Nat} (work : State → State) {s : State}
    (hin : sel = .out → s.outV = true) (hover : cap < size) :
    withInput op sel (decide (size ≤ cap)) work s = raise .illegalCommand .capacity op s := by
  have hpresent : s.inputPresent sel = true := by
    cases sel with
    | src => rfl
    | out => exact hin rfl
  rw [withInput, if_pos hpresent, decide_eq_false (Nat.not_le_of_lt hover), Bool.and_false, if_neg Bool.false_ne_true]

/-- `TILEDEC` of a legal depth stops there when the tiles do not fit (R177). -/
theorem tiledec_overCapacity {sel : Sel} {bpp : BitVec 4} {s : State} (hbpp : bppLegal bpp = true)
    (hin : sel = .out → s.outV = true) (hover : s.cfg.tileCap < s.inputLen sel / (8 * bpp.toNat)) :
    tiledec sel bpp s = raise .illegalCommand .capacity 0x20#8 s := by
  obtain ⟨b, hb, hbits⟩ := Bpp.ofField_of_legal hbpp
  rw [← hbits] at hover
  rw [tiledec, hb]
  exact withInput_overCapacity _ _ hin hover

/-- R221's bytes of the image: four for each pixel of the rows of tiles and the padding row of tiles. -/
theorem imageBytes (tw count : Nat) :
    4 * (imageWidth tw * imageHeight tw count) = 256 * tw * ((count + tw - 1) / tw + 1) := by
  rw [imageWidth, imageHeight, tileDim, padRows]
  ring

/-- `COMPOSE` with legal operands and valid inputs stops at the capacity check when the image does not fit (R221). -/
theorem compose_overCapacity {tw : BitVec 16} {bpp : BitVec 4} {s : State} (htw : tw ≠ 0#16)
    (hbpp : bppLegal bpp = true) (hnt : s.ntV = true) (htile : s.tileV = true) (hpal : s.palV = true)
    (hover : s.cfg.fbCap < 256 * tw.toNat * ((s.ntCnt.toNat + tw.toNat - 1) / tw.toNat + 1)) :
    compose tw bpp s = raise .illegalCommand .capacity 0x50#8 s := by
  obtain ⟨b, hb, -⟩ := Bpp.ofField_of_legal hbpp
  rw [← imageBytes] at hover
  simp only [compose, htw, hb, hnt, htile, hpal, Nat.not_le_of_lt hover, Bool.and_true, if_false, if_true]

/-- Settles O15: each command stops at its capacity check, and the fault taken there is the refusal. -/
theorem resultCapacities : Obligations.ResultCapacities := by
  unfold Obligations.ResultCapacities
  intro s hidle
  refine ⟨fun n hn => exec_rdbytes_overCapacity hidle (.inl hn), fun sel bpp hbpp hin hover => ?tiledec,
    fun sel hin hover => ?palload, fun sel hin hover => ?ntparse,
    fun tw bpp htw hbpp hnt htile hpal hover => ?compose⟩
  case tiledec =>
    calc exec (.tiledec sel bpp) s
      _ = .next (tiledec sel bpp s.accept) := next_issue_idle hidle
      _ = .next (s.refusedWith 0x00201505#32) := congrArg _ (tiledec_overCapacity (s := s.accept) hbpp hin hover)
  case palload =>
    calc exec (.palload sel) s
      _ = .next (palload sel s.accept) := next_issue_idle hidle
      _ = .next (s.refusedWith 0x00301505#32) := congrArg _ (withInput_overCapacity (s := s.accept) _ _ hin hover)
  case ntparse =>
    calc exec (.ntparse sel) s
      _ = .next (ntparse sel s.accept) := next_issue_idle hidle
      _ = .next (s.refusedWith 0x00401505#32) := congrArg _ (withInput_overCapacity (s := s.accept) _ _ hin hover)
  case compose =>
    calc exec (.compose tw bpp) s
      _ = .next (compose tw bpp s.accept) := next_issue_idle hidle
      _ = .next (s.refusedWith 0x00501505#32) :=
        congrArg _ (compose_overCapacity (s := s.accept) htw hbpp hnt htile hpal hover)

end Sys2Proof.Machine

/-! PROOFS, the decompressor family, part 1: what each token of a block does on any state (O26, O27, O28, O29, O30). -/

namespace Sys2Proof.Machine

open Sys2Proof

/-! ## The framing (R141, R142) -/

/-- Settles O26: with the payload aligned and present, the framing is the only end of the header's work. -/
theorem blockHeaderFrames : Obligations.BlockHeaderFrames := by
  unfold Obligations.BlockHeaderFrames
  intro s u v hv halign hrem
  rcases headerStep_cases u v s with ⟨hbad, -⟩ | ⟨-, hmis | hshort, -⟩ | ⟨-, -, -, e⟩
  · omega
  · exact absurd halign hmis
  · exact absurd hrem (Nat.not_le_of_lt hshort)
  · refine ⟨_, _, fun i hi => ?_, congrArg Host.Outcome.next e⟩
    rw [Memory.lookup_ofList, Memory.readList_getElem?, if_pos hi]

/-! ## The two copies, byte by byte (R143, R146) -/

theorem read_copyAcross_inside (src : Memory 8) {n i : Nat} (a d : Nat) (m : Memory 8) (hi : i < n) :
    (copyAcross src n a d m).read (d + i) = src.read (a + i) := by
  refine Memory.read_of_lookup ?_
  rw [lookup_copyAcross, if_pos (by omega), Nat.add_sub_cancel_left]

theorem read_copyAcross_outside (src : Memory 8) {n d k : Nat} (a : Nat) (m : Memory 8) (hk : k < d ∨ d + n ≤ k) :
    (copyAcross src n a d m).read k = m.read k := by
  refine Memory.read_congr (copyAcross_gen ..) ?_
  rw [lookup_copyAcross, if_neg (by omega)]

theorem read_copyWithin_outside {n d k : Nat} (a : Nat) (m : Memory 8) (hk : k < d ∨ d + n ≤ k) :
    (copyWithin n a d m).read k = m.read k :=
  Memory.read_congr (copyWithin_gen ..) (lookup_copyWithin_outside n a d m hk)

/-- A byte of the overlapping copy is the byte the source had when its turn came: the last one written. -/
theorem read_copyWithin_last (n a d : Nat) (m : Memory 8) :
    (copyWithin (n + 1) a d m).read (d + n) = (copyWithin n a d m).read (a + n) := by
  rw [copyWithin_succ_last, Memory.read_write_same]

/-- More bytes copied leave the ones already copied. -/
theorem read_copyWithin_earlier {n k : Nat} (a d : Nat) (m : Memory 8) (hk : k < d + n) :
    (copyWithin (n + 1) a d m).read k = (copyWithin n a d m).read k := by
  rw [copyWithin_succ_last, Memory.read_write_other _ (by omega)]

/-- The overlapping copy repeats the bytes from the source up to the cursor, with their number as the period (R146). -/
theorem read_copyWithin_inside {n i a d : Nat} (m : Memory 8) (ha : a < d) (hi : i < n) :
    (copyWithin n a d m).read (d + i) = m.read (a + i % (d - a)) := by
  induction n generalizing i with
  | zero => omega
  | succ n ih =>
    by_cases hlast : i = n
    · subst hlast
      rw [read_copyWithin_last]
      by_cases hfirst : i < d - a
      · rw [read_copyWithin_outside a m (.inl (by omega)), Nat.mod_eq_of_lt hfirst]
      · rw [show a + i = d + (i - (d - a)) by omega, ih (by omega), ← Nat.mod_eq_sub_mod (Nat.le_of_not_lt hfirst)]
    · rw [read_copyWithin_earlier a d m (by omega), ih (by omega)]

/-! ## The copying steps -/

/-- The output is complete exactly when the clamped amount fills what is left of it, on any state. -/
theorem copyCursor_eq_iff (dp u : Word) (n : Nat) :
    dp + BitVec.ofNat 32 (min n (u.toNat - dp.toNat)) = u ↔ dp.toNat + min n (u.toNat - dp.toNat) = u.toNat := by
  by_cases h : dp.toNat ≤ u.toNat
  · rw [← BitVec.toNat_inj, copyCursor_toNat n h]
  · have hzero : min n (u.toNat - dp.toNat) = 0 := by omega
    rw [hzero, ← BitVec.toNat_inj]
    simp

/-- Settles O27: the copy's bytes, and the end of the step by the cursor it reaches. -/
theorem litStepCopies : Obligations.LitStepCopies := by
  unfold Obligations.LitStepCopies
  rintro s n a rfl hpayload
  refine ⟨fun hu => s.cfg.saturated_min n 0 (by omega), _, fun i hi => read_copyAcross_inside _ _ _ _ hi,
    fun k hk => read_copyAcross_outside _ _ _ hk, ?_⟩
  rcases litStep_cases n s with ⟨hover, -⟩ | ⟨-, e⟩
  · omega
  · exact congrArg Host.Outcome.next (e.trans (if_congr (copyCursor_eq_iff ..) rfl rfl))

/-- Settles O28: the copy's bytes, and the end of the step by the cursor it reaches. -/
theorem refStepRepeats : Obligations.RefStepRepeats := by
  unfold Obligations.RefStepRepeats
  rintro s source m a hsource rfl
  refine ⟨fun hu => s.cfg.saturated_min m 2 (by omega), _, fun i hi => read_copyWithin_inside _ hsource hi,
    fun k hk => read_copyWithin_outside _ _ hk, ?_⟩
  rcases refStep_cases source m s with ⟨hunwritten, -⟩ | ⟨-, e⟩
  · omega
  · exact congrArg Host.Outcome.next (e.trans (if_congr (copyCursor_eq_iff ..) rfl rfl))

/-! ## The command bit (R148) -/

/-- Settles O30: the two branches of the selection. -/
theorem cmdbitSelectsStep : Obligations.CmdbitSelectsStep := by
  unfold Obligations.CmdbitSelectsStep
  intro s c
  rcases cmdbitStep_cases c s with ⟨hlit, e⟩ | ⟨href, e⟩
  · exact ⟨fun _ => congrArg Host.Outcome.next e, fun h => absurd hlit h⟩
  · exact ⟨fun h => absurd h href, fun _ => congrArg Host.Outcome.next e⟩

/-! ## The faults of the tokens (R150, R250) -/

/-- What a `DECOMP` that faults in the state `s` leaves: R250's open list open, everything else as it was. -/
def State.DecompFaulted (s : State) (err : Word) (t : State) : Prop :=
  t.nextCmd.toNat < 2
    ∧ t = { s.refusedWith err with
        litV := false, outV := false, lit := t.lit, out := t.out, bitPos := t.bitPos, litLen := t.litLen,
        dataPos := t.dataPos, outLen := t.outLen, decompPos := t.decompPos, nextCmd := t.nextCmd,
        freeCtr := t.freeCtr }

/-- `NEXT_CMD` keeps bit 0 of its free value only (U6). -/
theorem decompFault_nextCmd_lt (info : Info) (s : State) : (decompFault info s).nextCmd.toNat < 2 := by
  show (Config.freeReg (s.freeCtr + 7) &&& 1#32).toNat < 2
  rw [BitVec.toNat_and]
  exact Nat.lt_succ_of_le Nat.and_le_right

theorem decompFault_faulted (info : Info) (s : State) :
    s.DecompFaulted (errWord .corruptStream info 0x10#8) (decompFault info s) :=
  ⟨decompFault_nextCmd_lt info s, rfl⟩

/-- A fixed-width field of the token due that finds too few bits left ends in `UNDERRUN` before it is read. -/
theorem engineStep_underrun {s : State}
    (h : s.phase = .header ∧ s.rem < 32 ∨ s.phase = .ref ∧ s.rem < bitlen s.decompPos.toNat
      ∨ s.phase = .cmdbit ∧ s.rem < 1) : engineStep s = decompFault .underrun s := by
  rcases h with ⟨hp, hshort⟩ | ⟨hp, hshort⟩ | ⟨hp, hshort⟩
  · exact (engineStep_header hp).elim And.right fun h => absurd hshort (Nat.not_lt_of_le h.1)
  · exact (engineStep_ref hp).elim And.right fun h => absurd hshort (Nat.not_lt_of_le h.1)
  · exact (engineStep_cmdbit hp).elim And.right fun h => absurd hshort (Nat.not_lt_of_le h.1)

/-- Settles O29: each failing check is `decompFault` with its info, and that leaves what R250 says. -/
theorem decompTokenFaults : Obligations.DecompTokenFaults := by
  unfold Obligations.DecompTokenFaults
  refine ⟨fun s i err hfault => ?read, fun s hq hb hshort => ?unread⟩
  case read =>
    rcases hfault with ⟨n, rfl, rfl, hover⟩ | ⟨source, m, rfl, rfl, hsource⟩ | ⟨u, v, rfl, rfl, hbad⟩
      | ⟨u, v, rfl, rfl, hv, hshort⟩
    · rcases litStep_cases n s with ⟨-, e⟩ | ⟨hle, -⟩
      · exact ⟨_, congrArg Host.Outcome.next e, decompFault_faulted .literalOverrun s⟩
      · omega
    · rcases refStep_cases source m s with ⟨-, e⟩ | ⟨hlt, -⟩
      · exact ⟨_, congrArg Host.Outcome.next e, decompFault_faulted .backrefUnwritten s⟩
      · omega
    · rcases headerStep_cases u v s with ⟨-, e⟩ | ⟨hge, -⟩ | ⟨hge, -⟩
      · exact ⟨_, congrArg Host.Outcome.next e, decompFault_faulted .badHeader s⟩
      · omega
      · omega
    · rcases headerStep_cases u v s with ⟨hbad, -⟩ | ⟨-, -, e⟩ | ⟨-, -, hle, -⟩
      · omega
      · exact ⟨_, congrArg Host.Outcome.next e, decompFault_faulted .underrun s⟩
      · exact absurd hshort (Nat.not_lt_of_le hle)
  case unread =>
    have hp : ∀ start, s.phase ≠ .varint start := by
      rintro start hv
      rcases hshort with ⟨hp, -⟩ | ⟨hp, -⟩ | ⟨hp, -⟩ <;> cases hp.symm.trans hv
    have hstep : step s = .next (decompFault .underrun s) := by
      rw [step_engine_next hq hb hp, engineStep_underrun hshort]
    exact ⟨_, hstep, decompFault_faulted .underrun s⟩

end Sys2Proof.Machine

/-! PROOFS, the decompressor family, part 2: a whole `DECOMP`, from the gate to its end: the framing of the block in
SRC, and what the run ends as (O31, O34). -/

namespace Sys2Proof.Machine

open Sys2Proof

/-! ## From the gate to the run (R249, R152) -/

theorem exec_decomp_overCapacity {s : State} (hidle : s.st = .idle) (hover : s.cfg.srcCap < s.srcLen.toNat) :
    exec .decomp s = .next (s.refusedWith 0x00101505#32) := by
  have hgate : exec .decomp s = .next (decomp s.accept) := next_issue_idle hidle
  rw [hgate, decomp, if_neg (show ¬ s.accept.srcInCapacity = true from mt of_decide_eq_true (Nat.not_le_of_lt hover))]
  rfl

theorem exec_decomp_run {s : State} (hidle : s.st = .idle) (hcap : s.srcLen.toNat ≤ s.cfg.srcCap) :
    exec .decomp s = .next (engineRun decompFuel (decompStart s.accept)) := by
  have hgate : exec .decomp s = .next (decomp s.accept) := next_issue_idle hidle
  rw [hgate, decomp, if_pos (show s.accept.srcInCapacity = true from decide_eq_true hcap)]

/-- A run of tokens from `s`, if it ends, ends in a state with `Q`. -/
def EndsOnlyIn (Q : State → Prop) (s : State) : Prop := ∀ n, (engineRun n s).st ≠ .busy → Q (engineRun n s)

theorem endsOnlyIn_of_ended {Q : State → Prop} {s : State} (h : s.st ≠ .busy) (hQ : Q s) : EndsOnlyIn Q s :=
  fun n _ => by rwa [engineRun_ended h]

theorem endsOnlyIn_of_step {Q : State → Prop} {s : State} (hb : s.st = .busy) (h : EndsOnlyIn Q (engineStep s)) :
    EndsOnlyIn Q s := by
  intro n hend
  cases n with
  | zero => exact absurd hb hend
  | succ n =>
    rw [engineRun_succ hb] at hend ⊢
    exact h n hend

theorem endsOnlyIn_of_keeps {P Q : State → Prop} (hk : ∀ s, P s → s.st = .busy → P (engineStep s))
    (hend : ∀ t, P t → t.st ≠ .busy → Q t) {s : State} (h : P s) : EndsOnlyIn Q s :=
  fun n hn => hend _ (engineRun_keeps hk n h) hn

/-- The tokens of a `DECOMP` always end (R151 (a)), so they end where they can only end. -/
theorem decompRun_endsIn {Q : State → Prop} {s : State} (hb : s.st = .busy)
    (h : EndsOnlyIn Q (engineStep (decompStart s))) : Q (engineRun decompFuel (decompStart s)) :=
  endsOnlyIn_of_step (s := decompStart s) hb h decompFuel (decompRun_ends s)

/-! ## The header's bytes (R95, R120) -/

/-- Eight stream bits at a byte boundary are the byte (R61). -/
theorem bitsValue_byte (s : State) (i : Nat) : bitsValue s.streamBit (8 * i) 8 = (s.src.read i).toNat := by
  refine Nat.eq_of_testBit_eq fun j => ?_
  by_cases hj : j < 8
  · have hbit := bitsValue_testBit s.streamBit (8 * i) (n := 8) (i := 7 - j) (by omega)
    rw [show 8 - 1 - (7 - j) = j by omega] at hbit
    rw [hbit, State.streamBit, show (8 * i + (7 - j)) / 8 = i by omega, show 7 - (8 * i + (7 - j)) % 8 = j by omega,
      BitVec.testBit_toNat]
  · have hpow : 2 ^ 8 ≤ 2 ^ j := Nat.pow_le_pow_right (by decide) (Nat.le_of_not_lt hj)
    rw [Nat.testBit_lt_two_pow (Nat.lt_of_lt_of_le (bitsValue_lt ..) hpow),
      Nat.testBit_lt_two_pow (Nat.lt_of_lt_of_le (BitVec.isLt _) hpow)]

/-- Sixteen of them are the big-endian number of two bytes (R95). -/
theorem bitsValue_bytePair (s : State) (i : Nat) :
    bitsValue s.streamBit (8 * i) 16 = 256 * (s.src.read i).toNat + (s.src.read (i + 1)).toNat := by
  have hlow : bitsValue s.streamBit (8 * i + 8) 8 < 2 ^ 8 := bitsValue_lt ..
  rw [bitsValue_add _ _ 8 8, ← Nat.shiftLeft_add_eq_or_of_lt hlow, Nat.shiftLeft_eq, bitsValue_byte,
    ← bitsValue_byte s (i + 1), Nat.mul_comm, Nat.mul_add]

/-- `uncompressed_length` of the block at `SRC[0]` (R141). -/
def State.blockLength (s : State) : Nat := 256 * (s.src.read 0).toNat + (s.src.read 1).toNat

/-- The block's second header field, which counts the payload and its own two bytes (R141). -/
def State.blockField (s : State) : Nat := 256 * (s.src.read 2).toNat + (s.src.read 3).toNat

theorem State.blockLength_lt (s : State) : s.blockLength < 2 ^ 16 := by
  have := (s.src.read 0).isLt
  have := (s.src.read 1).isLt
  unfold State.blockLength; omega

theorem State.blockField_lt (s : State) : s.blockField < 2 ^ 16 := by
  have := (s.src.read 2).isLt
  have := (s.src.read 3).isLt
  unfold State.blockField; omega

/-! ## The framing of the block (R141, R142) -/

/-- `s`, in which a `DECOMP` was accepted, once its block with a payload of `p` bytes is framed. -/
def State.framed (s : State) (p : Nat) : State :=
  { decompStart s with
    bitPos := BitVec.ofNat 32 (32 + 8 * p)
    lit := Memory.ofList (s.freeCtr + 1) (s.src.readList 4 p)
    litLen := BitVec.ofNat 32 p
    outLen := BitVec.ofNat 32 s.blockLength
    decompPos := 0#32
    dataPos := 0#32
    nextCmd := 0#32
    phase := .lit
    freeCtr := s.freeCtr + 2 }

theorem State.framed_outLen (s : State) (p : Nat) : (s.framed p).outLen.toNat = s.blockLength :=
  Nat.mod_eq_of_lt (Nat.lt_trans s.blockLength_lt (by decide))

theorem State.framed_litLen (s : State) {p : Nat} (hp : p ≤ 65533) : (s.framed p).litLen.toNat = p :=
  Nat.mod_eq_of_lt (by omega)

theorem State.framed_bitPos (s : State) {p : Nat} (hp : p ≤ 65533) : (s.framed p).bitPos.toNat = 32 + 8 * p :=
  Nat.mod_eq_of_lt (by omega)

theorem State.framed_lit_lookup (s : State) {p i : Nat} (hi : i < p) :
    (s.framed p).lit.lookup i = some (s.src.read (4 + i)) := by
  show (Memory.ofList _ (s.src.readList 4 p)).lookup i = _
  rw [Memory.lookup_ofList, Memory.readList_getElem?, if_pos hi]

/-- The header, when it is due at `SRC[0]`. -/
theorem engineStep_decompStart (s : State) :
    (s.srcLen.toNat < 4 ∧ engineStep (decompStart s) = decompFault .underrun (decompStart s))
    ∨ (4 ≤ s.srcLen.toNat ∧ engineStep (decompStart s) =
        headerStep (BitVec.ofNat 16 s.blockLength) (BitVec.ofNat 16 s.blockField) ((decompStart s).advance 32)) := by
  have hrem : (decompStart s).rem = 8 * s.srcLen.toNat := rfl
  have hu : bitsValue (decompStart s).streamBit (decompStart s).bitPos.toNat 16 = s.blockLength :=
    bitsValue_bytePair (decompStart s) 0
  have hv : bitsValue (decompStart s).streamBit ((decompStart s).bitPos.toNat + 16) 16 = s.blockField :=
    bitsValue_bytePair (decompStart s) 2
  rcases engineStep_header (s := decompStart s) rfl with ⟨hshort, e⟩ | ⟨hlong, e⟩
  · exact .inl ⟨by omega, e⟩
  · exact .inr ⟨by omega, by rw [e, hu, hv]⟩

theorem decompStart_advance_bitPos (s : State) : ((decompStart s).advance 32).bitPos = 32#32 := rfl

/-- `DECOMP`'s first token: what is missing of the header or the payload, a bad header, or the framing. -/
theorem framing_cases (s : State) :
    ((s.srcLen.toNat < 4 ∨ 2 ≤ s.blockField ∧ s.srcLen.toNat < s.blockField + 2)
      ∧ engineStep (decompStart s) = decompFault .underrun (decompStart s))
    ∨ (4 ≤ s.srcLen.toNat ∧ s.blockField < 2
      ∧ engineStep (decompStart s) = decompFault .badHeader (decompStart s))
    ∨ (∃ p, s.blockField = p + 2 ∧ 4 + p ≤ s.srcLen.toNat ∧ engineStep (decompStart s) = s.framed p) := by
  have hv : (BitVec.ofNat 16 s.blockField).toNat = s.blockField := Nat.mod_eq_of_lt s.blockField_lt
  have hrem : ((decompStart s).advance 32).rem = 8 * s.srcLen.toNat - 32 := rfl
  rcases engineStep_decompStart s with ⟨hshort, e⟩ | ⟨hlong, e⟩
  · exact .inl ⟨.inl hshort, e⟩
  · rcases headerStep_cases (BitVec.ofNat 16 s.blockLength) (BitVec.ofNat 16 s.blockField)
      ((decompStart s).advance 32) with ⟨hbad, e'⟩ | ⟨hok, hmis | hcut, e'⟩ | ⟨hok, -, hthere, e'⟩ <;> rw [e, e']
    · exact .inr (.inl ⟨hlong, by omega, rfl⟩)
    · rw [decompStart_advance_bitPos] at hmis
      exact absurd (by decide) hmis
    · exact .inl ⟨by omega, rfl⟩
    · refine .inr (.inr ⟨s.blockField - 2, by omega, by omega, ?_⟩)
      have hcursor : ((decompStart s).advance 32).bitPos + BitVec.ofNat 32 (8 * (s.blockField - 2))
          = BitVec.ofNat 32 (32 + 8 * (s.blockField - 2)) := (BitVec.ofNat_add ..).symm
      have hlength : (BitVec.ofNat 16 s.blockLength).setWidth 32 = BitVec.ofNat 32 s.blockLength := by
        rw [← BitVec.toNat_inj, BitVec.toNat_setWidth, BitVec.toNat_ofNat, BitVec.toNat_ofNat,
          Nat.mod_eq_of_lt s.blockLength_lt]
      have hbyte : ((decompStart s).advance 32).bitPos.toNat / 8 = 4 := by rw [decompStart_advance_bitPos]; rfl
      rw [hv, hlength, hbyte, State.advance, hcursor]
      rfl

/-- The block in SRC is framed when its header is legal and its payload present. -/
theorem engineStep_framed {s : State} {p : Nat} (hv : s.blockField = p + 2) (hthere : 4 + p ≤ s.srcLen.toNat) :
    engineStep (decompStart s) = s.framed p := by
  rcases framing_cases s with ⟨hmissing, -⟩ | ⟨-, hbad, -⟩ | ⟨q, hq, -, e⟩
  · omega
  · omega
  · rw [e, show q = p by omega]

/-! ## Exactly the declared output (R140, R151) -/

/-- Exactly the bytes below `n` are specified. -/
def Memory.WrittenBelow (m : Memory 8) (n : Nat) : Prop := ∀ k, (m.lookup k).isSome = true ↔ k < n

theorem writtenBelow_unspecified (g : Nat) : (Memory.unspecified g : Memory 8).WrittenBelow 0 := by
  intro k
  simp

theorem writtenBelow_copyAcross (src : Memory 8) {m : Memory 8} {d : Nat} (h : m.WrittenBelow d) (n a : Nat) :
    (copyAcross src n a d m).WrittenBelow (d + n) := by
  intro k
  rw [lookup_copyAcross]
  by_cases hk : d ≤ k ∧ k < d + n
  · simp [hk]
  · rw [if_neg hk, h k]; omega

theorem writtenBelow_copyWithin {m : Memory 8} {d : Nat} (h : m.WrittenBelow d) (n a : Nat) :
    (copyWithin n a d m).WrittenBelow (d + n) := by
  intro k
  by_cases hk : d ≤ k ∧ k < d + n
  · simp [lookup_copyWithin_inside n a d m hk, hk.2]
  · rw [lookup_copyWithin_outside n a d m (by omega), h k]; omega

/-- How far a `DECOMP` of a block that declares `u` bytes has come: in the block with exactly the bytes below the cursor
written, or at one of its two ends. -/
inductive OutputProgress (u : Nat) : State → Prop
  | running {t : State} (hst : t.st = .busy) (hphase : t.phase.inBlock = true) (hu : t.outLen.toNat = u)
      (hle : t.decompPos.toNat ≤ t.outLen.toNat) (hout : t.out.WrittenBelow t.decompPos.toNat) : OutputProgress u t
  | complete {t : State} (hst : t.st = .idle) (hdone : t.done = true) (hlitV : t.litV = true) (houtV : t.outV = true)
      (hu : t.outLen.toNat = u) (hend : t.decompPos = t.outLen) (hout : t.out.WrittenBelow t.decompPos.toNat) :
      OutputProgress u t
  | faulted (info : Info) (s : State)
      (hinfo : info ∈ [Info.underrun, .badHeader, .literalOverrun, .backrefUnwritten]) :
      OutputProgress u (decompFault info s)

/-- A copy within the output either completes it or leaves the next step of the block due. -/
theorem outputProgress_afterCopy {c : State} {next : Phase} (hst : c.st = .busy) (hnext : next.inBlock = true)
    (hle : c.decompPos.toNat ≤ c.outLen.toNat) (hout : c.out.WrittenBelow c.decompPos.toNat) :
    OutputProgress c.outLen.toNat (afterCopy next c) := by
  rcases afterCopy_cases next c with ⟨hend, e⟩ | ⟨-, e⟩ <;> rw [e]
  · exact .complete rfl rfl rfl rfl rfl hend hout
  · exact .running hst hnext rfl hle hout

theorem outputProgress_litStep {s : State} (hst : s.st = .busy) (hle : s.decompPos.toNat ≤ s.outLen.toNat)
    (hout : s.out.WrittenBelow s.decompPos.toNat) (n : Nat) : OutputProgress s.outLen.toNat (litStep n s) := by
  rcases litStep_cases n s with ⟨-, e⟩ | ⟨-, e⟩ <;> rw [e]
  · exact .faulted _ _ (by decide)
  · have hcursor : (litCopied n s).decompPos.toNat = _ := copyCursor_toNat (s.cfg.saturated n) hle
    refine outputProgress_afterCopy (c := litCopied n s) hst rfl ?_ ?_ <;> rw [hcursor]
    · show _ ≤ s.outLen.toNat
      omega
    · exact writtenBelow_copyAcross s.lit hout _ _

theorem outputProgress_refStep {s : State} (hst : s.st = .busy) (hle : s.decompPos.toNat ≤ s.outLen.toNat)
    (hout : s.out.WrittenBelow s.decompPos.toNat) (source m : Nat) :
    OutputProgress s.outLen.toNat (refStep source m s) := by
  rcases refStep_cases source m s with ⟨-, e⟩ | ⟨-, e⟩ <;> rw [e]
  · exact .faulted _ _ (by decide)
  · have hcursor : (refCopied source m s).decompPos.toNat = _ := copyCursor_toNat (s.cfg.saturated m + 2) hle
    refine outputProgress_afterCopy (c := refCopied source m s) hst rfl ?_ ?_ <;> rw [hcursor]
    · show _ ≤ s.outLen.toNat
      omega
    · exact writtenBelow_copyWithin hout _ _

theorem outputProgress_cmdbitStep {s : State} (hst : s.st = .busy) (hle : s.decompPos.toNat ≤ s.outLen.toNat)
    (hout : s.out.WrittenBelow s.decompPos.toNat) (c : Bool) : OutputProgress s.outLen.toNat (cmdbitStep c s) := by
  rcases cmdbitStep_cases c s with ⟨-, e⟩ | ⟨-, e⟩ <;> rw [e]
  · exact .running hst rfl rfl hle hout
  · exact .running hst rfl rfl hle hout

/-- Every token of the block keeps it. -/
theorem engineStep_outputProgress {u : Nat} {s : State} (h : OutputProgress u s) (hb : s.st = .busy) :
    OutputProgress u (engineStep s) := by
  cases h with
  | running _ hphase hu hle hout =>
    subst hu
    cases hp : s.phase with
    | lit =>
      rw [(engineStep_lit hp).1]
      exact outputProgress_litStep (s := s.advance _) hb hle hout _
    | ref =>
      rcases engineStep_ref hp with ⟨-, e⟩ | ⟨-, m, k, -, -, -, e⟩ <;> rw [e]
      · exact .faulted _ _ (by decide)
      · exact outputProgress_refStep (s := s.advance _) hb hle hout _ _
    | cmdbit =>
      rcases engineStep_cmdbit hp with ⟨-, e⟩ | ⟨-, e⟩ <;> rw [e]
      · exact .faulted _ _ (by decide)
      · exact outputProgress_cmdbitStep (s := s.advance _) hb hle hout _
    | _ => rw [hp] at hphase; cases hphase
  | complete hst => cases hst.symm.trans hb
  | faulted => cases hb

/-- What O31 says of the end of a `DECOMP` that was let through. -/
def State.DecompOutcome (s t : State) : Prop :=
  t.st = .idle ∧ t.done = true ∧ t.litV = true ∧ t.outV = true ∧ t.decompPos = t.outLen
      ∧ t.outLen.toNat = 256 * (s.src.read 0).toNat + (s.src.read 1).toNat
      ∧ (∀ k, (t.out.lookup k).isSome = true ↔ k < t.outLen.toNat)
    ∨ t.st = .fault ∧ t.done = false ∧ t.litV = false ∧ t.outV = false ∧ t.errCode = 2#4
      ∧ t.errOp = 0x10#8 ∧ t.errInfo ∈ [0x01#8, 0x02#8, 0x03#8, 0x04#8]
      ∧ (s.srcLen.toNat < 4 → t.errInfo = 0x01#8)

/-- `ERR` of a failed `DECOMP` (R150, R247). -/
theorem decompFault_err (info : Info) (s : State) :
    (decompFault info s).errCode = 2#4 ∧ (decompFault info s).errOp = 0x10#8
      ∧ (decompFault info s).errInfo = info.code := by
  obtain ⟨hcode, hinfo, hop, -⟩ := raise_fields .corruptStream info 0x10#8 s
  exact ⟨hcode, hop, hinfo⟩

theorem decompOutcome_of_fault (s t : State) {info : Info}
    (hinfo : info ∈ [Info.underrun, .badHeader, .literalOverrun, .backrefUnwritten])
    (hshort : s.srcLen.toNat < 4 → info = .underrun) : s.DecompOutcome (decompFault info t) := by
  obtain ⟨hcode, hop, herr⟩ := decompFault_err info t
  refine .inr ⟨rfl, rfl, rfl, rfl, hcode, hop, ?_, fun h => ?_⟩
  · rw [herr]; exact List.mem_map_of_mem (f := Info.code) hinfo
  · rw [herr, hshort h]; rfl

theorem decompOutcome_of_progress {s t : State} (h : OutputProgress s.blockLength t) (hend : t.st ≠ .busy)
    (hlong : 4 ≤ s.srcLen.toNat) : s.DecompOutcome t := by
  cases h with
  | running hst => exact absurd hst hend
  | complete hst hdone hlitV houtV hu hdp hout => exact .inl ⟨hst, hdone, hlitV, houtV, hdp, hu, hdp ▸ hout⟩
  | faulted info t hinfo => exact decompOutcome_of_fault s t hinfo (by omega)

theorem framed_outputProgress {s : State} (hb : s.st = .busy) (p : Nat) :
    OutputProgress s.blockLength (s.framed p) :=
  .running hb rfl (s.framed_outLen p) (Nat.zero_le _) (writtenBelow_unspecified _)

/-- Settles O31: the header faults or frames the block, and then every token keeps the output's progress. -/
theorem decompExactOutput : Obligations.DecompExactOutput := by
  unfold Obligations.DecompExactOutput
  intro s hidle
  by_cases hcap : s.srcLen.toNat ≤ s.cfg.srcCap
  · refine ⟨_, exec_decomp_run hidle hcap, .inr (decompRun_endsIn (Q := s.DecompOutcome) rfl ?_)⟩
    rcases framing_cases s.accept with ⟨-, e⟩ | ⟨hlong, -, e⟩ | ⟨p, -, hthere, e⟩ <;> rw [e]
    · exact endsOnlyIn_of_ended nofun (decompOutcome_of_fault s _ (by decide) fun _ => rfl)
    · exact endsOnlyIn_of_ended nofun
        (decompOutcome_of_fault s _ (by decide) fun hshort => absurd hlong (Nat.not_le_of_lt hshort))
    · have hlong : 4 ≤ s.srcLen.toNat := Nat.le_trans (Nat.le_add_right 4 p) hthere
      exact endsOnlyIn_of_keeps (fun _ h hb => engineStep_outputProgress h hb)
        (fun _ h hend => decompOutcome_of_progress (s := s) h hend hlong) (framed_outputProgress (s := s.accept) rfl p)
  · have hover := Nat.lt_of_not_le hcap
    exact ⟨_, exec_decomp_overCapacity hidle hover, .inl ⟨hover, rfl⟩⟩

/-! ## An empty output (R153) -/

/-- A literal step that finds the output complete copies nothing (R143). -/
theorem litCopied_of_complete {s : State} (h : s.decompPos = s.outLen) (n : Nat) : litCopied n s = s := by
  have hzero : min (s.cfg.saturated n) (s.outLen.toNat - s.decompPos.toNat) = 0 := by
    rw [h, Nat.sub_self, Nat.min_zero]
  rw [litCopied, hzero, BitVec.add_zero, BitVec.add_zero]
  rfl

theorem litStep_of_complete {s : State} (h : s.decompPos = s.outLen) (hdata : s.dataPos.toNat ≤ s.litLen.toNat)
    (n : Nat) : litStep n s = decompDone s := by
  rcases litStep_cases n s with ⟨hover, -⟩ | ⟨-, e⟩
  · rw [h] at hover; omega
  · rw [e, litCopied_of_complete h, afterCopy, if_pos h]

/-- The literal step of a block that declares no output. -/
theorem engineStep_framed_empty {s : State} (hu : s.blockLength = 0) (p : Nat) :
    engineStep (s.framed p) = decompDone ((s.framed p).advance (s.framed p).readVarint.2) := by
  rw [(engineStep_lit rfl).1, litStep_of_complete _ (Nat.zero_le _)]
  show 0#32 = BitVec.ofNat 32 s.blockLength
  rw [hu]

/-- The whole run on such a block. -/
theorem decompRun_empty {s : State} {p : Nat} (hb : s.st = .busy) (hu : s.blockLength = 0)
    (hv : s.blockField = p + 2) (hthere : 4 + p ≤ s.srcLen.toNat) :
    engineRun decompFuel (decompStart s) = decompDone ((s.framed p).advance (s.framed p).readVarint.2) := by
  refine decompRun_endsIn (Q := (· = decompDone ((s.framed p).advance (s.framed p).readVarint.2))) hb ?_
  rw [engineStep_framed hv hthere]
  refine endsOnlyIn_of_step hb ?_
  rw [engineStep_framed_empty hu]
  exact endsOnlyIn_of_ended nofun rfl

/-- Settles O34: the framing, then a literal step that copies nothing. -/
theorem decompEmptyOutput : Obligations.DecompEmptyOutput := by
  unfold Obligations.DecompEmptyOutput
  intro s p hsound hidle hcap hthere hp hu0 hu1 hv
  have hu : s.accept.blockLength = 0 := by
    show 256 * (s.src.read 0).toNat + (s.src.read 1).toNat = 0
    rw [hu0, hu1]; rfl
  have hpos : (s.accept.framed p).bitPos.toNat = 32 + 8 * p := s.accept.framed_bitPos hp
  have hrem : (s.accept.framed p).rem = 8 * (s.srcLen.toNat - (4 + p)) := by
    rw [State.rem, hpos]
    show 8 * s.srcLen.toNat - (32 + 8 * p) = _
    omega
  have hread : (s.accept.framed p).readVarint
      = varintFrom s.streamBit (8 * (s.srcLen.toNat - (4 + p))) (32 + 8 * p) 1 := by
    rw [State.readVarint, hrem, hpos]; rfl
  have hwithin : (s.accept.framed p).readVarint.2 ≤ (s.accept.framed p).rem := varintFrom_consumed_le ..
  have hrun := exec_decomp_run hidle hcap
  rw [decompRun_empty rfl hu hv hthere] at hrun
  refine ⟨_, hrun, rfl, rfl, rfl, rfl,
    congrArg (BitVec.ofNat 32) hu, rfl, rfl, s.accept.framed_litLen hp, fun i hi => s.accept.framed_lit_lookup hi,
    fun _ => rfl, ?_⟩
  rw [← hread, ← hpos]
  exact State.advance_toNat (State.srcBits_lt (s := s.accept.framed p) hsound hcap) hwithin

end Sys2Proof.Machine

/-! PROOFS, the decompressor family, part 3: the tokens of a block whose header declares its output, and two runs on the
same block (O33). -/

namespace Sys2Proof.Machine

open Sys2Proof

/-! ## The token that is due (R100) -/

/-- The place of the grammar that a phase names. -/
def Phase.due : Phase → Option StreamDue
  | .header => some .header
  | .lit => some .lit
  | .ref => some .ref
  | .cmdbit => some .cmdbit
  | .varint _ => some .varint
  | .none | .colour _ | .entry _ => Option.none

theorem engineFetch_of_due {s : State} {due : StreamDue} (h : s.phase.due = some due) :
    engineFetch s = fetchToken due s := by
  cases hp : s.phase <;> rw [hp] at h <;> cases h <;> simp only [engineFetch, hp]

theorem engineStep_of_token {s : State} {due : StreamDue} {i : Instr} {n : Nat} (h : s.phase.due = some due)
    (hd : decodeToken due s.decompPos.toNat s.streamBit s.bitPos.toNat s.rem = .ok (i, n)) :
    engineStep s = runToken i (s.advance n) := by
  rw [engineStep, engineFetch_of_due h, fetchToken_of_decodeToken hd]

theorem engineStep_of_noToken {s : State} {due : StreamDue} {e : DecodeError} (h : s.phase.due = some due)
    (hd : decodeToken due s.decompPos.toNat s.streamBit s.bitPos.toNat s.rem = .error e) :
    engineStep s = decompFault .underrun s := by
  rw [engineStep, engineFetch_of_due h, fetchToken, hd]

/-- Inside a block the token due is a step or a command bit. -/
theorem Phase.due_of_inBlock {p : Phase} (h : p.inBlock = true) :
    ∃ due, p.due = some due ∧ due ≠ .header ∧ due ≠ .varint := by
  cases p with
  | lit | ref | cmdbit => exact ⟨_, rfl, by decide, by decide⟩
  | _ => cases h

/-- What a token read answers depends on the bits that are left only. -/
theorem decodeToken_congr {due : StreamDue} {dp pos rem : Nat} {bit bit' : Nat → Bool}
    (h : ∀ i, i < rem → bit (pos + i) = bit' (pos + i)) :
    decodeToken due dp bit pos rem = decodeToken due dp bit' pos rem := by
  cases due with
  | header =>
    by_cases hr : rem < 32
    · simp only [decodeToken, if_pos hr]
    · have hu : bitsValue bit pos 16 = bitsValue bit' pos 16 := bitsValue_congr fun i hi => h i (by omega)
      have hv : bitsValue bit (pos + 16) 16 = bitsValue bit' (pos + 16) 16 :=
        bitsValue_congr fun i hi => by rw [Nat.add_assoc]; exact h (16 + i) (by omega)
      simp only [decodeToken, hu, hv]
  | ref =>
    by_cases hr : rem < bitlen dp
    · simp only [decodeToken, if_pos hr]
    · have hsource : bitsValue bit pos (bitlen dp) = bitsValue bit' pos (bitlen dp) :=
        bitsValue_congr fun i hi => h i (by omega)
      have hm : varintFrom bit (rem - bitlen dp) (pos + bitlen dp) varintInit
          = varintFrom bit' (rem - bitlen dp) (pos + bitlen dp) varintInit :=
        varintFrom_congr fun i hi => by rw [Nat.add_assoc]; exact h (bitlen dp + i) (by omega)
      simp only [decodeToken, hsource, hm]
  | cmdbit =>
    by_cases hr : rem < 1
    · simp only [decodeToken, if_pos hr]
    · have hbit : bit pos = bit' pos := h 0 (by omega)
      simp only [decodeToken, hbit]
  | lit => simp only [decodeToken, varintFrom_congr h]
  | varint => simp only [decodeToken, varintFrom_congr h]

/-! ## The copying steps of a block (R143, R144)

A header declares at most 65535 bytes, so `VARINT_W` never shows (U8): the amount is the varint's, clamped. -/

/-- `a` payload bytes copied to the output, both cursors moved. -/
def State.copyLiteral (s : State) (a : Nat) : State :=
  { s with
    out := copyAcross s.lit a s.dataPos.toNat s.decompPos.toNat s.out
    decompPos := s.decompPos + BitVec.ofNat 32 a
    dataPos := s.dataPos + BitVec.ofNat 32 a }

/-- `a` output bytes from `source` on copied to the output, its cursor moved. -/
def State.copyReference (s : State) (source a : Nat) : State :=
  { s with
    out := copyWithin a source s.decompPos.toNat s.out
    decompPos := s.decompPos + BitVec.ofNat 32 a }

theorem litStep_declared {s : State} (hu : s.outLen.toNat ≤ 65535) (n : Nat) {a : Nat}
    (ha : a = min n (s.outLen.toNat - s.decompPos.toNat)) :
    (s.litLen.toNat < s.dataPos.toNat + a ∧ litStep n s = decompFault .literalOverrun s)
    ∨ (s.dataPos.toNat + a ≤ s.litLen.toNat ∧ litStep n s = afterCopy .ref (s.copyLiteral a)) := by
  have hsat : min (s.cfg.saturated n) (s.outLen.toNat - s.decompPos.toNat) = a :=
    (s.cfg.saturated_min n 0 (by omega)).trans ha.symm
  have hcases := litStep_cases n s
  rwa [litCopied, hsat] at hcases

theorem refStep_declared {s : State} (hu : s.outLen.toNat ≤ 65535) (source m : Nat) {a : Nat}
    (ha : a = min (m + 2) (s.outLen.toNat - s.decompPos.toNat)) :
    (s.decompPos.toNat ≤ source ∧ refStep source m s = decompFault .backrefUnwritten s)
    ∨ (source < s.decompPos.toNat ∧ refStep source m s = afterCopy .cmdbit (s.copyReference source a)) := by
  have hsat : min (s.cfg.saturated m + 2) (s.outLen.toNat - s.decompPos.toNat) = a :=
    (s.cfg.saturated_min m 2 (by omega)).trans ha.symm
  have hcases := refStep_cases source m s
  rwa [refCopied, hsat] at hcases

/-- A cursor moved within a length that its register holds does not wrap. -/
theorem cursor_add_toNat {w u : Word} {a : Nat} (h : w.toNat + a ≤ u.toNat) :
    (w + BitVec.ofNat 32 a).toNat = w.toNat + a := by
  have := u.isLt
  rw [BitVec.toNat_add, BitVec.toNat_ofNat]
  omega

/-! ## Two decompressions of the same block -/

/-- Two states inside the same block: the same stream, the same `LIT_BIT`, the same cursors and lengths, the same
payload and the same output so far. -/
structure BlockAgree (s t : State) : Prop where
  litBit : s.cfg.litBit = t.cfg.litBit
  srcLen : s.srcLen = t.srcLen
  src : ∀ i, i < s.srcLen.toNat → s.src.read i = t.src.read i
  phase : s.phase = t.phase
  bitPos : s.bitPos = t.bitPos
  litLen : s.litLen = t.litLen
  dataPos : s.dataPos = t.dataPos
  outLen : s.outLen = t.outLen
  decompPos : s.decompPos = t.decompPos
  nextCmd : s.nextCmd = t.nextCmd
  within : s.decompPos.toNat ≤ s.outLen.toNat
  declared : s.outLen.toNat ≤ 65535
  lit : ∀ i, i < s.litLen.toNat → s.lit.read i = t.lit.read i
  out : ∀ i, i < s.decompPos.toNat → s.out.read i = t.out.read i

/-- Two decompressions of the same block, token by token: both inside it and agreeing, both at its end, or both in the
same fault. -/
inductive RunsAgree : State → State → Prop
  | running {s t : State} (hs : s.st = .busy) (ht : t.st = .busy) (hin : s.phase.inBlock = true)
      (h : BlockAgree s t) : RunsAgree s t
  | complete {s t : State} (hs : s.st = .idle) (ht : t.st = .idle) (h : BlockAgree s t)
      (hend : s.decompPos = s.outLen) : RunsAgree s t
  | faulted (info : Info) (s t : State) : RunsAgree (decompFault info s) (decompFault info t)

theorem BlockAgree.atPhase {s t : State} (h : BlockAgree s t) (p : Phase) :
    BlockAgree { s with phase := p } { t with phase := p } :=
  { h with phase := rfl }

theorem BlockAgree.select {s t : State} (h : BlockAgree s t) (cmd : Word) (p : Phase) :
    BlockAgree { s with nextCmd := cmd, phase := p } { t with nextCmd := cmd, phase := p } :=
  { h with phase := rfl, nextCmd := rfl }

theorem BlockAgree.decompDone {s t : State} (h : BlockAgree s t) : BlockAgree (decompDone s) (decompDone t) :=
  { h with phase := rfl }

theorem BlockAgree.advance {s t : State} (h : BlockAgree s t) (n : Nat) : BlockAgree (s.advance n) (t.advance n) :=
  { h with bitPos := congrArg (· + BitVec.ofNat 32 n) h.bitPos }

/-- A copy of at most what is left, whose bytes are the same in both. -/
theorem BlockAgree.copied {s t : State} (h : BlockAgree s t) {a : Nat}
    (ha : s.decompPos.toNat + a ≤ s.outLen.toNat) {out out' : Memory 8} {dataPos dataPos' : Word}
    (hdata : dataPos = dataPos')
    (hout : ∀ i, i < s.decompPos.toNat + a → out.read i = out'.read i) :
    BlockAgree { s with out := out, decompPos := s.decompPos + BitVec.ofNat 32 a, dataPos := dataPos }
      { t with out := out', decompPos := t.decompPos + BitVec.ofNat 32 a, dataPos := dataPos' } := by
  have hcursor := cursor_add_toNat ha
  exact { h with
    dataPos := hdata
    decompPos := congrArg (· + BitVec.ofNat 32 a) h.decompPos
    within := Nat.le_trans (Nat.le_of_eq hcursor) ha
    out := fun i hi => hout i (Nat.lt_of_lt_of_eq hi hcursor) }

theorem BlockAgree.copyLiteral {s t : State} (h : BlockAgree s t) {a : Nat}
    (ha : s.decompPos.toNat + a ≤ s.outLen.toNat) (hdata : s.dataPos.toNat + a ≤ s.litLen.toNat) :
    BlockAgree (s.copyLiteral a) (t.copyLiteral a) := by
  refine h.copied ha (congrArg (· + BitVec.ofNat 32 a) h.dataPos) fun i hi => ?_
  rw [← h.dataPos, ← h.decompPos]
  by_cases hnew : i < s.decompPos.toNat
  · rw [read_copyAcross_outside _ _ _ (.inl hnew), read_copyAcross_outside _ _ _ (.inl hnew), h.out i hnew]
  · obtain ⟨j, rfl⟩ := Nat.exists_eq_add_of_le (Nat.le_of_not_lt hnew)
    rw [read_copyAcross_inside _ _ _ _ (by omega), read_copyAcross_inside _ _ _ _ (by omega), h.lit _ (by omega)]

theorem BlockAgree.copyReference {s t : State} (h : BlockAgree s t) {source a : Nat}
    (ha : s.decompPos.toNat + a ≤ s.outLen.toNat) (hsource : source < s.decompPos.toNat) :
    BlockAgree (s.copyReference source a) (t.copyReference source a) := by
  refine h.copied ha h.dataPos fun i hi => ?_
  rw [← h.decompPos]
  by_cases hnew : i < s.decompPos.toNat
  · rw [read_copyWithin_outside _ _ (.inl hnew), read_copyWithin_outside _ _ (.inl hnew), h.out i hnew]
  · obtain ⟨j, rfl⟩ := Nat.exists_eq_add_of_le (Nat.le_of_not_lt hnew)
    have hperiod : j % (s.decompPos.toNat - source) < s.decompPos.toNat - source := Nat.mod_lt _ (by omega)
    rw [read_copyWithin_inside _ hsource (by omega), read_copyWithin_inside _ hsource (by omega), h.out _ (by omega)]

theorem runsAgree_afterCopy {s t : State} (h : BlockAgree s t) (hs : s.st = .busy) (ht : t.st = .busy) {next : Phase}
    (hnext : next.inBlock = true) : RunsAgree (afterCopy next s) (afterCopy next t) := by
  by_cases hend : s.decompPos = s.outLen
  · rw [afterCopy, if_pos hend, afterCopy, if_pos (h.decompPos ▸ h.outLen ▸ hend)]
    exact .complete rfl rfl h.decompDone hend
  · rw [afterCopy, if_neg hend, afterCopy, if_neg (h.decompPos ▸ h.outLen ▸ hend)]
    exact .running hs ht hnext (h.atPhase next)

theorem runsAgree_litStep {s t : State} (h : BlockAgree s t) (hs : s.st = .busy) (ht : t.st = .busy) (n : Nat) :
    RunsAgree (litStep n s) (litStep n t) := by
  have hamount := congrArg (min n) (congrArg₂ (fun u dp : Word => u.toNat - dp.toNat) h.outLen h.decompPos)
  rcases litStep_declared h.declared n rfl with ⟨hover, e⟩ | ⟨hdata, e⟩ <;>
    rcases litStep_declared (h.outLen ▸ h.declared) n hamount with ⟨hover', e'⟩ | ⟨hdata', e'⟩ <;>
    rw [e, e']
  · exact .faulted ..
  · rw [← h.dataPos, ← h.litLen] at hdata'; omega
  · rw [← h.dataPos, ← h.litLen] at hover'; omega
  · have := h.within
    exact runsAgree_afterCopy (h.copyLiteral (by omega) hdata) hs ht rfl

theorem runsAgree_refStep {s t : State} (h : BlockAgree s t) (hs : s.st = .busy) (ht : t.st = .busy)
    (source m : Nat) : RunsAgree (refStep source m s) (refStep source m t) := by
  have hamount := congrArg (min (m + 2)) (congrArg₂ (fun u dp : Word => u.toNat - dp.toNat) h.outLen h.decompPos)
  rcases refStep_declared h.declared source m rfl with ⟨hunwritten, e⟩ | ⟨hsource, e⟩ <;>
    rcases refStep_declared (h.outLen ▸ h.declared) source m hamount with ⟨hunwritten', e'⟩ | ⟨hsource', e'⟩ <;>
    rw [e, e']
  · exact .faulted ..
  · rw [← h.decompPos] at hsource'; omega
  · rw [← h.decompPos] at hunwritten'; omega
  · have := h.within
    exact runsAgree_afterCopy (h.copyReference (by omega) hsource) hs ht rfl

theorem runsAgree_cmdbitStep {s t : State} (h : BlockAgree s t) (hs : s.st = .busy) (ht : t.st = .busy) (c : Bool) :
    RunsAgree (cmdbitStep c s) (cmdbitStep c t) := by
  by_cases hc : c = s.cfg.litBit
  · rw [cmdbitStep, if_pos hc, cmdbitStep, if_pos (h.litBit ▸ hc)]
    exact .running hs ht rfl (h.select ..)
  · rw [cmdbitStep, if_neg hc, cmdbitStep, if_neg (h.litBit ▸ hc)]
    exact .running hs ht rfl (h.select ..)

/-- Both read the same token, or both find too few bits for it. -/
theorem BlockAgree.token {s t : State} (h : BlockAgree s t) (due : StreamDue) :
    decodeToken due s.decompPos.toNat s.streamBit s.bitPos.toNat s.rem
      = decodeToken due t.decompPos.toNat t.streamBit t.bitPos.toNat t.rem := by
  have hrem : s.rem = t.rem := by rw [State.rem, State.rem, State.srcBits, State.srcBits, h.srcLen, h.bitPos]
  rw [← h.decompPos, ← h.bitPos, ← hrem]
  refine decodeToken_congr fun i hi => ?_
  rw [State.rem, State.srcBits] at hi
  rw [State.streamBit, State.streamBit, h.src _ (by omega)]

/-- Every token of the block keeps the agreement. -/
theorem runsAgree_engineStep {s t : State} (h : RunsAgree s t) (hb : s.st = .busy) :
    RunsAgree (engineStep s) (engineStep t) := by
  cases h with
  | running hs ht hin h =>
    obtain ⟨due, hdue, hheader, hvarint⟩ := Phase.due_of_inBlock hin
    have hdue' : t.phase.due = some due := h.phase ▸ hdue
    have htoken := h.token due
    cases hd : decodeToken due s.decompPos.toNat s.streamBit s.bitPos.toNat s.rem with
    | error e =>
      rw [engineStep_of_noToken hdue hd, engineStep_of_noToken hdue' (htoken ▸ hd)]
      exact .faulted ..
    | ok r =>
      obtain ⟨i, n⟩ := r
      rw [engineStep_of_token hdue hd, engineStep_of_token hdue' (htoken ▸ hd)]
      rcases (decodeToken_cases hd).2 with ⟨e, -⟩ | ⟨-, v, rfl, -⟩ | ⟨-, m, k, rfl, -⟩ | ⟨-, -, rfl⟩ | ⟨e, -⟩
      · exact absurd e hheader
      · exact runsAgree_litStep (h.advance n) hs ht v
      · exact runsAgree_refStep (h.advance n) hs ht _ m
      · exact runsAgree_cmdbitStep (h.advance n) hs ht _
      · exact absurd e hvarint
  | complete hs => cases hs.symm.trans hb
  | faulted => cases hb

theorem RunsAgree.st_eq {s t : State} (h : RunsAgree s t) : s.st = t.st := by
  cases h with
  | running hs ht => rw [hs, ht]
  | complete hs ht => rw [hs, ht]
  | faulted => rfl

theorem runsAgree_engineRun (n : Nat) {s t : State} (h : RunsAgree s t) :
    RunsAgree (engineRun n s) (engineRun n t) := by
  induction n generalizing s t with
  | zero => exact h
  | succ n ih =>
    by_cases hb : s.st = .busy
    · rw [engineRun_succ hb, engineRun_succ (h.st_eq ▸ hb)]
      exact ih (runsAgree_engineStep h hb)
    · rwa [engineRun_ended hb, engineRun_ended (h.st_eq ▸ hb)]

/-! ## The framing of the same block -/

/-- Two accepted `DECOMP`s of the same block agree from its framing on. -/
theorem runsAgree_framing {s t : State} (hs : s.st = .busy) (ht : t.st = .busy)
    (hlitBit : s.cfg.litBit = t.cfg.litBit) (hsrcLen : s.srcLen = t.srcLen)
    (hsrc : ∀ i, i < s.srcLen.toNat → s.src.read i = t.src.read i) :
    RunsAgree (engineStep (decompStart s)) (engineStep (decompStart t)) := by
  have hlen : s.srcLen.toNat = t.srcLen.toNat := congrArg BitVec.toNat hsrcLen
  have hlength : 4 ≤ s.srcLen.toNat → s.blockLength = t.blockLength := fun h => by
    rw [State.blockLength, State.blockLength, hsrc 0 (by omega), hsrc 1 (by omega)]
  have hfield : 4 ≤ s.srcLen.toNat → s.blockField = t.blockField := fun h => by
    rw [State.blockField, State.blockField, hsrc 2 (by omega), hsrc 3 (by omega)]
  rcases framing_cases s with ⟨hm, e⟩ | ⟨hl, hbad, e⟩ | ⟨p, hp, hthere, e⟩ <;>
    rcases framing_cases t with ⟨hm', e'⟩ | ⟨hl', hbad', e'⟩ | ⟨p', hp', hthere', e'⟩
  · rw [e, e']; exact .faulted ..
  · omega
  · omega
  · omega
  · rw [e, e']; exact .faulted ..
  · omega
  · omega
  · omega
  · obtain rfl : p = p' := by omega
    have hu := hlength (by omega)
    rw [e, e']
    refine .running hs ht rfl ⟨hlitBit, hsrcLen, hsrc, rfl, rfl, rfl, rfl, congrArg (BitVec.ofNat 32) hu, rfl, rfl,
      Nat.zero_le _, ?_, fun i hi => ?_, nofun⟩
    · rw [s.framed_outLen p]
      exact Nat.le_of_lt_succ s.blockLength_lt
    · have hip : i < p := Nat.lt_of_lt_of_le hi (toNat_ofNat_le p)
      rw [Memory.read_of_lookup (s.framed_lit_lookup hip), Memory.read_of_lookup (t.framed_lit_lookup hip),
        hsrc _ (by omega)]

/-- What agreeing runs agree on where they end. -/
theorem RunsAgree.ends {t t' : State} (h : RunsAgree t t') (hend : t.st ≠ .busy) :
    t.st = t'.st ∧ (t.st = .fault → t.err = t'.err)
      ∧ (t.st = .idle → t.outLen = t'.outLen ∧ t.litLen = t'.litLen ∧ t.bitPos = t'.bitPos ∧ t.dataPos = t'.dataPos
          ∧ t.nextCmd = t'.nextCmd ∧ (∀ i, i < t.outLen.toNat → t.out.read i = t'.out.read i)) := by
  refine ⟨h.st_eq, fun hfault => ?_, fun hok => ?_⟩
  · cases h with
    | running hs => exact absurd hs hend
    | complete hs => cases hs.symm.trans hfault
    | faulted => rfl
  · cases h with
    | running hs => exact absurd hs hend
    | complete _ _ h hcomplete =>
      exact ⟨h.outLen, h.litLen, h.bitPos, h.dataPos, h.nextCmd, fun i hi => h.out i (hcomplete ▸ hi)⟩
    | faulted => cases hok

theorem decompRun_eq {s : State} (hb : s.st = .busy) :
    engineRun decompFuel (decompStart s) = engineRun (2 * 65535 + 3) (engineStep (decompStart s)) :=
  engineRun_succ (s := decompStart s) hb _

/-- Settles O33: both runs agree from the framing on, so they agree where they end. -/
theorem decompDependsOnlyOnBlock : Obligations.DecompDependsOnlyOnBlock := by
  unfold Obligations.DecompDependsOnlyOnBlock
  intro s s' t t' hidle hidle' hlitBit hsrcLen hcap hcap' hsrc ht ht'
  have hagree : RunsAgree (engineRun decompFuel (decompStart s.accept))
      (engineRun decompFuel (decompStart s'.accept)) := by
    rw [decompRun_eq rfl, decompRun_eq rfl]
    exact runsAgree_engineRun _ (runsAgree_framing rfl rfl hlitBit hsrcLen hsrc)
  obtain rfl := Host.Outcome.next.inj ((exec_decomp_run hidle hcap).symm.trans ht)
  obtain rfl := Host.Outcome.next.inj ((exec_decomp_run hidle' hcap').symm.trans ht')
  exact hagree.ends (decompRun_ends s.accept)

end Sys2Proof.Machine

/-! PROOFS, the decompressor family, part 4: a block assembled from a stream program (O32). The assembled bits stand in
SRC behind the payload; each step of the program is read back as its token and extends the output as the program says;
the whole is an induction over the steps. -/

namespace Sys2Proof.Machine

open Sys2Proof

/-! ## Lists of bytes in a memory -/

theorem Memory.Holds.read {m : Memory 8} {l : List Byte} (h : m.Holds l) {i : Nat} (hi : i < l.length) :
    m.read i = l.getD i 0#8 :=
  Memory.read_of_lookup (h i hi)

theorem Memory.holds_nil (m : Memory 8) : m.Holds [] := nofun

theorem Memory.Holds.write_next {m : Memory 8} {l : List Byte} (h : m.Holds l) (b : Byte) :
    (m.write l.length b).Holds (l ++ [b]) := by
  intro i hi
  rw [List.length_append, List.length_singleton] at hi
  by_cases hlast : i = l.length
  · subst hlast
    rw [Memory.lookup_write_same, List.getD_append_right _ _ _ _ (Nat.le_refl _), Nat.sub_self]
    rfl
  · have hl : i < l.length := by omega
    rw [Memory.lookup_write_other _ hlast, h i hl, List.getD_append _ _ _ _ hl]

theorem take_drop_length {data : List Byte} {p a : Nat} (h : p + a ≤ data.length) :
    ((data.drop p).take a).length = a := by
  rw [List.length_take, List.length_drop]; omega

/-- The literal copy appends payload bytes (R143). -/
theorem Memory.Holds.copyAcross {src m : Memory 8} {data out : List Byte} (hsrc : src.Holds data) (hm : m.Holds out)
    {p a : Nat} (h : p + a ≤ data.length) :
    (copyAcross src a p out.length m).Holds (out ++ (data.drop p).take a) := by
  intro i hi
  rw [List.length_append, take_drop_length h] at hi
  rw [lookup_copyAcross]
  by_cases hold : i < out.length
  · rw [if_neg (by omega), hm i hold, List.getD_append _ _ _ _ hold]
  · have hnew : i - out.length < a := by omega
    rw [if_pos (by omega), hsrc.read (by omega), List.getD_append_right _ _ _ _ (by omega)]
    simp only [List.getD_eq_getElem?_getD, List.getElem?_take, if_pos hnew, List.getElem?_drop]

theorem extendFrom_length (n source : Nat) (out : List Byte) : (extendFrom n source out).length = out.length + n := by
  induction n generalizing source out with
  | zero => rfl
  | succ n ih => rw [extendFrom, ih, List.length_append, List.length_singleton]; omega

/-- The overlapping copy lengthens the output byte by byte (R146). -/
theorem Memory.Holds.copyWithin {m : Memory 8} {out : List Byte} (hm : m.Holds out) (n : Nat) {source : Nat}
    (h : source < out.length) : (copyWithin n source out.length m).Holds (extendFrom n source out) := by
  induction n generalizing source out m with
  | zero => exact hm
  | succ n ih =>
    have hnext := ih (hm.write_next (out.getD source 0#8)) (source := source + 1)
      (by rw [List.length_append, List.length_singleton]; omega)
    rw [List.length_append, List.length_singleton] at hnext
    rwa [Sys2Proof.Machine.copyWithin, hm.read h, extendFrom]

/-- The bytes `l` stand at `a`. -/
def Memory.HoldsAt (m : Memory 8) (a : Nat) (l : List Byte) : Prop :=
  ∀ i, i < l.length → m.read (a + i) = l.getD i 0#8

theorem Memory.Holds.holdsAt {m : Memory 8} {l : List Byte} (h : m.Holds l) : m.HoldsAt 0 l := fun i hi => by
  rw [Nat.zero_add, h.read hi]

theorem Memory.holdsAt_append {m : Memory 8} {a : Nat} {l r : List Byte} (h : m.HoldsAt a (l ++ r)) :
    m.HoldsAt a l ∧ m.HoldsAt (a + l.length) r := by
  refine ⟨fun i hi => ?_, fun i hi => ?_⟩
  · rw [h i (by rw [List.length_append]; omega), List.getD_append _ _ _ _ hi]
  · rw [Nat.add_assoc, h (l.length + i) (by rw [List.length_append]; omega),
      List.getD_append_right _ _ _ _ (Nat.le_add_right ..), Nat.add_sub_cancel_left]

/-! ## The assembled block in SRC (R110) -/

theorem packBits_length (l : List Bool) : (packBits l).length = (l.length + 7) / 8 := by
  rw [packBits, List.length_map, List.length_range]

/-- Bit `j` of a packed list stands in byte `j div 8`, the first one most significant. -/
theorem packBits_getLsbD {l : List Bool} {j : Nat} (h : j < l.length) :
    ((packBits l).getD (j / 8) 0#8).getLsbD (7 - j % 8) = l.getD j false := by
  have hbyte : j / 8 < (l.length + 7) / 8 := by omega
  have hbit := bitsValue_testBit (fun k => l.getD k false) (8 * (j / 8)) (n := 8) (i := j % 8) (by omega)
  rw [show 8 * (j / 8) + j % 8 = j by omega] at hbit
  rw [packBits, List.getD_eq_getElem?_getD, List.getElem?_map, List.getElem?_range hbyte]
  show (BitVec.ofNat 8 (bitsValue (fun k => l.getD k false) (8 * (j / 8)) 8)).getLsbD (7 - j % 8) = _
  rw [BitVec.getLsbD_ofNat, decide_eq_true (show 7 - j % 8 < 8 by omega), Bool.true_and]
  exact hbit

theorem standsAt_packBits {s : State} {a : Nat} {l : List Bool} (h : s.src.HoldsAt a (packBits l)) :
    StandsAt s.streamBit (8 * a) l := by
  intro j hj
  rw [State.streamBit, show (8 * a + j) / 8 = a + j / 8 by omega, show (8 * a + j) % 8 = j % 8 by omega,
    h _ (by rw [packBits_length]; omega), packBits_getLsbD hj]

/-- What `DECOMP` finds in SRC when a block assembled for `u` output bytes stands there. -/
theorem holds_assembleBlock {s : State} {u : Nat} {data : List Byte} {steps : List BlockStep}
    (hu : u ≤ 65535) (hdata : data.length ≤ 65533)
    (h : s.src.Holds (assembleBlock s.cfg.litBit u data steps)) :
    s.blockLength = u ∧ s.blockField = data.length + 2 ∧ s.src.HoldsAt 4 data
      ∧ StandsAt s.streamBit (32 + 8 * data.length) (assembleSteps s.cfg.litBit u .first 0 steps) := by
  obtain ⟨hframe, hbits⟩ := Memory.holdsAt_append h.holdsAt
  obtain ⟨hheader, hpayload⟩ := Memory.holdsAt_append hframe
  have h0 : s.src.read 0 = BitVec.ofNat 8 (u / 256) := hheader 0 (by simp)
  have h1 : s.src.read 1 = BitVec.ofNat 8 u := hheader 1 (by simp)
  have h2 : s.src.read 2 = BitVec.ofNat 8 ((data.length + hdrSelf) / 256) := hheader 2 (by simp)
  have h3 : s.src.read 3 = BitVec.ofNat 8 (data.length + hdrSelf) := hheader 3 (by simp)
  refine ⟨?_, ?_, hpayload, ?_⟩
  · rw [State.blockLength, h0, h1, BitVec.toNat_ofNat, BitVec.toNat_ofNat]; omega
  · rw [State.blockField, h2, h3, BitVec.toNat_ofNat, BitVec.toNat_ofNat, hdrSelf]; omega
  · rw [List.length_append] at hbits
    rw [show 32 + 8 * data.length = 8 * (0 + (4 + data.length)) by omega]
    exact standsAt_packBits hbits

/-! ## Inside an assembled block -/

/-- Where a stream program has come: the output so far, the payload bytes used, `NEXT_CMD`, and `BITPOS`. -/
@[ext] structure BlockView where
  out : List Byte
  dataPos : Nat
  cmd : Word
  pos : Nat

/-- After a literal step `n` (R143). -/
def BlockView.literal (u : Nat) (data : List Byte) (n : Nat) (v : BlockView) : BlockView :=
  { v with
    out := v.out ++ (data.drop v.dataPos).take (min n (u - v.out.length))
    dataPos := v.dataPos + min n (u - v.out.length)
    pos := v.pos + (encodeVarint n).length }

/-- After a back-reference step of length `m` (R144). -/
def BlockView.reference (u source m : Nat) (v : BlockView) : BlockView :=
  { v with
    out := extendFrom (min m (u - v.out.length)) source v.out
    pos := v.pos + (encodeField source (bitlen v.out.length) ++ encodeVarint (m - refBias)).length }

/-- After the command bit `b` before a step, where the place has one; it selects `cmd` (R110, R148). -/
def BlockView.command (place : StepPlace) (b : Bool) (cmd : Word) (v : BlockView) : BlockView :=
  { v with cmd := if place = .afterRef then cmd else v.cmd, pos := v.pos + (commandBits place b).length }

/-- After the steps that stand at `place` (R110). -/
def BlockView.finish (litBit : Bool) (u : Nat) (data : List Byte) (place : StepPlace) (steps : List BlockStep)
    (v : BlockView) : BlockView where
  out := expandSteps u data v.dataPos v.out steps
  dataPos := v.dataPos + literalBytes u v.out.length steps
  cmd := lastCommand place v.cmd steps
  pos := v.pos + (assembleSteps litBit u place v.out.length steps).length

/-- `s` with everything blanked that a `DECOMP` may write and end ok (R152). -/
def State.outsideBlock (s : State) : State := { s.outsideDecomp with err := s.err }

/-- A `DECOMP` that began in `s₀`, inside a block of `u` output bytes with the payload `data`: it has come to `v`, and
the bits `rest` stand next. -/
structure BlockAt (s₀ : State) (u : Nat) (data : List Byte) (v : BlockView) (rest : List Bool) (s : State) : Prop where
  declared : u ≤ 65535
  noWrap : s₀.srcBits < 2 ^ 32
  frame : s.outsideBlock = s₀.outsideBlock
  busy : s.st = .busy
  outLen : s.outLen.toNat = u
  decompPos : s.decompPos.toNat = v.out.length
  within : v.out.length ≤ u
  litLen : s.litLen.toNat = data.length
  dataPos : s.dataPos.toNat = v.dataPos
  nextCmd : s.nextCmd = v.cmd
  bitPos : s.bitPos.toNat = v.pos
  lit : s.lit.Holds data
  out : s.out.Holds v.out
  stands : StandsAt s₀.streamBit v.pos rest
  room : v.pos + rest.length ≤ s₀.srcBits

namespace BlockAt

variable {s₀ s : State} {u : Nat} {data : List Byte} {v : BlockView} {l rest : List Bool}

theorem cfg_eq (h : BlockAt s₀ u data v rest s) : s.cfg = s₀.cfg :=
  (congrArg State.cfg h.frame :)

theorem streamBit_eq (h : BlockAt s₀ u data v rest s) : s.streamBit = s₀.streamBit := by
  have hsrc : s.src = s₀.src := (congrArg State.src h.frame :)
  funext k
  rw [State.streamBit, State.streamBit, hsrc]

theorem srcBits_eq (h : BlockAt s₀ u data v rest s) : s.srcBits = s₀.srcBits :=
  (congrArg State.srcBits h.frame :)

theorem rem_eq (h : BlockAt s₀ u data v rest s) : s.rem = s₀.srcBits - v.pos := by
  rw [State.rem, h.srcBits_eq, h.bitPos]

/-- Reading the bits `l`. -/
theorem advance (h : BlockAt s₀ u data v (l ++ rest) s) :
    BlockAt s₀ u data { v with pos := v.pos + l.length } rest (s.advance l.length) := by
  have hroom := h.room
  rw [List.length_append] at hroom
  have hcursor : (s.bitPos + BitVec.ofNat 32 l.length).toNat = v.pos + l.length := by
    rw [State.advance_toNat (h.srcBits_eq ▸ h.noWrap) (by rw [h.rem_eq]; omega), h.bitPos]
  exact { h with
    frame := h.frame, busy := h.busy, bitPos := hcursor, stands := (standsAt_append.mp h.stands).2
    room := by show v.pos + l.length + rest.length ≤ _; omega }

theorem atPhase (h : BlockAt s₀ u data v rest s) (p : Phase) : BlockAt s₀ u data v rest { s with phase := p } :=
  { h with frame := h.frame }

theorem select (h : BlockAt s₀ u data v rest s) (cmd : Word) (p : Phase) :
    BlockAt s₀ u data { v with cmd := cmd } rest { s with nextCmd := cmd, phase := p } :=
  { h with frame := h.frame, nextCmd := rfl }

/-- The token whose code stands next is read and runs. -/
theorem engineStep_code (h : BlockAt s₀ u data v (l ++ rest) s) {i : Instr} {due : StreamDue}
    (hp : s.phase.due = some due) (hi : dueOf i = some due) (hw : i.wellFormed = true)
    (hfits : fieldFits v.out.length i) (hcode : encode v.out.length i = .bits l) :
    engineStep s = runToken i (s.advance l.length) := by
  have hroom := h.room
  rw [List.length_append] at hroom
  refine engineStep_of_token hp ?_
  rw [h.decompPos, h.streamBit_eq, h.bitPos]
  exact streamTokenDecodeOfEncode _ _ _ _ _ _ _ hw hi hfits hcode (standsAt_append.mp h.stands).1
    (by rw [h.rem_eq]; omega)

/-- `a` bytes more of output, within what the header declares. -/
theorem copied (h : BlockAt s₀ u data v rest s) {a : Nat} (ha : v.out.length + a ≤ u) {out : List Byte}
    {mem : Memory 8} (hlen : out.length = v.out.length + a) (hout : mem.Holds out) {dataPos : Word} {p : Nat}
    (hp : dataPos.toNat = p) :
    BlockAt s₀ u data { v with out := out, dataPos := p } rest
      { s with out := mem, decompPos := s.decompPos + BitVec.ofNat 32 a, dataPos := dataPos } := by
  have hcursor : (s.decompPos + BitVec.ofNat 32 a).toNat = out.length := by
    rw [cursor_add_toNat (u := s.outLen) (by rw [h.decompPos, h.outLen]; exact ha), h.decompPos, hlen]
  exact { h with
    frame := h.frame, decompPos := hcursor, within := Nat.le_trans (Nat.le_of_eq hlen) ha, dataPos := hp, out := hout }

theorem copyLiteral (h : BlockAt s₀ u data v rest s) {a : Nat} (ha : v.out.length + a ≤ u)
    (hdata : v.dataPos + a ≤ data.length) :
    BlockAt s₀ u data { v with out := v.out ++ (data.drop v.dataPos).take a, dataPos := v.dataPos + a } rest
      (s.copyLiteral a) := by
  have hout : (copyAcross s.lit a s.dataPos.toNat s.decompPos.toNat s.out).Holds
      (v.out ++ (data.drop v.dataPos).take a) := by
    rw [h.dataPos, h.decompPos]
    exact h.lit.copyAcross h.out hdata
  refine h.copied ha (by rw [List.length_append, take_drop_length hdata]) hout ?_
  rw [cursor_add_toNat (u := s.litLen) (by rw [h.dataPos, h.litLen]; exact hdata), h.dataPos]

theorem copyReference (h : BlockAt s₀ u data v rest s) {source a : Nat} (ha : v.out.length + a ≤ u)
    (hsource : source < v.out.length) :
    BlockAt s₀ u data { v with out := extendFrom a source v.out } rest (s.copyReference source a) := by
  have hout : (copyWithin a source s.decompPos.toNat s.out).Holds (extendFrom a source v.out) := by
    rw [h.decompPos]
    exact h.out.copyWithin a hsource
  exact h.copied ha (extendFrom_length ..) hout h.dataPos

/-- The output is complete: the command ends (R143, R144, R149). -/
theorem afterCopy_complete (h : BlockAt s₀ u data v rest s) (hfull : v.out.length = u) (next : Phase) :
    afterCopy next s = decompDone s :=
  if_pos (BitVec.eq_of_toNat_eq (by rw [h.decompPos, h.outLen, hfull]))

theorem afterCopy_incomplete (h : BlockAt s₀ u data v rest s) (hlt : v.out.length < u) (next : Phase) :
    afterCopy next s = { s with phase := next } :=
  if_neg fun e => by
    have := congrArg BitVec.toNat e
    rw [h.decompPos, h.outLen] at this
    omega

/-- A literal step of the program, its payload there. -/
theorem endsOnlyIn_literal {Q : State → Prop} {n : Nat} (h : BlockAt s₀ u data v (encodeVarint n ++ rest) s)
    (hp : s.phase = .lit) (hn : 1 ≤ n) (hdata : v.dataPos + min n (u - v.out.length) ≤ data.length)
    (hQ : ∀ c, BlockAt s₀ u data (v.literal u data n) rest c → EndsOnlyIn Q (afterCopy .ref c)) :
    EndsOnlyIn Q s := by
  refine endsOnlyIn_of_step h.busy ?_
  rw [h.engineStep_code (i := .lit n) (due := .lit) (by rw [hp]; rfl) rfl (decide_eq_true hn) trivial rfl, runToken]
  have hread := h.advance
  have hwithin := h.within
  have hamount : min n (u - v.out.length) = min n (s.outLen.toNat - s.decompPos.toNat) := by
    rw [h.outLen, h.decompPos]
  rcases litStep_declared (s := s.advance (encodeVarint n).length) (hread.outLen ▸ hread.declared) n hamount
    with ⟨hover, -⟩ | ⟨-, e⟩
  · rw [hread.litLen, hread.dataPos] at hover
    exact absurd hdata (Nat.not_le_of_lt hover)
  · rw [e]
    exact hQ _ (hread.copyLiteral (show v.out.length + _ ≤ u by omega) hdata)

/-- A back-reference step of the program, its source written. -/
theorem endsOnlyIn_reference {Q : State → Prop} {source m : Nat}
    (h : BlockAt s₀ u data v (encodeField source (bitlen v.out.length) ++ encodeVarint (m - refBias) ++ rest) s)
    (hp : s.phase = .ref) (hm : refBias + 1 ≤ m) (hsource : source < v.out.length)
    (hQ : ∀ c, BlockAt s₀ u data (v.reference u source m) rest c → EndsOnlyIn Q (afterCopy .cmdbit c)) :
    EndsOnlyIn Q s := by
  refine endsOnlyIn_of_step h.busy ?_
  have hwithin := h.within
  have hdeclared := h.declared
  have hwf : (Instr.ref source (m - refBias)).wellFormed = true :=
    Bool.and_eq_true_iff.mpr ⟨decide_eq_true (by omega), decide_eq_true (by omega)⟩
  rw [h.engineStep_code (i := .ref source (m - refBias)) (due := .ref) (by rw [hp]; rfl) rfl hwf
    (Nat.lt_trans hsource (lt_two_pow_bitlen _)) rfl, runToken]
  have hread := h.advance
  have hamount : min m (u - v.out.length) = min (m - refBias + 2) (s.outLen.toNat - s.decompPos.toNat) := by
    rw [h.outLen, h.decompPos, show m - refBias + 2 = m from Nat.sub_add_cancel (Nat.le_of_succ_le hm)]
  rcases refStep_declared (s := s.advance _) (hread.outLen ▸ hread.declared) source (m - refBias) hamount
    with ⟨hunwritten, -⟩ | ⟨-, e⟩
  · rw [hread.decompPos] at hunwritten
    exact absurd hsource (Nat.not_lt_of_le hunwritten)
  · rw [e]
    exact hQ _ (hread.copyReference (show v.out.length + _ ≤ u by omega) hsource)

/-- The command bit after a back-reference that does not complete the output. -/
theorem endsOnlyIn_command {Q : State → Prop} {b : Bool} (h : BlockAt s₀ u data v (b :: rest) s)
    (hlt : v.out.length < u)
    (hlit : b = s₀.cfg.litBit →
      ∀ c, c.phase = .lit → BlockAt s₀ u data (v.command .afterRef b 0#32) rest c → EndsOnlyIn Q c)
    (href : b ≠ s₀.cfg.litBit →
      ∀ c, c.phase = .ref → BlockAt s₀ u data (v.command .afterRef b 1#32) rest c → EndsOnlyIn Q c) :
    EndsOnlyIn Q (afterCopy .cmdbit s) := by
  rw [h.afterCopy_incomplete hlt]
  have hdue : BlockAt s₀ u data v ([b] ++ rest) { s with phase := .cmdbit } := h.atPhase .cmdbit
  have hread := hdue.advance
  refine endsOnlyIn_of_step hdue.busy ?_
  rw [hdue.engineStep_code (i := .cmdbit b) (due := .cmdbit) rfl rfl rfl trivial rfl, runToken]
  rcases cmdbitStep_cases b (State.advance { s with phase := .cmdbit } [b].length) with ⟨hb, e⟩ | ⟨hb, e⟩ <;>
    rw [e] <;> rw [hread.cfg_eq] at hb
  · exact hlit hb _ rfl (hread.select 0#32 .lit)
  · exact href hb _ rfl (hread.select 1#32 .ref)

end BlockAt

/-! ## A whole program -/

/-- A `DECOMP` that began in `s₀` has ended ok at `v`, its output complete. -/
def BlockEnds (s₀ : State) (u : Nat) (data : List Byte) (v : BlockView) (t : State) : Prop :=
  v.out.length = u ∧ ∃ c, t = decompDone c ∧ BlockAt s₀ u data v [] c

/-- What is due after a step (R100). -/
def StepPlace.due : StepPlace → Phase
  | .first => .lit
  | .afterLit => .ref
  | .afterRef => .cmdbit

theorem BlockView.literal_length {u : Nat} {data : List Byte} {n : Nat} {v : BlockView}
    (h : v.dataPos + min n (u - v.out.length) ≤ data.length) :
    (v.literal u data n).out.length = v.out.length + min n (u - v.out.length) := by
  rw [BlockView.literal, List.length_append, take_drop_length h]

theorem BlockView.reference_length (u source m : Nat) (v : BlockView) :
    (v.reference u source m).out.length = v.out.length + min m (u - v.out.length) := extendFrom_length ..

/-- A program that begins with a literal step finishes as the rest of it does after that step. -/
theorem BlockView.finish_literal (litBit : Bool) {u : Nat} {data : List Byte} (place : StepPlace) {n : Nat}
    {v : BlockView} (h : v.dataPos + min n (u - v.out.length) ≤ data.length) (t : List BlockStep) :
    ((v.command place litBit 0#32).literal u data n).finish litBit u data .afterLit t
      = v.finish litBit u data place (.lit n :: t) := by
  have hlen := BlockView.literal_length (v := v.command place litBit 0#32) h
  refine BlockView.ext rfl ?dataPos rfl ?pos
  case dataPos =>
    rw [BlockView.finish, hlen]
    exact Nat.add_assoc ..
  case pos =>
    rw [BlockView.finish, BlockView.finish, hlen, assembleSteps, List.length_append, List.length_append,
      ← Nat.add_assoc, ← Nat.add_assoc]
    rfl

/-- A program that begins with a back-reference step finishes as the rest of it does after that step. -/
theorem BlockView.finish_reference (litBit : Bool) (u : Nat) (data : List Byte) (place : StepPlace) (source m : Nat)
    (v : BlockView) (t : List BlockStep) :
    ((v.command place (!litBit) 1#32).reference u source m).finish litBit u data .afterRef t
      = v.finish litBit u data place (.ref source m :: t) := by
  have hlen := BlockView.reference_length u source m (v.command place (!litBit) 1#32)
  refine BlockView.ext rfl ?dataPos rfl ?pos
  case dataPos =>
    rw [BlockView.finish, hlen]
    rfl
  case pos =>
    rw [BlockView.finish, BlockView.finish, hlen, assembleSteps, List.append_assoc (commandBits _ _),
      List.length_append, List.length_append, ← Nat.add_assoc, ← Nat.add_assoc]
    rfl

/-- What a valid program can begin with after a step (R100, R110). -/
theorem stepsValid_lit {u dataLen : Nat} {place : StepPlace} {dp dataPos n : Nat} {t : List BlockStep}
    (h : stepsValid u dataLen place dp dataPos (.lit n :: t) = true) :
    place ≠ .afterLit ∧ 1 ≤ n ∧ (place = .first ∨ dp < u) ∧ dataPos + min n (u - dp) ≤ dataLen
      ∧ stepsValid u dataLen .afterLit (dp + min n (u - dp)) (dataPos + min n (u - dp)) t = true := by
  simpa [stepsValid, and_assoc] using h

theorem stepsValid_ref {u dataLen : Nat} {place : StepPlace} {dp dataPos source m : Nat} {t : List BlockStep}
    (h : stepsValid u dataLen place dp dataPos (.ref source m :: t) = true) :
    place ≠ .first ∧ refBias + 1 ≤ m ∧ source < dp ∧ dp < u
      ∧ stepsValid u dataLen .afterRef (dp + min m (u - dp)) dataPos t = true := by
  simpa [stepsValid, and_assoc] using h

/-- The rest of a valid program, after a step's copy: the command ends where the program does. -/
theorem BlockAt.endsOnlyIn_program {s₀ : State} {u : Nat} {data : List Byte} (steps : List BlockStep) :
    ∀ {place : StepPlace} {v : BlockView} {c : State}, place ≠ .first →
      stepsValid u data.length place v.out.length v.dataPos steps = true →
      BlockAt s₀ u data v (assembleSteps s₀.cfg.litBit u place v.out.length steps) c →
      EndsOnlyIn (BlockEnds s₀ u data (v.finish s₀.cfg.litBit u data place steps)) (afterCopy place.due c) := by
  induction steps with
  | nil =>
    intro place v c _ hvalid h
    have hfull : v.out.length = u := (by simpa [stepsValid] using hvalid : _ ∧ _).2
    rw [h.afterCopy_complete hfull]
    exact endsOnlyIn_of_ended nofun ⟨hfull, c, rfl, h⟩
  | cons step t ih =>
    intro place v c hplace hvalid h
    cases step with
    | lit n =>
      obtain ⟨hafter, hn, hfirst, hdata, hrest⟩ := stepsValid_lit hvalid
      have hlt : v.out.length < u := hfirst.resolve_left hplace
      obtain rfl : place = .afterRef := by
        cases place with
        | first => exact absurd rfl hplace
        | afterLit => exact absurd rfl hafter
        | afterRef => rfl
      refine h.endsOnlyIn_command hlt (fun _ d hp hd => ?_) (fun hne => absurd rfl hne)
      refine hd.endsOnlyIn_literal hp hn hdata fun e he => ?_
      rw [← BlockView.finish_literal _ _ hdata]
      have hlen := BlockView.literal_length (v := v.command .afterRef s₀.cfg.litBit 0#32) hdata
      exact ih (place := .afterLit) nofun (hlen ▸ hrest) (hlen ▸ he)
    | ref source m =>
      obtain ⟨-, hm, hsource, hlt, hrest⟩ := stepsValid_ref hvalid
      have hstep : ∀ d : State, d.phase = .ref →
          BlockAt s₀ u data (v.command place (!s₀.cfg.litBit) 1#32)
            (encodeField source (bitlen v.out.length) ++ encodeVarint (m - refBias)
              ++ assembleSteps s₀.cfg.litBit u .afterRef (v.out.length + min m (u - v.out.length)) t) d →
          EndsOnlyIn (BlockEnds s₀ u data (v.finish s₀.cfg.litBit u data place (.ref source m :: t))) d := by
        intro d hp hd
        refine hd.endsOnlyIn_reference hp hm hsource fun e he => ?_
        rw [← BlockView.finish_reference]
        have hlen := BlockView.reference_length u source m (v.command place (!s₀.cfg.litBit) 1#32)
        exact ih (place := .afterRef) nofun (hlen ▸ hrest) (hlen ▸ he)
      cases place with
      | first => exact absurd rfl hplace
      | afterLit =>
        rw [h.afterCopy_incomplete hlt]
        exact hstep _ rfl (h.atPhase .ref)
      | afterRef => exact h.endsOnlyIn_command hlt (fun he => absurd he (Bool.not_ne_self _)) fun _ => hstep

/-- The framed block, its program still to come. -/
theorem blockAt_framed {s : State} {u : Nat} {data : List Byte} {bits : List Bool} (hu : u ≤ 65535)
    (hdata : data.length ≤ 65533) (hnoWrap : s.srcBits < 2 ^ 32) (hlength : s.blockLength = u)
    (hpayload : s.src.HoldsAt 4 data) (hstands : StandsAt s.streamBit (32 + 8 * data.length) bits)
    (hroom : 32 + 8 * data.length + bits.length ≤ s.srcBits) :
    BlockAt s u data ⟨[], 0, 0#32, 32 + 8 * data.length⟩ bits (s.accept.framed data.length) where
  declared := hu
  noWrap := hnoWrap
  frame := rfl
  busy := rfl
  outLen := (s.accept.framed_outLen _).trans hlength
  decompPos := rfl
  within := Nat.zero_le _
  litLen := s.accept.framed_litLen hdata
  dataPos := rfl
  nextCmd := rfl
  bitPos := s.accept.framed_bitPos hdata
  lit := fun i hi => by rw [s.accept.framed_lit_lookup hi]; exact congrArg some (hpayload i hi)
  out := Memory.holds_nil _
  stands := hstands
  room := hroom

/-- A valid program from its first step on, which is a literal one. -/
theorem endsOnlyIn_framed {s : State} {u pos : Nat} {data : List Byte} {steps : List BlockStep}
    (hvalid : stepsValid u data.length .first 0 0 steps = true)
    (h : BlockAt s u data ⟨[], 0, 0#32, pos⟩ (assembleSteps s.cfg.litBit u .first 0 steps)
      (s.accept.framed data.length)) :
    EndsOnlyIn
      (BlockEnds s u data (BlockView.finish s.cfg.litBit u data .first steps ⟨[], 0, 0#32, pos⟩))
      (s.accept.framed data.length) := by
  cases steps with
  | nil => cases hvalid
  | cons step t =>
    cases step with
    | ref => cases hvalid
    | lit n =>
      obtain ⟨-, hn, -, hdata, hrest⟩ := stepsValid_lit hvalid
      have hlen := BlockView.literal_length (v := ⟨[], 0, 0#32, pos⟩) hdata
      refine h.endsOnlyIn_literal rfl hn hdata fun c hc => ?_
      rw [← BlockView.finish_literal _ _ hdata]
      exact BlockAt.endsOnlyIn_program t (place := .afterLit) nofun (hlen ▸ hrest) (hlen ▸ hc)

/-- A state equal to `s` outside a block's destinations differs from it in them only. -/
theorem eq_of_outsideBlock {s t : State} (h : t.outsideBlock = s.outsideBlock) (hst : t.st = s.st) :
    t = { s with
      done := t.done, phase := t.phase, litV := t.litV, outV := t.outV, lit := t.lit, out := t.out
      bitPos := t.bitPos, litLen := t.litLen, dataPos := t.dataPos, outLen := t.outLen, decompPos := t.decompPos
      nextCmd := t.nextCmd, freeCtr := t.freeCtr } := by
  calc t = { t.outsideBlock with
        st := t.st, done := t.done, phase := t.phase, litV := t.litV, outV := t.outV, lit := t.lit, out := t.out
        bitPos := t.bitPos, litLen := t.litLen, dataPos := t.dataPos, outLen := t.outLen, decompPos := t.decompPos
        nextCmd := t.nextCmd, freeCtr := t.freeCtr } := rfl
    _ = _ := by rw [h, hst]; rfl

theorem assembleBlock_length (litBit : Bool) (u : Nat) (data : List Byte) (steps : List BlockStep) :
    (assembleBlock litBit u data steps).length
      = 4 + data.length + ((assembleSteps litBit u .first 0 steps).length + 7) / 8 := by
  rw [assembleBlock, List.length_append, List.length_append, packBits_length]
  rfl

/-- Settles O32: the header frames the block, and the run ends where the program does. -/
theorem assembledBlockDecompresses : Obligations.AssembledBlockDecompresses := by
  unfold Obligations.AssembledBlockDecompresses
  intro s u data steps hsound hidle hu hdata hvalid hholds hlen hcap
  obtain ⟨hlength, hfield, hpayload, hstands⟩ := holds_assembleBlock hu hdata hholds
  rw [assembleBlock_length] at hlen
  have hroom : 32 + 8 * data.length + (assembleSteps s.cfg.litBit u .first 0 steps).length ≤ s.srcBits := by
    rw [State.srcBits]; omega
  have hframed := blockAt_framed hu hdata (State.srcBits_lt hsound hcap) hlength hpayload hstands hroom
  have hthere : 4 + data.length ≤ s.srcLen.toNat := by omega
  have hrun := endsOnlyIn_framed hvalid hframed
  rw [← engineStep_framed (s := s.accept) hfield hthere] at hrun
  obtain ⟨hfull, c, e, h⟩ := decompRun_endsIn rfl hrun
  refine ⟨_, exec_decomp_run hidle hcap, ?_⟩
  rw [e]
  refine ⟨fun i hi => h.out i (Nat.lt_of_lt_of_eq hi hfull.symm), h.lit, h.outLen, h.decompPos.trans hfull, h.litLen,
    h.dataPos.trans (Nat.zero_add _), h.nextCmd, h.bitPos, ?_⟩
  exact eq_of_outsideBlock (t := decompDone c) h.frame hidle.symm

end Sys2Proof.Machine

/-! PROOFS, the tile decoder family, part 1: the pixels of one tile (O38). -/

namespace Sys2Proof.Machine

open Sys2Proof

/-! ## The bits of a pixel (R171, R172) -/

/-- A single bit shifted to place `n` of a byte. -/
theorem bitAt_getLsbD {n : Nat} (hn : n < 8) (b : Bool) (p : Nat) :
    ((if b then 1#8 else 0#8) <<< n).getLsbD p = (b && decide (p = n)) := by
  cases b with
  | false => simp
  | true =>
    rw [if_pos rfl, BitVec.getLsbD_shiftLeft, BitVec.getLsbD_one, Bool.true_and]
    by_cases hp : p = n
    · simp [hp, hn]
    · simp [hp]; omega

/-- Bit `p` of a pixel is its bit of plane `p`, and 0 from the number of planes on (R172). -/
theorem pixelOfPlanes_getLsbD (block : Nat → Byte) (r x : Nat) {n : Nat} (hn : n ≤ 8) (p : Nat) :
    (pixelOfPlanes block r x n).getLsbD p = (decide (p < n) && planeBit block p r x) := by
  induction n with
  | zero => simp [pixelOfPlanes]
  | succ n ih =>
    rw [pixelOfPlanes, BitVec.getLsbD_or, ih (by omega), bitAt_getLsbD hn]
    by_cases hp : p = n
    · simp [hp]
    · simp [hp, show p < n + 1 ↔ p < n by omega]

theorem Bpp.bits_le (b : Bpp) : b.bits ≤ 8 := by cases b <;> decide

/-- The plane bytes of a block stand inside it (R171). -/
theorem planeOffset_lt {b : Bpp} {p r : Nat} (hp : p < b.bits) (hr : r < 8) : planeOffset p r < 8 * b.bits := by
  have heven : b.bits % 2 = 0 := by cases b <;> rfl
  unfold planeOffset planeChunk
  omega

/-- Each byte of a block belongs to one plane and one row (R171). -/
theorem planeOffset_eq_iff {p q r y : Nat} (hr : r < 8) (hy : y < 8) :
    planeOffset q y = planeOffset p r ↔ q = p ∧ y = r := by
  unfold planeOffset planeChunk
  omega

/-! ## The elements of a tile (R173) -/

/-- Element `k` of a tile is the pixel of row `k div 8` and column `k mod 8`. -/
theorem decodeTile_getElem? (b : Bpp) (block : Nat → Byte) {k : Nat} (hk : k < 64) :
    (decodeTile b block)[k]? = some (pixelOfPlanes block (k / 8) (k % 8) b.bits) := by
  simp [decodeTile, tilePixels, tileDim, hk]

theorem decodeTile_length (b : Bpp) (block : Nat → Byte) : (decodeTile b block).length = 64 := by
  simp [decodeTile, tilePixels]

/-- A tile all of whose pixels are `v`. -/
theorem decodeTile_eq_replicate {b : Bpp} {block : Nat → Byte} {v : Byte}
    (h : ∀ r x, r < 8 → x < 8 → pixelOfPlanes block r x b.bits = v) : decodeTile b block = List.replicate 64 v := by
  refine List.ext_getElem? fun k => ?_
  by_cases hk : k < 64
  · rw [decodeTile_getElem? b block hk, List.getElem?_replicate, if_pos hk, h _ _ (by omega) (by omega)]
  · rw [List.getElem?_eq_none (by rw [decodeTile_length]; omega), List.getElem?_replicate, if_neg hk]

/-- A pixel is `v` when its plane bits are the bits of `v`. -/
theorem pixelOfPlanes_eq {b : Bpp} {block : Nat → Byte} {r x : Nat} {v : Byte}
    (h : ∀ p, p < 8 → v.getLsbD p = (decide (p < b.bits) && planeBit block p r x)) :
    pixelOfPlanes block r x b.bits = v :=
  BitVec.eq_of_getLsbD_eq fun p hp => (pixelOfPlanes_getLsbD block r x b.bits_le p).trans (h p hp).symm

/-! ## The tiles of R174 -/

/-- In a block of one repeated byte, every plane bit is that byte's bit of the column. -/
theorem planeBit_of_constant {b : Bpp} {block : Nat → Byte} {c : Byte} (h : ∀ j, j < 8 * b.bits → block j = c)
    {p r : Nat} (hp : p < b.bits) (hr : r < 8) (x : Nat) : planeBit block p r x = c.getLsbD (7 - x) := by
  rw [planeBit, h _ (planeOffset_lt hp hr)]

/-- The byte `0x80 >> x` has the bit of column `x` set and no other (R172). -/
theorem columnByte_getLsbD {x y : Nat} (hx : x < 8) (hy : y < 8) : (0x80#8 >>> x).getLsbD (7 - y) = decide (y = x) := by
  have hall : ∀ x < 8, ∀ y < 8, (0x80#8 >>> x).getLsbD (7 - y) = decide (y = x) := by decide
  exact hall x hx y hy

theorem decodeTile_zeros {b : Bpp} {block : Nat → Byte} (h : ∀ j, j < 8 * b.bits → block j = 0x00#8) :
    decodeTile b block = List.replicate 64 0#8 := by
  refine decodeTile_eq_replicate fun r x hr _ => pixelOfPlanes_eq fun p _ => ?_
  by_cases hp : p < b.bits
  · simp [planeBit_of_constant h hp hr]
  · simp [hp]

theorem decodeTile_ones {b : Bpp} {block : Nat → Byte} (h : ∀ j, j < 8 * b.bits → block j = 0xFF#8) :
    decodeTile b block = List.replicate 64 (BitVec.ofNat 8 (2 ^ b.bits - 1)) := by
  refine decodeTile_eq_replicate fun r x hr _ => pixelOfPlanes_eq fun p hp8 => ?_
  have hones : (0xFF#8).getLsbD (7 - x) = true := by
    rw [show 0xFF#8 = BitVec.allOnes 8 from rfl, BitVec.getLsbD_allOnes]
    exact decide_eq_true (by omega)
  rw [BitVec.getLsbD_ofNat, Nat.testBit_two_pow_sub_one, decide_eq_true hp8, Bool.true_and]
  by_cases hp : p < b.bits
  · rw [planeBit_of_constant h hp hr, hones, Bool.and_true]
  · simp [hp]

/-- The one plane bit of the block is bit `p` of the pixel at row `r`, column `x`, and of no other pixel. -/
theorem planeBit_of_single {b : Bpp} {block : Nat → Byte} {p r x q k : Nat} (hr : r < 8) (hx : x < 8)
    (h : ∀ j, j < 8 * b.bits → block j = if j = planeOffset p r then 0x80#8 >>> x else 0#8)
    (hq : q < b.bits) (hk : k < 64) :
    planeBit block q (k / 8) (k % 8) = (decide (k = 8 * r + x) && decide (q = p)) := by
  have hrow : k / 8 < 8 := by omega
  have hcol : k % 8 < 8 := by omega
  rw [planeBit, h _ (planeOffset_lt hq hrow)]
  simp only [planeOffset_eq_iff hr hrow]
  by_cases hbyte : q = p ∧ k / 8 = r
  · rw [if_pos hbyte, columnByte_getLsbD hx hcol, decide_eq_true hbyte.1, Bool.and_true]
    exact decide_eq_decide.mpr (by omega)
  · rw [if_neg hbyte, BitVec.getLsbD_zero, ← Bool.decide_and]
    exact (decide_eq_false (by omega)).symm

theorem decodeTile_single {b : Bpp} {block : Nat → Byte} {p r x k : Nat} (hp : p < b.bits) (hr : r < 8) (hx : x < 8)
    (h : ∀ j, j < 8 * b.bits → block j = if j = planeOffset p r then 0x80#8 >>> x else 0#8) (hk : k < 64) :
    (decodeTile b block).getD k 0#8 = if k = 8 * r + x then 1#8 <<< p else 0#8 := by
  rw [List.getD_eq_getElem?_getD, decodeTile_getElem? b block hk, Option.getD_some]
  refine pixelOfPlanes_eq fun q _ => ?_
  have hp8 := b.bits_le
  have hv : (if k = 8 * r + x then 1#8 <<< p else 0#8).getLsbD q = (decide (k = 8 * r + x) && decide (q = p)) := by
    rw [← bitAt_getLsbD (by omega)]
    by_cases hat : k = 8 * r + x <;> simp [hat]
  rw [hv]
  by_cases hq : q < b.bits
  · rw [planeBit_of_single hr hx h hq hk, decide_eq_true hq, Bool.true_and]
  · rw [decide_eq_false hq, Bool.false_and, decide_eq_false (show ¬ q = p by omega), Bool.and_false]

/-- Settles O38, block by block: each pixel is compared with its value bit by bit. -/
theorem specialTiles : Obligations.SpecialTiles := by
  unfold Obligations.SpecialTiles
  exact fun b block => ⟨decodeTile_zeros, decodeTile_ones, fun p r x hp hr hx h k hk => decodeTile_single hp hr hx h hk⟩

end Sys2Proof.Machine

/-! PROOFS, the tile decoder family, part 2: `TILEDEC` (O36, O37). -/

namespace Sys2Proof.Machine

open Sys2Proof

/-! ## How `TILEDEC` gets to its work -/

/-- A bulk decoder whose input is there, and whose input and result fit, passes R249 steps 5 and 6. -/
theorem withInput_work (op : BitVec 8) {sel : Sel} {size cap : Nat} (work : State → State) {s : State}
    (hpresent : sel = .out → s.outV = true) (hsrc : sel = .src → s.srcLen.toNat ≤ s.cfg.srcCap) (hfits : size ≤ cap) :
    withInput op sel (decide (size ≤ cap)) work s = work s := by
  rcases withInput_cases op sel (decide (size ≤ cap)) work s with ⟨h, -⟩ | ⟨-, h, -⟩ | ⟨-, -, -, e⟩
  · cases sel with
    | src => cases h
    | out => exact absurd (hpresent rfl) (Bool.eq_false_iff.mp h)
  · rw [decide_eq_true hfits, Bool.and_true] at h
    cases sel with
    | src => exact absurd (hsrc rfl) (of_decide_eq_false h)
    | out => cases h
  · exact e

/-- `TILEDEC` in IDLE with every check passed does its work at a depth of the field's number of bits (R177). -/
theorem exec_tiledec_work {s : State} {sel : Sel} {bpp : BitVec 4} (hidle : s.st = .idle)
    (hbpp : bppLegal bpp = true) (hpresent : sel = .out → s.outV = true)
    (hsrc : sel = .src → s.srcLen.toNat ≤ s.cfg.srcCap)
    (hfits : s.inputLen sel / (8 * bpp.toNat) ≤ s.cfg.tileCap) :
    ∃ b : Bpp, b.bits = bpp.toNat ∧ exec (.tiledec sel bpp) s = .next (tiledecWork b sel s.accept) := by
  obtain ⟨b, hb, hbits⟩ := Bpp.ofField_of_legal hbpp
  refine ⟨b, hbits, ?_⟩
  rw [← hbits] at hfits
  calc exec (.tiledec sel bpp) s
    _ = .next (tiledec sel bpp s.accept) := next_issue_idle hidle
    _ = .next (tiledecWork b sel s.accept) := by
      rw [tiledec, hb]
      exact congrArg _ (withInput_work (s := s.accept) _ _ hpresent hsrc hfits)

/-! ## The tiles of a buffer (R175) -/

theorem decodeTiles_succ (b : Bpp) (buf : Nat → Byte) (n : Nat) :
    decodeTiles b buf (n + 1) = decodeTiles b buf n ++ decodeTile b fun j => buf (b.tileBytes * n + j) := by
  simp [decodeTiles, List.range_succ]

/-- Element `k` of tile `t` is element `k` of the tile decoded from block `t` alone. -/
theorem decodeTiles_getElem? (b : Bpp) (buf : Nat → Byte) {t n k : Nat} (ht : t < n) (hk : k < 64) :
    (decodeTiles b buf n)[64 * t + k]? = (decodeTile b fun j => buf (b.tileBytes * t + j))[k]? := by
  induction n with
  | zero => omega
  | succ n ih =>
    rw [decodeTiles_succ]
    rcases Nat.lt_succ_iff_lt_or_eq.mp ht with hlt | rfl
    · rw [List.getElem?_append_left (by rw [decodeTiles_length]; omega), ih hlt]
    · rw [List.getElem?_append_right (by rw [decodeTiles_length]; omega), decodeTiles_length, Nat.add_sub_cancel_left]

/-- The pixel at row `r`, column `x` of tile `t`. -/
theorem decodeTiles_pixel (b : Bpp) (buf : Nat → Byte) {t n r x : Nat} (ht : t < n) (hr : r < 8) (hx : x < 8) :
    (decodeTiles b buf n)[64 * t + 8 * r + x]?
      = some (pixelOfPlanes (fun j => buf (b.tileBytes * t + j)) r x b.bits) := by
  have hk : 8 * r + x < 64 := by omega
  rw [Nat.add_assoc, decodeTiles_getElem? b buf ht hk, decodeTile_getElem? _ _ hk,
    show (8 * r + x) / 8 = r by omega, show (8 * r + x) % 8 = x by omega]

/-! ## The statements -/

/-- Settles O36: TILE is the list of the decoded tiles, and each pixel's bits are its plane bits. -/
theorem tiledecResult : Obligations.TiledecResult := by
  unfold Obligations.TiledecResult
  intro s sel bpp hidle hbpp hpresent hsrc hwhole hfits
  obtain ⟨b, hbits, e⟩ := exec_tiledec_work hidle hbpp hpresent hsrc hfits
  rw [← hbits] at hwhole ⊢
  refine ⟨Memory.ofList s.freeCtr (decodeTiles b (s.inputByte sel) (s.inputLen sel / b.tileBytes)), s.freeCtr + 1,
    fun t r x ht hr hx => ?pixel, ?next⟩
  case pixel =>
    exact ⟨_, (Memory.lookup_ofList ..).trans (decodeTiles_pixel b _ ht hr hx), pixelOfPlanes_getLsbD _ r x b.bits_le⟩
  case next =>
    have hdepth : bpp.setWidth 32 = BitVec.ofNat 32 b.bits := by rw [hbits, BitVec.ofNat_toNat]
    rw [e, tiledecWork, if_neg (show ¬ s.accept.inputLen sel % b.tileBytes ≠ 0 from not_not_intro hwhole), hdepth,
      hidle]
    rfl

/-- Settles O37: the work stops at the length test, and the fault taken there is the refusal. -/
theorem tiledecPartialTile : Obligations.TiledecPartialTile := by
  unfold Obligations.TiledecPartialTile
  intro s sel bpp hidle hbpp hpresent hsrc hshort hfits
  obtain ⟨b, hbits, e⟩ := exec_tiledec_work hidle hbpp hpresent hsrc hfits
  refine ⟨_, e, ?_⟩
  rw [← hbits] at hshort
  rw [tiledecWork, if_pos (show s.accept.inputLen sel % b.tileBytes ≠ 0 from hshort)]
  rfl

end Sys2Proof.Machine

/-! PROOFS, the palette family: the channels and the colour words (O39, O40), the table they fill (O41), and the lookups
in it (O42, O43). -/

namespace Sys2Proof.Machine

open Sys2Proof

/-! ## The channels (R186, R187) -/

theorem chan8_toNat (v : BitVec 5) : (chan8 v).toNat = v.toNat * 8 + v.toNat * 8 / 32 := by
  have := v.isLt
  rw [chan8, BitVec.toNat_ofNat]
  omega

/-- The channel repeats its three high bits below its five: the two parts share no bit. -/
theorem chan8_eq_shifts (v : BitVec 5) : chan8 v = (v.setWidth 8 <<< 3) ||| (v.setWidth 8 >>> 2) := by
  have hv := v.isLt
  have hwide : (v.setWidth 8).toNat = v.toNat := BitVec.toNat_setWidth_of_le (by decide)
  have hhigh : (v.setWidth 8 <<< 3).toNat = v.toNat <<< 3 := by
    rw [BitVec.toNat_shiftLeft, hwide, Nat.shiftLeft_eq]
    omega
  have hlow : v.toNat >>> 2 = v.toNat * 8 / 32 := by rw [Nat.shiftRight_eq_div_pow]; omega
  apply BitVec.eq_of_toNat_eq
  rw [BitVec.toNat_or, hhigh, BitVec.toNat_ushiftRight, hwide, hlow, ← Nat.shiftLeft_add_eq_or_of_lt (by omega),
    Nat.shiftLeft_eq, chan8_toNat]

/-- Settles O39: the table is compared value by value. -/
theorem channelWidening : Obligations.ChannelWidening := by
  unfold Obligations.ChannelWidening
  intro v
  refine ⟨chan8_toNat v, chan8_eq_shifts v, ?table⟩
  case table => revert v; decide

/-! ## The entries (R41, R188) -/

/-- An entry has red in its high byte, green in its middle one, blue in its low one. -/
theorem convertFields_toNat (b g r : BitVec 5) :
    (convertFields b g r).toNat = 65536 * (r.toNat * 8 + r.toNat * 8 / 32) + 256 * (g.toNat * 8 + g.toNat * 8 / 32)
      + (b.toNat * 8 + b.toNat * 8 / 32) := by
  rw [convertFields, BitVec.toNat_append, BitVec.toNat_append, ← Nat.shiftLeft_add_eq_or_of_lt (chan8 b).isLt,
    ← Nat.shiftLeft_add_eq_or_of_lt (chan8 g).isLt, Nat.shiftLeft_eq, Nat.shiftLeft_eq, chan8_toNat, chan8_toNat,
    chan8_toNat]
  omega

theorem littleEndian16_toNat (lo hi : Byte) : (littleEndian16 lo hi).toNat = lo.toNat + 256 * hi.toNat := by
  rw [littleEndian16, BitVec.toNat_append, ← Nat.shiftLeft_add_eq_or_of_lt lo.isLt, Nat.shiftLeft_eq]
  omega

/-- The entry of a word, from the word's five-bit digits; the bit above them has no part in it. -/
theorem convertColor_toNat (w : BitVec 16) :
    (convertColor w).toNat = 65536 * (w.toNat % 32 * 8 + w.toNat % 32 * 8 / 32)
      + 256 * (w.toNat / 32 % 32 * 8 + w.toNat / 32 % 32 * 8 / 32)
      + (w.toNat / 1024 % 32 * 8 + w.toNat / 1024 % 32 * 8 / 32) := by
  rw [convertColor, convertFields_toNat]
  simp only [BitVec.extractLsb'_toNat, Nat.shiftRight_eq_div_pow, Nat.reducePow, Nat.div_one]

/-- Settles O40: the entry is written at `PAL_CNT`, and its number is that of the three channels. -/
theorem colorwordResult : Obligations.ColorwordResult := by
  unfold Obligations.ColorwordResult
  intro s x b g r
  refine ⟨s.pal.write s.palCnt.toNat (convertFields b g r), fun k => ?read, rfl⟩
  case read => rw [Memory.read_write, ← convertFields_toNat, BitVec.ofNat_toNat, BitVec.setWidth_eq]

/-! ## A whole `PALLOAD` (R189, R192) -/

theorem State.inputLen_lt (s : State) (sel : Sel) : s.inputLen sel < 2 ^ 32 := by
  cases sel with
  | src => exact s.srcLen.isLt
  | out => exact s.outLen.isLt

/-- The first `k` elements of `m` are the conversions of the first `k` words of the buffer. -/
def State.PaletteRead (s : State) (sel : Sel) (m : Memory 24) (k : Nat) : Prop :=
  ∀ i, i < k → m.lookup i = some (convertColor (s.inputWord sel i))

theorem State.PaletteRead.write_next {s : State} {sel : Sel} {m : Memory 24} {k : Nat} (h : s.PaletteRead sel m k) :
    s.PaletteRead sel (m.write k (convertColor (s.inputWord sel k))) (k + 1) := by
  intro i hi
  rcases Nat.lt_succ_iff_lt_or_eq.mp hi with hlt | rfl
  · rw [Memory.lookup_write_other m hlt.ne, h i hlt]
  · exact Memory.lookup_write_same ..

/-- A `PALLOAD` accepted in `s` with `k` words converted into `m`. -/
def State.loadingPalette (s : State) (sel : Sel) (m : Memory 24) (k : Nat) : State :=
  { palloadStart sel s with pal := m, palCnt := BitVec.ofNat 32 k }

/-- `PALLOAD` writes nothing of its input. -/
theorem loadingPalette_input (s : State) (sel : Sel) (m : Memory 24) (k : Nat) :
    (s.loadingPalette sel m k).inputLen sel = s.inputLen sel
      ∧ (s.loadingPalette sel m k).inputWord sel = s.inputWord sel := by
  cases sel <;> exact ⟨rfl, rfl⟩

/-- With `k` words converted, the next token is word `k`, or the command ends. -/
theorem engineStep_loadingPalette (s : State) {sel : Sel} (m : Memory 24) {k : Nat} (hk : k ≤ s.inputLen sel / 2) :
    engineStep (s.loadingPalette sel m k) =
      if k < s.inputLen sel / 2 then
        s.loadingPalette sel (m.write k (convertColor (s.inputWord sel k))) (k + 1)
      else palloadDone (s.loadingPalette sel m k) := by
  obtain ⟨hlen, hword⟩ := loadingPalette_input s sel m k
  have hcnt : (s.loadingPalette sel m k).palCnt.toNat = k :=
    Nat.mod_eq_of_lt (by have := s.inputLen_lt sel; omega)
  rcases engineStep_colour (s := s.loadingPalette sel m k) rfl with ⟨h, e⟩ | ⟨h, e⟩ <;> rw [hcnt, hlen] at h
  · rw [e, if_pos h, hcnt, hword, colourStep, hcnt]
    simp only [State.loadingPalette, ← BitVec.ofNat_add, convertColor]
  · rw [e, if_neg (Nat.not_lt.mpr h)]

/-- The words that are left are converted one after the other; a last odd byte is no word. -/
theorem palloadRun_rest {s : State} {sel : Sel} (hb : s.st = .busy) (n : Nat) {m : Memory 24} {k : Nat}
    (hn : k + n = s.inputLen sel / 2) (hm : s.PaletteRead sel m k) :
    ∃ m', s.PaletteRead sel m' (s.inputLen sel / 2)
      ∧ engineRun (n + 1) (s.loadingPalette sel m k)
          = palloadDone (s.loadingPalette sel m' (s.inputLen sel / 2)) := by
  induction n generalizing m k with
  | zero =>
    obtain rfl : k = s.inputLen sel / 2 := hn
    refine ⟨m, hm, ?_⟩
    rw [engineRun_succ (s := s.loadingPalette sel m _) hb, engineStep_loadingPalette s m le_rfl,
      if_neg (Nat.lt_irrefl _)]
    rfl
  | succ n ih =>
    obtain ⟨m', hm', e⟩ := ih (k := k + 1) (by omega) hm.write_next
    refine ⟨m', hm', ?_⟩
    rw [engineRun_succ (s := s.loadingPalette sel m k) hb, engineStep_loadingPalette s m (by omega),
      if_pos (by omega), e]

/-- `PALLOAD` in IDLE with every check passed does its work. -/
theorem exec_palload_work {s : State} {sel : Sel} (hidle : s.st = .idle) (hpresent : sel = .out → s.outV = true)
    (hsrc : sel = .src → s.srcLen.toNat ≤ s.cfg.srcCap) (hfits : s.inputLen sel / 2 ≤ s.cfg.palCap) :
    exec (.palload sel) s = .next (palloadWork sel s.accept) := by
  calc exec (.palload sel) s
    _ = .next (palload sel s.accept) := next_issue_idle hidle
    _ = .next (palloadWork sel s.accept) :=
      congrArg _ (withInput_work (s := s.accept) _ _ hpresent hsrc hfits)

/-- Settles O41: the run from the empty table converts every word. -/
theorem palloadResult : Obligations.PalloadResult := by
  unfold Obligations.PalloadResult
  intro s sel hidle hpresent hsrc hfits
  obtain ⟨m, hm, e⟩ := palloadRun_rest (s := s.accept) (sel := sel) rfl (s.inputLen sel / 2) (k := 0)
    (m := Memory.unspecified s.freeCtr) (Nat.zero_add _) (fun i hi => absurd hi (Nat.not_lt_zero i))
  refine ⟨m, s.freeCtr + 1, fun i hi => ?entry, ?next⟩
  case entry =>
    exact ⟨_, (s.inputWord sel i).toNat, hm i hi, littleEndian16_toNat .., convertColor_toNat _⟩
  case next =>
    -- The run starts from the table of no words, which is `palloadStart`.
    have hrun : palloadWork sel s.accept = palloadDone (s.accept.loadingPalette sel m (s.inputLen sel / 2)) := e
    rw [exec_palload_work hidle hpresent hsrc hfits, hrun, hidle]
    rfl

/-! ## The lookups (R190, R191, R193, R194) -/

/-- `GETCOLOR` and `SUBPALCNT` find a depth whose sub-palettes have `2^bpp` entries (R190). -/
theorem Bpp.subpalSize_of_legal {f : BitVec 4} (h : bppLegal f = true) :
    ∃ b, Bpp.ofField f = some b ∧ b.subpalSize = 2 ^ f.toNat := by
  obtain ⟨b, hb, hbits⟩ := Bpp.ofField_of_legal h
  exact ⟨b, hb, by rw [Bpp.subpalSize_eq, hbits]⟩

theorem State.getColor_of_lt {s : State} {b : Bpp} {sp ci : Nat} (h : sp * b.subpalSize + ci < s.palCnt.toNat) :
    s.getColor b sp ci = some (s.pal.read (sp * b.subpalSize + ci)) :=
  if_neg (Nat.not_le.mpr h)

theorem State.getColor_of_ge {s : State} {b : Bpp} {sp ci : Nat} (h : s.palCnt.toNat ≤ sp * b.subpalSize + ci) :
    s.getColor b sp ci = none :=
  if_pos h

/-- Settles O42: the lookup's one test decides between the entry and the fault. -/
theorem getcolorResult : Obligations.GetcolorResult := by
  unfold Obligations.GetcolorResult
  intro s sp ci bpp hidle hbpp hpal
  have hgate : exec (.getcolor sp ci bpp) s = .next (getcolor sp ci bpp s.accept) := next_issue_idle hidle
  obtain ⟨b, hb, hsize⟩ := Bpp.subpalSize_of_legal hbpp
  have hpal' : s.accept.palV = true := hpal
  rw [hgate, getcolor, hb, ← hsize]
  refine ⟨fun h => ?entry, fun h => ?fault⟩
  case entry =>
    simp only [if_pos hpal', State.getColor_of_lt (s := s.accept) h]
    rw [hidle]
    rfl
  case fault =>
    simp only [if_pos hpal', State.getColor_of_ge (s := s.accept) h]
    rfl

/-- Settles O43: the quotient is by the sub-palette size of the field's depth. -/
theorem subpalcntResult : Obligations.SubpalcntResult := by
  unfold Obligations.SubpalcntResult
  intro s bpp hidle hbpp hpal
  have hgate : exec (.subpalcnt bpp) s = .next (subpalcnt bpp s.accept) := next_issue_idle hidle
  obtain ⟨b, hb, hsize⟩ := Bpp.subpalSize_of_legal hbpp
  have hpal' : s.accept.palV = true := hpal
  rw [hgate, subpalcnt, hb, ← hsize, hidle]
  simp only [if_pos hpal']
  rfl

end Sys2Proof.Machine

/-! PROOFS, the nametable family: the entry word (O44) and the table it fills (O45). -/

namespace Sys2Proof.Machine

open Sys2Proof

/-! ## The entry word (R105, R200) -/

theorem toNat_append_eq_add {m n : Nat} (x : BitVec m) (y : BitVec n) :
    (x ++ y).toNat = x.toNat * 2 ^ n + y.toNat := by
  rw [BitVec.toNat_append, ← Nat.shiftLeft_add_eq_or_of_lt y.isLt, Nat.shiftLeft_eq]

theorem entryWord_toNat (v h p : Bool) (sp : BitVec 3) (tile : BitVec 10) :
    (entryWord v h p sp tile).toNat
      = 32768 * v.toNat + 16384 * h.toNat + 8192 * p.toNat + 1024 * sp.toNat + tile.toNat := by
  simp only [entryWord, toNat_append_eq_add, BitVec.toNat_ofBool]
  omega

/-- Settles O44: the word is written at `NT_CNT`, and its number is the sum of its fields at their weights. -/
theorem ntwordResult : Obligations.NtwordResult := by
  unfold Obligations.NtwordResult
  intro s v h p sp tile
  refine ⟨s.nt.write s.ntCnt.toNat (entryWord v h p sp tile), fun k => ?read, rfl⟩
  case read => rw [Memory.read_write, ← entryWord_toNat, BitVec.ofNat_toNat, BitVec.setWidth_eq]

/-! ## A whole `NTPARSE` (R201, R202) -/

/-- A command that goes from `a k` to `a (k + 1)` at each of its first `n` tokens comes to `a n`. -/
theorem engineRun_along {a : Nat → State} (n fuel : Nat) (hb : ∀ k, (a k).st = .busy)
    (ha : ∀ k, k < n → engineStep (a k) = a (k + 1)) : engineRun (n + fuel) (a 0) = engineRun fuel (a n) := by
  induction n generalizing fuel with
  | zero => rw [Nat.zero_add]
  | succ n ih =>
    calc engineRun (n + 1 + fuel) (a 0)
      _ = engineRun (n + (fuel + 1)) (a 0) := by rw [Nat.add_assoc, Nat.add_comm 1]
      _ = engineRun (fuel + 1) (a n) := ih (fuel + 1) fun k hk => ha k (Nat.lt_succ_of_lt hk)
      _ = engineRun fuel (a (n + 1)) := by rw [engineRun_succ (hb n), ha n n.lt_succ_self]

/-- NT after the first `k` words of the buffer. -/
def State.ntAfter (s : State) (sel : Sel) : Nat → Memory 16
  | 0 => Memory.unspecified s.freeCtr
  | k + 1 => (s.ntAfter sel k).write k (s.inputWord sel k)

theorem State.lookup_ntAfter (s : State) (sel : Sel) {k n : Nat} (hk : k < n) :
    (s.ntAfter sel n).lookup k = some (s.inputWord sel k) := by
  induction n with
  | zero => exact absurd hk (Nat.not_lt_zero k)
  | succ n ih =>
    rw [State.ntAfter]
    rcases Nat.lt_succ_iff_lt_or_eq.mp hk with hlt | rfl
    · rw [Memory.lookup_write_other _ hlt.ne, ih hlt]
    · exact Memory.lookup_write_same ..

/-- An `NTPARSE` accepted in `s` that has kept the first `k` words; with `k = 0` it is `ntparseStart`. -/
def State.parsing (s : State) (sel : Sel) (k : Nat) : State :=
  { ntparseStart sel s with nt := s.ntAfter sel k, ntCnt := BitVec.ofNat 32 k }

/-- `NTPARSE` writes nothing of its input. -/
theorem parsing_input (s : State) (sel : Sel) (k : Nat) :
    (s.parsing sel k).inputLen sel = s.inputLen sel ∧ (s.parsing sel k).inputWord sel = s.inputWord sel := by
  cases sel <;> exact ⟨rfl, rfl⟩

/-- `NT_CNT` holds the number of words of any buffer. -/
theorem parsing_ntCnt (s : State) (sel : Sel) {k : Nat} (hk : k ≤ s.inputLen sel / 2) :
    (s.parsing sel k).ntCnt.toNat = k :=
  Nat.mod_eq_of_lt (by have := s.inputLen_lt sel; omega)

/-- While a word is left, it is the next token. -/
theorem engineStep_parsing (s : State) (sel : Sel) {k : Nat} (hk : k < s.inputLen sel / 2) :
    engineStep (s.parsing sel k) = s.parsing sel (k + 1) := by
  obtain ⟨hlen, hword⟩ := parsing_input s sel k
  have hcnt := parsing_ntCnt s sel hk.le
  rcases engineStep_entry (s := s.parsing sel k) rfl with ⟨-, e⟩ | ⟨h, -⟩
  · rw [e, hcnt, hword, entryStep, hcnt]
    simp only [State.parsing, State.ntAfter, ← BitVec.ofNat_add]
  · rw [hcnt, hlen] at h
    exact absurd hk (Nat.not_lt.mpr h)

/-- With every whole word kept the command ends; a last odd byte is no word. -/
theorem engineStep_parsed (s : State) (sel : Sel) :
    engineStep (s.parsing sel (s.inputLen sel / 2)) = ntparseDone (s.parsing sel (s.inputLen sel / 2)) := by
  rcases engineStep_entry (s := s.parsing sel (s.inputLen sel / 2)) rfl with ⟨h, -⟩ | ⟨-, e⟩
  · rw [parsing_ntCnt s sel le_rfl, (parsing_input s sel _).1] at h
    exact absurd h (Nat.lt_irrefl _)
  · exact e

/-- `NTPARSE`'s work keeps every whole word of the buffer and ends. -/
theorem ntparseWork_eq {s : State} (sel : Sel) (hb : s.st = .busy) :
    ntparseWork sel s = ntparseDone (s.parsing sel (s.inputLen sel / 2)) := by
  calc ntparseWork sel s
    _ = engineRun (s.inputLen sel / 2 + 1) (s.parsing sel 0) := rfl
    _ = engineRun 1 (s.parsing sel (s.inputLen sel / 2)) :=
      engineRun_along (a := s.parsing sel) _ 1 (fun _ => hb) fun _ hk => engineStep_parsing s sel hk
    _ = ntparseDone (s.parsing sel (s.inputLen sel / 2)) := by
      rw [engineRun_succ (s := s.parsing sel _) hb, engineStep_parsed]
      rfl

/-- `NTPARSE` in IDLE with every check passed does its work. -/
theorem exec_ntparse_work {s : State} {sel : Sel} (hidle : s.st = .idle) (hpresent : sel = .out → s.outV = true)
    (hsrc : sel = .src → s.srcLen.toNat ≤ s.cfg.srcCap) (hfits : s.inputLen sel / 2 ≤ s.cfg.ntCap) :
    exec (.ntparse sel) s = .next (ntparseWork sel s.accept) := by
  calc exec (.ntparse sel) s
    _ = .next (ntparse sel s.accept) := next_issue_idle hidle
    _ = .next (ntparseWork sel s.accept) := congrArg _ (withInput_work (s := s.accept) _ _ hpresent hsrc hfits)

/-- Settles O45: the command's end is known, and NT there holds every word. -/
theorem ntparseResult : Obligations.NtparseResult := by
  unfold Obligations.NtparseResult
  intro s sel hidle hpresent hsrc hfits
  refine ⟨s.accept.ntAfter sel (s.inputLen sel / 2), s.freeCtr + 1,
    fun k hk => s.accept.lookup_ntAfter sel hk, ?next⟩
  case next =>
    rw [exec_ntparse_work hidle hpresent hsrc hfits, ntparseWork_eq sel (s := s.accept) rfl, hidle]
    rfl

end Sys2Proof.Machine

/-! PROOFS, the compositor family: the image (O46), the first failing lookup (O47), and the priority bit (O48). -/

namespace Sys2Proof.Machine

open Sys2Proof

/-! ## How `COMPOSE` gets to its work -/

/-- `COMPOSE` in IDLE with every check of R249 passed does its work, at the depth of the field's sub-palette size. -/
theorem exec_compose_work {s : State} {tw : BitVec 16} {bpp : BitVec 4} (hidle : s.st = .idle) (htw : tw ≠ 0#16)
    (hbpp : bppLegal bpp = true) (hnt : s.ntV = true) (htile : s.tileV = true) (hpal : s.palV = true)
    (hfits : 4 * (imageWidth tw.toNat * imageHeight tw.toNat s.ntCnt.toNat) ≤ s.cfg.fbCap) :
    ∃ b : Bpp, b.subpalSize = 2 ^ bpp.toNat ∧ exec (.compose tw bpp) s = .next (composeWork tw.toNat b s.accept) := by
  obtain ⟨b, hb, hsize⟩ := Bpp.subpalSize_of_legal hbpp
  refine ⟨b, hsize, ?_⟩
  calc exec (.compose tw bpp) s
    _ = .next (compose tw bpp s.accept) := next_issue_idle hidle
    _ = .next (composeWork tw.toNat b s.accept) := by
      simp only [compose, if_neg htw, hb, State.accept_ntV, State.accept_tileV, State.accept_palV,
        State.accept_ntCnt, State.accept_cfg, hnt, htile, hpal, hfits, Bool.and_self, if_true]

/-! ## The flips (R215)

A flip permutes the eight columns or rows, so the pixels of a cell are the elements of its tile. -/

/-- A column or row of a cell, mirrored when the entry's flip bit is 1. -/
def flipped (flip : Bool) (x : Nat) : Nat := if flip then 7 - x else x

theorem flipped_lt (flip : Bool) {x : Nat} (hx : x < 8) : flipped flip x < 8 := by
  cases flip
  · exact hx
  · exact Nat.lt_succ_of_le (Nat.sub_le 7 x)

theorem flipped_flipped (flip : Bool) {x : Nat} (hx : x < 8) : flipped flip (flipped flip x) = x := by
  cases flip
  · rfl
  · exact Nat.sub_sub_self (Nat.le_of_lt_succ hx)

theorem State.cellIndex_eq (s : State) (e : NametableEntry) (x y : Nat) :
    s.cellIndex e x y = s.tile.read (64 * e.tileIndex.toNat + 8 * flipped e.flipV y + flipped e.flipH x) := rfl

/-- Element `j` of an entry's tile shows at the column and row it is mirrored to. -/
theorem State.cellIndex_flipped (s : State) (e : NametableEntry) {j : Nat} (hj : j < 64) :
    s.cellIndex e (flipped e.flipH (j % 8)) (flipped e.flipV (j / 8)) = s.tile.read (64 * e.tileIndex.toNat + j) := by
  rw [State.cellIndex_eq, flipped_flipped _ (Nat.mod_lt j (by decide)), flipped_flipped _ (Nat.div_lt_of_lt_mul hj),
    Nat.add_assoc, Nat.div_add_mod]

/-- A pixel of an entry's cell is one of the 64 elements of its tile. -/
theorem State.exists_cellIndex_eq (s : State) (e : NametableEntry) {x y : Nat} (hx : x < 8) (hy : y < 8) :
    ∃ j, j < 64 ∧ s.cellIndex e x y = s.tile.read (64 * e.tileIndex.toNat + j) := by
  have hcol := flipped_lt e.flipH hx
  have hrow := flipped_lt e.flipV hy
  exact ⟨8 * flipped e.flipV y + flipped e.flipH x, by omega, by rw [State.cellIndex_eq, Nat.add_assoc]⟩

/-! ## The lookups of one entry (R214, R216) -/

/-- Every lookup of an entry is in range: its tile's, and the palette's for each element of that tile. -/
def State.EntryInRange (s : State) (b : Bpp) (e : NametableEntry) : Prop :=
  e.tileIndex.toNat < s.tileCnt.toNat
    ∧ ∀ j, j < 64 →
      e.subPaletteIndex.toNat * b.subpalSize + (s.tile.read (64 * e.tileIndex.toNat + j)).toNat < s.palCnt.toNat

theorem State.EntryInRange.entryFault_eq_none {s : State} {b : Bpp} {e : NametableEntry} (h : s.EntryInRange b e) :
    s.entryFault b e = none := by
  obtain ⟨htile, hpal⟩ := h
  rw [State.entryFault, if_neg (Nat.not_le_of_lt htile), if_neg]
  simp only [List.any_eq_true, List.mem_range, not_exists, not_and]
  intro p hp
  obtain ⟨j, hj, hcell⟩ := s.exists_cellIndex_eq e (Nat.mod_lt p (by decide)) (Nat.div_lt_of_lt_mul (show p < 8 * 8 from hp))
  rw [hcell, State.getColor_of_lt (hpal j hj)]
  exact Bool.false_ne_true

theorem State.entryFault_of_noTile {s : State} (b : Bpp) {e : NametableEntry}
    (h : s.tileCnt.toNat ≤ e.tileIndex.toNat) : s.entryFault b e = some .tileIndex :=
  if_pos h

/-- With the tile there, one element without a palette entry decides the fault, wherever the flips show it. -/
theorem State.entryFault_of_noColour {s : State} {b : Bpp} {e : NametableEntry} {j : Nat}
    (htile : e.tileIndex.toNat < s.tileCnt.toNat) (hj : j < 64)
    (hpal : s.palCnt.toNat ≤
      e.subPaletteIndex.toNat * b.subpalSize + (s.tile.read (64 * e.tileIndex.toNat + j)).toNat) :
    s.entryFault b e = some .paletteIndex := by
  have hcol := flipped_lt e.flipH (Nat.mod_lt j (by decide : 0 < 8))
  have hrow := flipped_lt e.flipV (Nat.div_lt_of_lt_mul hj : j / 8 < 8)
  rw [State.entryFault, if_neg (Nat.not_le_of_lt htile), if_pos]
  refine List.any_eq_true.mpr ⟨8 * flipped e.flipV (j / 8) + flipped e.flipH (j % 8),
    List.mem_range.mpr (show _ < 64 by omega), ?_⟩
  rw [Nat.mul_add_mod, Nat.mod_eq_of_lt hcol, Nat.mul_add_div (by decide), Nat.div_eq_of_lt hcol, Nat.add_zero,
    s.cellIndex_flipped e hj, State.getColor_of_ge hpal]
  rfl

/-! ## The first failing lookup (R217) -/

theorem State.composeFault_eq_none {s : State} {b : Bpp} (h : ∀ k, k < s.ntCnt.toNat → s.EntryInRange b (s.entry k)) :
    s.composeFault b = none :=
  List.findSome?_eq_none_iff.mpr fun k hk => (h k (List.mem_range.mp hk)).entryFault_eq_none

/-- The first entry with a failing lookup decides the fault. -/
theorem State.composeFault_eq_some {s : State} {b : Bpp} {k : Nat} {info : Info} (hk : k < s.ntCnt.toNat)
    (hbefore : ∀ i, i < k → s.EntryInRange b (s.entry i)) (hfault : s.entryFault b (s.entry k) = some info) :
    s.composeFault b = some info := by
  obtain ⟨n, hn⟩ := Nat.exists_eq_add_of_lt hk
  have hnone : (List.range k).findSome? (fun i => s.entryFault b (s.entry i)) = none :=
    List.findSome?_eq_none_iff.mpr fun i hi => (hbefore i (List.mem_range.mp hi)).entryFault_eq_none
  rw [State.composeFault, hn, Nat.add_assoc, List.range_add, List.findSome?_append, hnone, List.range_succ_eq_map]
  simp [hfault]

/-! ## The bytes of the image (R66, R212, R213) -/

/-- Lists of `c` elements one after the other: element `i` of list `p` stands at `c·p + i`. -/
theorem getElem?_flatMap_range {α : Type} {f : Nat → List α} {c : Nat} (hf : ∀ p, (f p).length = c) {n p i : Nat}
    (hp : p < n) (hi : i < c) : ((List.range n).flatMap f)[c * p + i]? = (f p)[i]? := by
  have hlen : ∀ m, ((List.range m).flatMap f).length = c * m := fun m => by
    simp [List.length_flatMap, hf, Nat.mul_comm]
  obtain ⟨m, rfl⟩ := Nat.exists_eq_add_of_lt hp
  rw [Nat.add_assoc, List.range_add, List.flatMap_append, List.getElem?_append_right (by rw [hlen]; omega), hlen,
    Nat.add_sub_cancel_left, List.range_succ_eq_map, List.map_cons, List.flatMap_cons,
    List.getElem?_append_left (by rw [hf]; exact hi), Nat.add_zero]

/-- Byte `i` of the pixel at column `x`, row `y` of the image. -/
theorem State.image_getElem? (s : State) (b : Bpp) {tw x y i : Nat} (hx : x < imageWidth tw)
    (hy : y < imageHeight tw s.ntCnt.toNat) (hi : i < 4) :
    (s.image b tw)[4 * (y * imageWidth tw + x) + i]? = (s.imagePixel b tw x y)[i]? := by
  have hp : y * imageWidth tw + x < imageWidth tw * imageHeight tw s.ntCnt.toNat := by
    calc y * imageWidth tw + x
      _ < y * imageWidth tw + imageWidth tw := Nat.add_lt_add_left hx _
      _ = imageWidth tw * (y + 1) := by ring
      _ ≤ imageWidth tw * imageHeight tw s.ntCnt.toNat := Nat.mul_le_mul_left _ hy
  rw [State.image, getElem?_flatMap_range (fun _ => State.imagePixel_length ..) hp hi, Nat.mul_comm y,
    Nat.mul_add_mod, Nat.mod_eq_of_lt hx, Nat.mul_add_div (Nat.zero_lt_of_lt hx), Nat.div_eq_of_lt hx, Nat.add_zero]

/-- A memory that holds the image shows its pixels. -/
theorem State.pixelAt_image (s : State) (b : Bpp) (g : Nat) {tw x y : Nat} (hx : x < imageWidth tw)
    (hy : y < imageHeight tw s.ntCnt.toNat) :
    pixelAt (Memory.ofList g (s.image b tw)) (imageWidth tw) x y = (s.imagePixel b tw x y).map some := by
  have hbyte : ∀ i, i < 4 → (Memory.ofList g (s.image b tw)).lookup (4 * (y * imageWidth tw + x) + i)
      = (s.imagePixel b tw x y)[i]? := fun i hi => by rw [Memory.lookup_ofList, s.image_getElem? b hx hy hi]
  obtain ⟨_, _, _, _, hpx⟩ := List.length_eq_four.mp (s.imagePixel_length b tw x y)
  rw [pixelAt, hbyte 1 (by decide), hbyte 2 (by decide), hbyte 3 (by decide), ← Nat.add_zero (4 * _),
    hbyte 0 (by decide), hpx]
  rfl

theorem State.imagePixel_of_entry {s : State} (b : Bpp) {tw x y : Nat} (h : y / 8 * tw + x / 8 < s.ntCnt.toNat) :
    s.imagePixel b tw x y = s.cellPixel b (s.entry (y / 8 * tw + x / 8)) (x % 8) (y % 8) :=
  if_pos h

theorem State.imagePixel_of_noEntry {s : State} (b : Bpp) {tw x y : Nat} (h : s.ntCnt.toNat ≤ y / 8 * tw + x / 8) :
    s.imagePixel b tw x y = fillPixel :=
  if_neg (Nat.not_lt_of_le h)

/-! ## The statements -/

/-- Settles O46: no lookup fails, and FB is the image. -/
theorem composeResult : Obligations.ComposeResult := by
  unfold Obligations.ComposeResult
  rintro s tw bpp W H hidle htw hbpp hnt htile hpal rfl rfl hfits hrange
  obtain ⟨b, hsize, e⟩ := exec_compose_work hidle htw hbpp hnt htile hpal (by rwa [Nat.mul_assoc] at hfits)
  rw [← hsize] at hrange ⊢
  have hnone : s.accept.composeFault b = none := State.composeFault_eq_none (s := s.accept) hrange
  refine ⟨Memory.ofList s.freeCtr (s.accept.image b tw.toNat), s.freeCtr + 1, ?pixels, ?next⟩
  case pixels =>
    rintro x y _ sx sy ci colour hx hy rfl
    have hpixel := s.accept.pixelAt_image b s.freeCtr hx hy
    refine ⟨?entry, fun hk => ?fill⟩
    case entry =>
      rintro hk rfl rfl rfl rfl
      exact hpixel.trans (congrArg _ (State.imagePixel_of_entry (s := s.accept) b hk))
    case fill => exact hpixel.trans (congrArg _ (State.imagePixel_of_noEntry (s := s.accept) b hk))
  case next =>
    rw [e, composeWork, hnone, hidle]
    rfl

/-- Settles O47: entry `k` is the first with a failing lookup, and the tile is looked up before the pixels. -/
theorem composeFirstFault : Obligations.ComposeFirstFault := by
  unfold Obligations.ComposeFirstFault
  intro s tw bpp k tileFails hidle htw hbpp hnt htile hpal hfits hk hbefore hfails
  obtain ⟨b, hsize, e⟩ := exec_compose_work hidle htw hbpp hnt htile hpal hfits
  rw [← hsize] at hbefore hfails
  refine ⟨_, e, ?_⟩
  cases tileFails with
  | true =>
    have hfault : s.accept.entryFault b (s.accept.entry k) = some .tileIndex :=
      State.entryFault_of_noTile (s := s.accept) b hfails
    rw [composeWork, State.composeFault_eq_some (s := s.accept) hk hbefore hfault]
    rfl
  | false =>
    obtain ⟨hpresent, j, hj, hover⟩ := hfails
    have hfault : s.accept.entryFault b (s.accept.entry k) = some .paletteIndex :=
      State.entryFault_of_noColour (s := s.accept) hpresent hj hover
    rw [composeWork, State.composeFault_eq_some (s := s.accept) hk hbefore hfault]
    rfl

/-! ## The priority bit (R203, R218) -/

theorem entryWord_priority (v h p : Bool) (sp : BitVec 3) (tile : BitVec 10) :
    (entryWord v h p sp tile).getLsbD 13 = p := by
  have hfields := decodeEntry_entryWord v h p sp tile
  rw [decodeEntry] at hfields
  obtain ⟨-, -, hpriority, -, -⟩ := Instr.ntword.inj hfields
  exact hpriority

/-- Words that agree outside bit 13 are entries that agree but for the priority. -/
theorem parseEntry_of_masked {w v : BitVec 16} (h : w &&& 0xDFFF#16 = v &&& 0xDFFF#16) :
    parseEntry w = { parseEntry v with priority := w.getLsbD 13 } := by
  have hbit (i : Nat) (hi : (0xDFFF#16).getLsbD i = true) : w.getLsbD i = v.getLsbD i := by
    simpa only [BitVec.getLsbD_and, hi, Bool.and_true] using congrArg (·.getLsbD i) h
  have hfield (i n : Nat) (hin : (0xDFFF#16).extractLsb' i n = BitVec.allOnes n) :
      w.extractLsb' i n = v.extractLsb' i n := by
    simpa only [BitVec.extractLsb'_and, hin, BitVec.and_allOnes] using congrArg (·.extractLsb' i n) h
  simp only [parseEntry, hfield 0 10 (by decide), hfield 10 3 (by decide), hbit 14 (by decide), hbit 15 (by decide)]

/-- `s` with another nametable. -/
def State.withNt (s : State) (m : Memory 16) : State := { s with nt := m }

/-- `COMPOSE`'s checks do not read the nametable: with every nametable the same one fails, or all pass. -/
theorem compose_checks (tw : BitVec 16) (bpp : BitVec 4) (s : State) :
    (∃ info, ∀ m, compose tw bpp (s.withNt m) = raise .illegalCommand info 0x50#8 (s.withNt m))
    ∨ ∃ b, ∀ m, compose tw bpp (s.withNt m) = composeWork tw.toNat b (s.withNt m) := by
  by_cases htw : tw = 0#16
  · exact .inl ⟨_, fun m => if_pos htw⟩
  cases hb : Bpp.ofField bpp with
  | none => exact .inl ⟨_, fun m => by rw [compose, if_neg htw, hb]⟩
  | some b =>
    by_cases hvalid : (s.ntV && s.tileV && s.palV) = true
    · by_cases hfits : 4 * (imageWidth tw.toNat * imageHeight tw.toNat s.ntCnt.toNat) ≤ s.cfg.fbCap
      · exact .inr ⟨b, fun m => by rw [compose, if_neg htw, hb]; exact (if_pos hvalid).trans (if_pos hfits)⟩
      · exact .inl ⟨_, fun m => by rw [compose, if_neg htw, hb]; exact (if_pos hvalid).trans (if_neg hfits)⟩
    · exact .inl ⟨_, fun m => by rw [compose, if_neg htw, hb]; exact if_neg hvalid⟩

section
variable {s : State} {m : Memory 16}
  (hmask : ∀ k, k < s.ntCnt.toNat → m.read k &&& 0xDFFF#16 = s.nt.read k &&& 0xDFFF#16)
include hmask

/-- The entries of the nametable `m` are those of `s` but for their priorities. -/
theorem State.withNt_entry {k : Nat} (hk : k < s.ntCnt.toNat) :
    (s.withNt m).entry k = { s.entry k with priority := (m.read k).getLsbD 13 } :=
  parseEntry_of_masked (hmask k hk)

theorem State.withNt_composeFault (b : Bpp) : (s.withNt m).composeFault b = s.composeFault b := by
  have hentry (k : Nat) (hk : k ∈ List.range s.ntCnt.toNat) :
      (s.withNt m).entryFault b ((s.withNt m).entry k) = s.entryFault b (s.entry k) := by
    rw [State.withNt_entry hmask (List.mem_range.mp hk)]
    rfl
  simp only [State.composeFault, ← List.head?_filterMap]
  exact congrArg List.head? (List.filterMap_congr hentry)

theorem State.withNt_imagePixel (b : Bpp) (tw x y : Nat) :
    (s.withNt m).imagePixel b tw x y = s.imagePixel b tw x y := by
  by_cases hk : y / 8 * tw + x / 8 < s.ntCnt.toNat
  · rw [State.imagePixel_of_entry (s := s.withNt m) b hk, State.withNt_entry hmask hk,
      State.imagePixel_of_entry b hk]
    rfl
  · rw [State.imagePixel_of_noEntry (s := s.withNt m) b (Nat.le_of_not_lt hk),
      State.imagePixel_of_noEntry b (Nat.le_of_not_lt hk)]

theorem State.withNt_image (b : Bpp) (tw : Nat) : (s.withNt m).image b tw = s.image b tw :=
  List.flatMap_congr fun _ _ => State.withNt_imagePixel hmask ..

theorem composeWork_withNt (tw : Nat) (b : Bpp) :
    composeWork tw b (s.withNt m) = (composeWork tw b s).withNt m := by
  rw [composeWork, composeWork, State.withNt_composeFault hmask, State.withNt_image hmask]
  cases s.composeFault b <;> rfl

theorem compose_withNt (tw : BitVec 16) (bpp : BitVec 4) :
    compose tw bpp (s.withNt m) = (compose tw bpp s).withNt m := by
  rcases compose_checks tw bpp s with ⟨info, h⟩ | ⟨b, h⟩
  · rw [h, show compose tw bpp s = _ from h s.nt]
    rfl
  · rw [h, composeWork_withNt hmask, show compose tw bpp s = _ from h s.nt]
    rfl

/-- Outside IDLE the command is ignored, and the nametable stays the other one. -/
theorem issue_compose_withNt (tw : BitVec 16) (bpp : BitVec 4) :
    issue (compose tw bpp) (s.withNt m) = (issue (compose tw bpp) s).withNt m := by
  cases hst : s.st with
  | idle =>
    rw [issue_idle hst, issue_idle (s := s.withNt m) hst]
    exact compose_withNt (s := s.accept) hmask tw bpp
  | busy => rw [issue_busy hst, issue_busy (s := s.withNt m) hst]
  | fault => rw [issue_fault hst, issue_fault (s := s.withNt m) hst]

end

/-- Settles O48: the word's bit 13 is the entry's priority, and no lookup and no pixel reads it. -/
theorem priorityHasNoEffect : Obligations.PriorityHasNoEffect := by
  unfold Obligations.PriorityHasNoEffect
  refine ⟨?kept, ?ignored⟩
  case kept =>
    rintro v h p sp tile s _ ⟨⟩
    exact (congrArg (fun w : BitVec 16 => w.getLsbD 13) (Memory.read_write_same ..)).trans
      (entryWord_priority v h p sp tile)
  case ignored =>
    rintro s _ m tw bpp hmask ⟨⟩
    exact congrArg Host.Outcome.next (issue_compose_withNt hmask tw bpp)

end Sys2Proof.Machine

/-! PROOFS, the system family: `NOP` and `CLRERR` (O13). -/

namespace Sys2Proof.Machine

open Sys2Proof

/-- A command that is accepted and ends ok at once leaves `DONE` set, and `ST` IDLE as it was (R249 step 1, R25). -/
theorem State.accept_endOk_of_idle {s : State} (hidle : s.st = .idle) :
    s.accept.endOk = { s with done := true, phase := .none } := by
  rw [hidle]
  rfl

/-- Acceptance writes only `ST` and `DONE`, and the return from a fault writes both again. -/
theorem State.accept_clearFault (s : State) : s.accept.clearFault = s.clearFault := rfl

/-- Outside BUSY the gate lets `CLRERR` through, and its work is the same from IDLE and from FAULT. -/
theorem issueAlways_clearFault {s : State} (hfree : s.st ≠ .busy) :
    issueAlways State.clearFault s = s.clearFault := by
  rcases issueAlways_cases State.clearFault s with ⟨hbusy, -⟩ | ⟨-, accepted⟩ | ⟨-, inFault⟩
  · exact absurd hbusy hfree
  · exact accepted.trans s.accept_clearFault
  · exact inFault

/-- Settles O13: `NOP` is accepted and ends ok, and `CLRERR` is the return from a fault. -/
theorem nopAndClrerrResult : Obligations.NopAndClrerrResult := by
  unfold Obligations.NopAndClrerrResult
  refine fun s => ⟨fun hidle => ?nop, fun hfree => ?clrerr⟩
  case nop =>
    calc exec .nop s
      _ = .next s.accept.endOk := next_issue_idle hidle
      _ = .next { s with done := true, phase := .none } := congrArg _ (State.accept_endOk_of_idle hidle)
  case clrerr =>
    calc exec .clrerr s
      _ = .next (issueAlways State.clearFault s) := rfl
      _ = .next s.clearFault := congrArg _ (issueAlways_clearFault hfree)

end Sys2Proof.Machine

/-! PROOFS, the exceptions family, part 1: the state gate (O12). -/

namespace Sys2Proof.Machine

open Sys2Proof

/-- The gate of `RDVARINT` ignores it outside IDLE, like the gate of the others (R249 step 1, R275). -/
theorem issueOutcome_ignored {work : State → Host.Outcome State Fault Refusal} {s : State} (hst : s.st ≠ .idle) :
    issueOutcome work s = .next s := by
  cases h : s.st with
  | idle => exact absurd h hst
  | busy => rw [issueOutcome, h]
  | fault => rw [issueOutcome, h]

/-- Outside IDLE no command is refused: `RDVARINT`, the one command the model can refuse, does not get to its varint. -/
theorem exec_command_next {i : Instr} {s : State} (hc : isCommand i = true) (hst : s.st ≠ .idle) :
    ∃ t, exec i s = .next t := by
  rcases exec_next_or_refused i s with hnext | ⟨rfl | ⟨v, rfl⟩, -, -⟩
  · exact hnext
  · exact ⟨s, issueOutcome_ignored hst⟩
  · cases hc

/-- In BUSY every command is ignored, `CLRERR` and `SRESET` included (R275). -/
theorem exec_command_in_busy {i : Instr} {s t : State} (hb : s.st = .busy) (hc : isCommand i = true)
    (h : exec i s = .next t) : t = s := by
  cases exec_command_runs hc h with
  | ignored => rfl
  | accepted hst | clrerrInFault hst | sresetInFault hst => exact EngineState.noConfusion (hb.symm.trans hst)

/-- Settles O12: outside IDLE every command has a next state, and the gate makes it the state before. -/
theorem gateIgnoresCommands : Obligations.GateIgnoresCommands := by
  unfold Obligations.GateIgnoresCommands
  refine fun i s hc => ⟨fun hf hclr hreset => ?fault, fun hb => ?busy⟩
  case fault =>
    obtain ⟨t, h⟩ := exec_command_next hc (by rw [hf]; decide)
    rw [h, exec_command_in_fault hf hc hclr hreset h]
  case busy =>
    obtain ⟨t, h⟩ := exec_command_next hc (by rw [hb]; decide)
    rw [h, exec_command_in_busy hb hc h]

end Sys2Proof.Machine

/-! PROOFS, the exceptions family, part 2: the checks before a command starts (O14). -/

namespace Sys2Proof.Machine

open Sys2Proof

/-- A command in IDLE whose work stops at a check leaves the refusal: acceptance writes only `ST` and `DONE`, and the
fault writes both again (R249 step 1, R250). -/
theorem next_issue_refused {work : State → State} {s : State} {info : Info} {op : BitVec 8} (hidle : s.st = .idle)
    (hcheck : work s.accept = raise .illegalCommand info op s.accept) :
    (.next (issue work s) : Host.Outcome State Fault Refusal)
      = .next (s.refusedWith (errWord .illegalCommand info op)) := by
  rw [next_issue_idle hidle, hcheck]
  rfl

/-! ## Operands out of range (R249 step 4) -/

theorem rdbits_badParam {n : BitVec 24} (hn : rdbitsMax < n.toNat) (s : State) :
    rdbits n s = raise .illegalCommand .badParam 0x01#8 s := if_pos hn

theorem tiledec_badParam {bpp : BitVec 4} (hbpp : bppLegal bpp = false) (sel : Sel) (s : State) :
    tiledec sel bpp s = raise .illegalCommand .badParam 0x20#8 s := by
  rw [tiledec, Bpp.ofField_of_illegal hbpp]

theorem getcolor_badParam {bpp : BitVec 4} (hbpp : bppLegal bpp = false) (sp ci : BitVec 8) (s : State) :
    getcolor sp ci bpp s = raise .illegalCommand .badParam 0x31#8 s := by
  rw [getcolor, Bpp.ofField_of_illegal hbpp]

theorem subpalcnt_badParam {bpp : BitVec 4} (hbpp : bppLegal bpp = false) (s : State) :
    subpalcnt bpp s = raise .illegalCommand .badParam 0x32#8 s := by
  rw [subpalcnt, Bpp.ofField_of_illegal hbpp]

theorem compose_badParam {tw : BitVec 16} {bpp : BitVec 4} (hbad : tw = 0#16 ∨ bppLegal bpp = false) (s : State) :
    compose tw bpp s = raise .illegalCommand .badParam 0x50#8 s := by
  rw [compose]
  by_cases htw : tw = 0#16
  · rw [if_pos htw]
  · rw [if_neg htw, Bpp.ofField_of_illegal (hbad.resolve_left htw)]

/-! ## Inputs that are missing (R249 step 5) -/

theorem withInput_noInput (op : BitVec 8) (fits : Bool) (work : State → State) {s : State} (hout : s.outV = false) :
    withInput op .out fits work s = raise .illegalCommand .noInput op s :=
  if_neg (Bool.eq_false_iff.mp hout)

theorem tiledec_noInput {bpp : BitVec 4} {s : State} (hbpp : bppLegal bpp = true) (hout : s.outV = false) :
    tiledec .out bpp s = raise .illegalCommand .noInput 0x20#8 s := by
  obtain ⟨b, hb, -⟩ := Bpp.ofField_of_legal hbpp
  rw [tiledec, hb]
  exact withInput_noInput _ _ _ hout

theorem getcolor_noInput {bpp : BitVec 4} {s : State} (sp ci : BitVec 8) (hbpp : bppLegal bpp = true)
    (hpal : s.palV = false) : getcolor sp ci bpp s = raise .illegalCommand .noInput 0x31#8 s := by
  obtain ⟨b, hb, -⟩ := Bpp.ofField_of_legal hbpp
  rw [getcolor, hb]
  exact if_neg (Bool.eq_false_iff.mp hpal)

theorem subpalcnt_noInput {bpp : BitVec 4} {s : State} (hbpp : bppLegal bpp = true) (hpal : s.palV = false) :
    subpalcnt bpp s = raise .illegalCommand .noInput 0x32#8 s := by
  obtain ⟨b, hb, -⟩ := Bpp.ofField_of_legal hbpp
  rw [subpalcnt, hb]
  exact if_neg (Bool.eq_false_iff.mp hpal)

theorem compose_noInput {tw : BitVec 16} {bpp : BitVec 4} {s : State} (htw : tw ≠ 0#16) (hbpp : bppLegal bpp = true)
    (hmissing : s.ntV = false ∨ s.tileV = false ∨ s.palV = false) :
    compose tw bpp s = raise .illegalCommand .noInput 0x50#8 s := by
  obtain ⟨b, hb, -⟩ := Bpp.ofField_of_legal hbpp
  have hvalid : ¬ (s.ntV && s.tileV && s.palV) = true := by
    rcases hmissing with h | h | h <;> simp [h]
  rw [compose, if_neg htw, hb]
  exact if_neg hvalid

/-! ## SRC over its capacity (R27, R249 step 6) -/

theorem State.srcInCapacity_eq_false {s : State} (hover : s.cfg.srcCap < s.srcLen.toNat) : s.srcInCapacity = false :=
  decide_eq_false (Nat.not_le_of_lt hover)

theorem rdbits_srcOverCapacity {n : BitVec 24} {s : State} (hn : n.toNat ≤ rdbitsMax)
    (hover : s.cfg.srcCap < s.srcLen.toNat) : rdbits n s = raise .illegalCommand .capacity 0x01#8 s := by
  rw [rdbits, if_neg (Nat.not_lt_of_le hn), State.srcInCapacity_eq_false hover, if_neg Bool.false_ne_true]

/-- A bulk decoder of SRC stops there whether or not its result would fit. -/
theorem withInput_srcOverCapacity (op : BitVec 8) (fits : Bool) (work : State → State) {s : State}
    (hover : s.cfg.srcCap < s.srcLen.toNat) :
    withInput op .src fits work s = raise .illegalCommand .capacity op s := by
  rcases withInput_cases op .src fits work s with ⟨habsent, -⟩ | ⟨-, -, e⟩ | ⟨-, hwithin, -, -⟩
  · cases habsent
  · exact e
  · exact absurd hwithin (Bool.eq_false_iff.mp (State.srcInCapacity_eq_false hover))

theorem tiledec_srcOverCapacity {bpp : BitVec 4} {s : State} (hbpp : bppLegal bpp = true)
    (hover : s.cfg.srcCap < s.srcLen.toNat) :
    tiledec .src bpp s = raise .illegalCommand .capacity 0x20#8 s := by
  obtain ⟨b, hb, -⟩ := Bpp.ofField_of_legal hbpp
  rw [tiledec, hb]
  exact withInput_srcOverCapacity _ _ _ hover

/-! ## The statement -/

/-- Settles O14: check by check in R249's order, each command's work stops there, and through the gate that is the
refusal. -/
theorem checksBeforeStart : Obligations.ChecksBeforeStart := by
  unfold Obligations.ChecksBeforeStart
  intro s hidle
  -- Step 4: `BAD_PARAM`.
  refine ⟨fun _ hn => next_issue_refused hidle (rdbits_badParam hn _),
    fun _ _ hbpp => next_issue_refused hidle (tiledec_badParam hbpp _ _),
    fun _ _ _ hbpp => next_issue_refused hidle (getcolor_badParam hbpp _ _ _),
    fun _ hbpp => next_issue_refused hidle (subpalcnt_badParam hbpp _),
    fun _ _ hbad => next_issue_refused hidle (compose_badParam hbad _), ?inputs⟩
  -- Step 5: `NO_INPUT`.
  refine ⟨fun _ hbpp hout => next_issue_refused hidle (tiledec_noInput hbpp hout),
    fun hout => next_issue_refused hidle (withInput_noInput _ _ _ hout),
    fun hout => next_issue_refused hidle (withInput_noInput _ _ _ hout),
    fun _ _ _ hbpp hpal => next_issue_refused hidle (getcolor_noInput _ _ hbpp hpal),
    fun _ hbpp hpal => next_issue_refused hidle (subpalcnt_noInput hbpp hpal),
    fun _ _ htw hbpp hmissing => next_issue_refused hidle (compose_noInput htw hbpp hmissing), fun hover => ?source⟩
  -- Step 6: `CAPACITY` of SRC, for the commands that read it.
  exact ⟨fun _ hn => next_issue_refused hidle (rdbits_srcOverCapacity hn hover),
    fun _ => exec_rdbytes_overCapacity hidle (.inr hover),
    exec_rdvarint_overCapacity hidle hover,
    exec_decomp_overCapacity hidle hover,
    fun _ hbpp => next_issue_refused hidle (tiledec_srcOverCapacity hbpp hover),
    next_issue_refused hidle (withInput_srcOverCapacity _ _ _ hover),
    next_issue_refused hidle (withInput_srcOverCapacity _ _ _ hover)⟩

end Sys2Proof.Machine

/-! PROOFS, the hazards family, part 1: no step outside BUSY leaves the ENGINE in BUSY (O2, O35). -/

namespace Sys2Proof.Machine

open Sys2Proof

/-! ## With nothing to do (R270) -/

/-- With no HOST action and no command in progress there is nothing to run. -/
theorem fetch_of_nothingDue {s : State} (hq : s.hostq = []) (hfree : s.st ≠ .busy) : fetch s = .settled s := by
  rw [fetch, hq]
  cases hst : s.st with
  | busy => exact absurd hst hfree
  | idle => rfl
  | fault => rfl

/-- Settles O2: a step that meets nothing to run settles where it is. -/
theorem idleEngineStartsNothing : Obligations.IdleEngineStartsNothing := by
  unfold Obligations.IdleEngineStartsNothing
  intro s hq hfree
  rw [step, fetch_of_nothingDue hq hfree]

/-! ## Every command ends (R279, R280)

`CommandEnds` leaves open how many tokens a `PALLOAD` and an `NTPARSE` run, so that they end is said of the commands
themselves, from the number of words of their input. -/

/-- The gate does not leave BUSY behind when the work behind it does not. -/
theorem issue_not_busy {work : State → State} (hwork : ∀ a, (work a).st ≠ .busy) {s : State} (hfree : s.st ≠ .busy) :
    (issue work s).st ≠ .busy := by
  rcases issue_cases work s with ⟨-, ignored⟩ | ⟨-, accepted⟩
  · rw [ignored]; exact hfree
  · rw [accepted]; exact hwork _

/-- A bulk decoder that stops at a check is in FAULT, so only its work is to be looked at. -/
theorem withInput_not_busy {work : State → State} {a : State} (hwork : (work a).st ≠ .busy) (op : BitVec 8) (sel : Sel)
    (fits : Bool) : (withInput op sel fits work a).st ≠ .busy := by
  rcases withInput_cases op sel fits work a with ⟨-, e⟩ | ⟨-, -, e⟩ | ⟨-, -, -, e⟩ <;> rw [e]
  · exact nofun
  · exact nofun
  · exact hwork

theorem palload_not_busy (sel : Sel) (a : State) : (palload sel a).st ≠ .busy :=
  withInput_not_busy (work := palloadWork sel) (palloadRun_ends sel a) _ _ _

theorem ntparse_not_busy (sel : Sel) (a : State) : (ntparse sel a).st ≠ .busy :=
  withInput_not_busy (work := ntparseWork sel) (ntparseRun_ends sel a) _ _ _

/-- The varint of an `RDVARINT` ends it, with its value or with `RESULT_RANGE` (R126). -/
theorem varintStep_not_busy (v : Nat) (s : State) : (varintStep v s).st ≠ .busy := by
  rcases varintStep_cases v s with ⟨-, e⟩ | ⟨-, _, _, e⟩ <;> rw [e] <;> exact nofun

/-- Outside BUSY every command ends in the step that runs it: most end in IDLE or FAULT by what they write last, and the
three that run tokens because their tokens run out. -/
theorem exec_command_not_busy {i : Instr} {s t : State} (hc : isCommand i = true) (hfree : s.st ≠ .busy)
    (h : exec i s = .next t) : t.st ≠ .busy := by
  cases exec_command_runs hc h with
  | ignored => exact hfree
  | clrerrInFault | sresetInFault => exact nofun
  | accepted _ hend =>
    cases hend with
    | decomp => exact decompRun_ends s.accept
    | palload sel => rw [← Host.Outcome.next.inj h]; exact issue_not_busy (palload_not_busy sel) hfree
    | ntparse sel => rw [← Host.Outcome.next.inj h]; exact issue_not_busy (ntparse_not_busy sel) hfree
    | rdvarint v => exact varintStep_not_busy v _
    | raised | rdbytesFaulted | tiledecFaulted | composeFaulted
    | nop | rdbits | rdbytes | tiledec | getcolor | subpalcnt | compose | clrerr | sreset => exact nofun

/-- A rejected word is ignored or faults. -/
theorem rejectCommand_not_busy (e : DecodeError) (c : Word) {s : State} (hfree : s.st ≠ .busy) :
    (rejectCommand e c s).st ≠ .busy :=
  issue_not_busy (work := raise .illegalCommand (DecodeError.info e) (c.extractLsb' 0 8)) (fun _ => nofun) hfree

theorem hostWrite_st (s : State) (target : Option Target) (d : Word) : (s.hostWrite target d).st = s.st := by
  rcases hostWrite_cases s target d with ⟨-, e⟩ | ⟨-, e⟩ | ⟨_, -, e⟩ | ⟨-, -, -, e⟩ <;> rw [e]

/-- Settles O35: a word written to `CMD` runs to its end or is rejected, and no other HOST action sets `ST` to BUSY. -/
theorem everyCommandEnds : Obligations.EveryCommandEnds := by
  unfold Obligations.EveryCommandEnds
  intro s t hfree hst
  rcases step_cases hst with ⟨_, c, _, i, -, -, hd, he⟩ | ⟨_, c, _, e, -, -, -, rfl⟩ | ⟨a, _, -, rfl⟩ | ⟨_, -, rfl⟩
    | ⟨a, d, _, -, -, -, rfl⟩ | ⟨-, hb, -⟩ | ⟨-, -, rfl⟩
  · exact exec_command_not_busy (s := s.popHost) (decodeCommand_isCommand hd).1 hfree he
  · exact rejectCommand_not_busy (s := s.popHost) e c hfree
  · exact hfree
  · exact nofun
  · rw [hostWrite_st]; exact hfree
  · exact absurd hb hfree
  · exact hfree

end Sys2Proof.Machine

/-! PROOFS, the hazards family, part 2: the HOST's accesses while BUSY (O60). -/

namespace Sys2Proof.Machine

open Sys2Proof

/-- In BUSY a word written to `CMD` is ignored, whether it decodes or not (R275). -/
theorem step_command_in_busy {s : State} {a c : Word} {rest : List HostOp} (hb : s.st = .busy)
    (hq : s.hostq = .write a c :: rest) (ha : resolve s.cfg a = some (.reg 0)) : step s = .next s.popHost := by
  rw [step_command hq ha]
  cases hd : decodeCommand c with
  | ok i =>
    obtain ⟨hc, -⟩ := decodeCommand_isCommand hd
    obtain ⟨-, inBusy⟩ := gateIgnoresCommands i s.popHost hc
    exact inBusy hb
  | error e => exact congrArg _ (issue_busy (s := s.popHost) hb)

/-- Bits 0 and 1 of `STATUS` read while BUSY do not depend on the free value under the mask (R274, R45). -/
theorem State.busyStatus_flags (s : State) : s.busyStatus.getLsbD 0 = true ∧ s.busyStatus.getLsbD 1 = false := by
  simp [State.busyStatus]

theorem hostReadValue_status_in_busy {s : State} (hb : s.st = .busy) {a : Word}
    (ha : resolve s.cfg a = some (.reg 0x04)) : s.hostReadValue a = s.busyStatus := by
  rw [State.hostReadValue, hb, ha]
  rfl

/-- In BUSY the HOST's port refuses a write (R274, U5). -/
theorem hostAct_write_in_busy {s : State} (hb : s.st = .busy) (a d : Word) :
    hostAct (.write a d) s = .refused .hostTouchedBusy := by
  rw [hostAct, hb]

/-- Settles O60: a `CMD` write is taken and ignored, `STATUS` reads as `busyStatus`, and the port refuses every other
write. -/
theorem hostAccessWhileBusy : Obligations.HostAccessWhileBusy := by
  unfold Obligations.HostAccessWhileBusy
  refine fun s rest hb => ⟨fun a c hq ha => ?command, fun a hq ha => ?status, fun a d hq ha => ?write⟩
  case command => rw [step_command_in_busy hb hq ha, popHost_eq hq]
  case status =>
    have hstep : step s = .next (s.popHost.hostRead a) := step_host hq nofun
    have hvalue : (s.popHost.hostRead a).rdata = s.popHost.busyStatus :=
      hostReadValue_status_in_busy (s := s.popHost) hb ha
    obtain ⟨busy, fault⟩ := s.popHost.busyStatus_flags
    refine ⟨_, hstep, hvalue ▸ busy, hvalue ▸ fault, ?_⟩
    rw [State.hostRead, popHost_eq hq]
  case write =>
    rw [step_host hq (by rintro _ _ ⟨⟩; exact ha)]
    exact hostAct_write_in_busy (s := s.popHost) hb a d

end Sys2Proof.Machine
